-- ==== Sys2Proof/Word.lean ====
section
/-! DEFINITION. The plain words of the RSAE spec: bus words, bytes and register numbers. -/

namespace Sys2Proof

/-- A byte of IN_BUF or OUT_BUF (10_state.md R39). -/
abbrev Byte := BitVec 8

/-- A 32-bit bus value, control register or command word (10_state.md R24, 30_encoding.md R90). -/
abbrev Word := BitVec 32

/-- A wide register number, 0 to 15 (10_state.md R20, 30_encoding.md R93). -/
abbrev Reg := Fin 16

end Sys2Proof
end

