-- ==== Sys2Proof/Syntax.lean ====
section
/-! DEFINITION. The RSAE-1 command set: one constructor per row of 30_encoding.md R95. -/

namespace Sys2Proof

/-- The codec mode of the L bit (30_encoding.md R94, 44_codec.md R181): L = 0 is pad, L = 1 is legacy. -/
inductive Mode where
  | pad
  | legacy
deriving DecidableEq, Repr

/-- The 24 commands. Register operands come in the assembler's order rd, ra, rb, rc (30_encoding.md R99); an
immediate is the integer cmd[31:16] (R94), whose bound `Instr.wellFormed` checks. -/
inductive Instr where
  | nop
  | ldi (rd : Reg) (imm : Nat)
  | mov (rd ra : Reg)
  | add (rd ra rb : Reg)
  | addi (rd ra : Reg) (imm : Nat)
  | sub (rd ra rb : Reg)
  | subi (rd ra : Reg) (imm : Nat)
  | cmp (rd ra rb : Reg)
  | bitlen (rd ra : Reg)
  | mul (rd ra rb : Reg)
  | mod (rd ra rc : Reg)
  | modmul (rd ra rb rc : Reg)
  | gcd (rd ra rb : Reg)
  | modinv (rd ra rc : Reg)
  | modpow (rd ra rb rc : Reg)
  | randb (rd : Reg) (imm : Nat)
  | randc (rd : Reg) (imm : Nat)
  | trialdiv (rd ra : Reg)
  | mrround (rd ra rb : Reg)
  | primetest (rd ra : Reg)
  | ldb (rd : Reg)
  | stb (ra : Reg) (mode : Mode)
  | benc (ra rc : Reg) (mode : Mode)
  | bdec (ra rc : Reg) (mode : Mode)
deriving DecidableEq, Repr

end Sys2Proof
end

