-- ==== Sys2Proof/WellFormed.lean ====
section
/-! DEFINITION. Which instructions of `Instr` a command word can hold. -/

namespace Sys2Proof

/-- An immediate lies in 0 to 65535 (30_encoding.md R94). -/
def immOk (imm : Nat) : Bool := decide (imm < 65536)

/-- The checks the types do not make: a format I immediate fits its 16 bits (30_encoding.md R92, R94). Register
numbers are bounded by their type, and every other combination of fields is a command (R95). -/
def Instr.wellFormed : Instr → Bool
  | .ldi _ imm => immOk imm
  | .addi _ _ imm => immOk imm
  | .subi _ _ imm => immOk imm
  | .randb _ imm => immOk imm
  | .randc _ imm => immOk imm
  | .nop => true
  | .mov _ _ => true
  | .add _ _ _ => true
  | .sub _ _ _ => true
  | .cmp _ _ _ => true
  | .bitlen _ _ => true
  | .mul _ _ _ => true
  | .mod _ _ _ => true
  | .modmul _ _ _ _ => true
  | .gcd _ _ _ => true
  | .modinv _ _ _ => true
  | .modpow _ _ _ _ => true
  | .trialdiv _ _ => true
  | .mrround _ _ _ => true
  | .primetest _ _ => true
  | .ldb _ => true
  | .stb _ _ => true
  | .benc _ _ _ => true
  | .bdec _ _ _ => true

end Sys2Proof
end

