-- ==== Sys2Proof/Decode.lean ====
section
/-! DEFINITION. Decoding and encoding command words (30_encoding.md). -/

namespace Sys2Proof

/-- Why a word is not a command. Every one of these is the ILLEGAL of 30_encoding.md R96; `length` is a byte
list that does not hold one whole command (R98). -/
inductive Reject where
  | reservedOpcode (opcode : Nat)
  | unusedFieldNonzero (opcode : Nat)
  | length (bytes : Nat)
deriving DecidableEq, Repr

/-- Bits lo+len-1 .. lo of a command word, as an unsigned number (00_scope.md R9). -/
def fieldOf (w : Word) (lo len : Nat) : Nat := w.toNat / 2 ^ lo % 2 ^ len

/-- The register number in the four bits from `lo` (30_encoding.md R91, R93). -/
def regField (w : Word) (lo : Nat) : Reg := Fin.ofNat 16 (w.toNat / 2 ^ lo)

/-- The opcode, bits [7:0] (30_encoding.md R90). -/
def opcodeOf (w : Word) : Nat := fieldOf w 0 8

/-- The rd field, bits [11:8]. -/
def rdOf (w : Word) : Reg := regField w 8

/-- The ra field, bits [15:12]. -/
def raOf (w : Word) : Reg := regField w 12

/-- The rb field, bits [19:16]. -/
def rbOf (w : Word) : Reg := regField w 16

/-- The rc field, bits [23:20]. -/
def rcOf (w : Word) : Reg := regField w 20

/-- imm16, bits [31:16], zero-extended (30_encoding.md R94). -/
def immOf (w : Word) : Nat := fieldOf w 16 16

/-- The mode of the L bit, cmd[24] (30_encoding.md R94). -/
def modeOf (w : Word) : Mode := if fieldOf w 24 1 = 1 then .legacy else .pad

/-- The mask column of 30_encoding.md R95. -/
def maskOf : Instr → Word
  | .nop => 0xFFFFFFFF
  | .ldi _ _ => 0x0000F0FF
  | .mov _ _ => 0xFFFF00FF
  | .add _ _ _ => 0xFFF000FF
  | .addi _ _ _ => 0x000000FF
  | .sub _ _ _ => 0xFFF000FF
  | .subi _ _ _ => 0x000000FF
  | .cmp _ _ _ => 0xFFF000FF
  | .bitlen _ _ => 0xFFFF00FF
  | .mul _ _ _ => 0xFFF000FF
  | .mod _ _ _ => 0xFF0F00FF
  | .modmul _ _ _ _ => 0xFF0000FF
  | .gcd _ _ _ => 0xFFF000FF
  | .modinv _ _ _ => 0xFF0F00FF
  | .modpow _ _ _ _ => 0xFF0000FF
  | .randb _ _ => 0x0000F0FF
  | .randc _ _ => 0x0000F0FF
  | .trialdiv _ _ => 0xFFFF00FF
  | .mrround _ _ _ => 0xFFF000FF
  | .primetest _ _ => 0xFFFF00FF
  | .ldb _ => 0xFFFFF0FF
  | .stb _ _ => 0xFEFF0FFF
  | .benc _ _ _ => 0xFE0F0FFF
  | .bdec _ _ _ => 0xFE0F0FFF

/-- The match column of 30_encoding.md R95. -/
def patternOf : Instr → Word
  | .nop => 0x00000000
  | .ldi _ _ => 0x00000001
  | .mov _ _ => 0x00000002
  | .add _ _ _ => 0x00000003
  | .addi _ _ _ => 0x00000004
  | .sub _ _ _ => 0x00000005
  | .subi _ _ _ => 0x00000006
  | .cmp _ _ _ => 0x00000007
  | .bitlen _ _ => 0x00000008
  | .mul _ _ _ => 0x00000010
  | .mod _ _ _ => 0x00000011
  | .modmul _ _ _ _ => 0x00000012
  | .gcd _ _ _ => 0x00000020
  | .modinv _ _ _ => 0x00000021
  | .modpow _ _ _ _ => 0x00000022
  | .randb _ _ => 0x00000028
  | .randc _ _ => 0x00000029
  | .trialdiv _ _ => 0x00000030
  | .mrround _ _ _ => 0x00000031
  | .primetest _ _ => 0x00000032
  | .ldb _ => 0x00000040
  | .stb _ _ => 0x00000041
  | .benc _ _ _ => 0x00000048
  | .bdec _ _ _ => 0x00000049

/-- One row of 30_encoding.md R95: the word is the row's command when (w AND mask) = match, else a field the
command does not use is not 0 (R96(b)). -/
def matchRow (w : Word) (i : Instr) : Except Reject Instr :=
  if w &&& maskOf i = patternOf i then .ok i else .error (.unusedFieldNonzero (opcodeOf w))

/-- The opcode map of 30_encoding.md R95, total on every word (R97). -/
def decode (w : Word) : Except Reject Instr :=
  match opcodeOf w with
  | 0x00 => matchRow w .nop
  | 0x01 => matchRow w (.ldi (rdOf w) (immOf w))
  | 0x02 => matchRow w (.mov (rdOf w) (raOf w))
  | 0x03 => matchRow w (.add (rdOf w) (raOf w) (rbOf w))
  | 0x04 => matchRow w (.addi (rdOf w) (raOf w) (immOf w))
  | 0x05 => matchRow w (.sub (rdOf w) (raOf w) (rbOf w))
  | 0x06 => matchRow w (.subi (rdOf w) (raOf w) (immOf w))
  | 0x07 => matchRow w (.cmp (rdOf w) (raOf w) (rbOf w))
  | 0x08 => matchRow w (.bitlen (rdOf w) (raOf w))
  | 0x10 => matchRow w (.mul (rdOf w) (raOf w) (rbOf w))
  | 0x11 => matchRow w (.mod (rdOf w) (raOf w) (rcOf w))
  | 0x12 => matchRow w (.modmul (rdOf w) (raOf w) (rbOf w) (rcOf w))
  | 0x20 => matchRow w (.gcd (rdOf w) (raOf w) (rbOf w))
  | 0x21 => matchRow w (.modinv (rdOf w) (raOf w) (rcOf w))
  | 0x22 => matchRow w (.modpow (rdOf w) (raOf w) (rbOf w) (rcOf w))
  | 0x28 => matchRow w (.randb (rdOf w) (immOf w))
  | 0x29 => matchRow w (.randc (rdOf w) (immOf w))
  | 0x30 => matchRow w (.trialdiv (rdOf w) (raOf w))
  | 0x31 => matchRow w (.mrround (rdOf w) (raOf w) (rbOf w))
  | 0x32 => matchRow w (.primetest (rdOf w) (raOf w))
  | 0x40 => matchRow w (.ldb (rdOf w))
  | 0x41 => matchRow w (.stb (raOf w) (modeOf w))
  | 0x48 => matchRow w (.benc (raOf w) (rcOf w) (modeOf w))
  | 0x49 => matchRow w (.bdec (raOf w) (rcOf w) (modeOf w))
  | op => .error (.reservedOpcode op)

/-- A 32-bit value from its four bytes, lowest address first (20_memory.md R61). -/
def wordOfBytes (b0 b1 b2 b3 : Byte) : Word := b3 ++ b2 ++ b1 ++ b0

/-- The four bytes of a 32-bit value, lowest address first (20_memory.md R61). -/
def bytesOfWord (w : Word) : List Byte :=
  [w.extractLsb' 0 8, w.extractLsb' 8 8, w.extractLsb' 16 8, w.extractLsb' 24 8]

/-- A command and the bytes after it: every command is exactly four bytes (30_encoding.md R90, R98). -/
def decodeBytes : List Byte → Except Reject (Instr × List Byte)
  | b0 :: b1 :: b2 :: b3 :: rest =>
    match decode (wordOfBytes b0 b1 b2 b3) with
    | .ok i => .ok (i, rest)
    | .error r => .error r
  | bs => .error (.length bs.length)

/-- What the decoder reads from a table row's word: the low `nbits` bits of `w`, every higher bit 0, laid out
as the bus carries them. -/
def decodeTableWord (nbits w : Nat) : Option Instr :=
  match decodeBytes (bytesOfWord (BitVec.ofNat 32 (w % 2 ^ nbits))) with
  | .ok (i, _) => some i
  | .error _ => none

/-- A format R word: each field at its bits (30_encoding.md R91, R101). -/
def formatR (op rd ra rb rc l : Nat) : Word :=
  BitVec.ofNat 32 (op + rd * 2 ^ 8 + ra * 2 ^ 12 + rb * 2 ^ 16 + rc * 2 ^ 20 + l * 2 ^ 24)

/-- A format I word (30_encoding.md R92, R101). -/
def formatI (op rd ra imm : Nat) : Word :=
  BitVec.ofNat 32 (op + rd * 2 ^ 8 + ra * 2 ^ 12 + imm * 2 ^ 16)

/-- The L bit of a mode (30_encoding.md R94). -/
def Mode.bit : Mode → Nat
  | .pad => 0
  | .legacy => 1

/-- The command word of a well-formed instruction (30_encoding.md R95, R101). -/
def encode : Instr → Word
  | .nop => formatR 0x00 0 0 0 0 0
  | .ldi rd imm => formatI 0x01 rd 0 imm
  | .mov rd ra => formatR 0x02 rd ra 0 0 0
  | .add rd ra rb => formatR 0x03 rd ra rb 0 0
  | .addi rd ra imm => formatI 0x04 rd ra imm
  | .sub rd ra rb => formatR 0x05 rd ra rb 0 0
  | .subi rd ra imm => formatI 0x06 rd ra imm
  | .cmp rd ra rb => formatR 0x07 rd ra rb 0 0
  | .bitlen rd ra => formatR 0x08 rd ra 0 0 0
  | .mul rd ra rb => formatR 0x10 rd ra rb 0 0
  | .mod rd ra rc => formatR 0x11 rd ra 0 rc 0
  | .modmul rd ra rb rc => formatR 0x12 rd ra rb rc 0
  | .gcd rd ra rb => formatR 0x20 rd ra rb 0 0
  | .modinv rd ra rc => formatR 0x21 rd ra 0 rc 0
  | .modpow rd ra rb rc => formatR 0x22 rd ra rb rc 0
  | .randb rd imm => formatI 0x28 rd 0 imm
  | .randc rd imm => formatI 0x29 rd 0 imm
  | .trialdiv rd ra => formatR 0x30 rd ra 0 0 0
  | .mrround rd ra rb => formatR 0x31 rd ra rb 0 0
  | .primetest rd ra => formatR 0x32 rd ra 0 0 0
  | .ldb rd => formatR 0x40 rd 0 0 0 0
  | .stb ra mode => formatR 0x41 0 ra 0 0 mode.bit
  | .benc ra rc mode => formatR 0x48 0 ra 0 rc mode.bit
  | .bdec ra rc mode => formatR 0x49 0 ra 0 rc mode.bit

end Sys2Proof
end

