-- ==== Sys2Proof/Config.lean ====
section
/-! DEFINITION. What one RSAE fixes (the parameters of 00_scope.md R7) and the free values the spec leaves open. -/

namespace Sys2Proof

/-- The parameters of 00_scope.md R7. The model carries them unchanged in `State.params`, so that a statement
over all states holds for every value of them (DESIGN CHOICE, log 1). -/
structure Params where
  /-- NBITS, written W in the rules: the width in bits of N0..N15. -/
  nbits : Nat
  /-- BUFSZ: the size in bytes of IN_BUF and of OUT_BUF. -/
  bufsz : Nat
  /-- BASE: the bus address of offset 0x0000. -/
  base : Nat
  /-- K_RESET: the reset value of MRK.K. -/
  kReset : BitVec 8
deriving DecidableEq, Repr

/-- The constraints of 00_scope.md R7. -/
abbrev Params.wf (p : Params) : Prop :=
  (p.nbits % 32 = 0 ∧ 64 ≤ p.nbits ∧ p.nbits ≤ 8192) ∧
  (p.bufsz % 4 = 0 ∧ 16 ≤ p.bufsz ∧ p.bufsz ≤ 16384) ∧
  p.base % 0x10000 = 0

/-- The defaults of 00_scope.md R7. BASE is OPEN in the spec; 0 is this model's DESIGN CHOICE for
`State.reset` (log 1), and no statement rests on it. -/
def Params.standard : Params := { nbits := 4096, bufsz := 4096, base := 0, kReset := 20 }

/-- ENTROPY (00_scope.md R7, 10_state.md R43): what the random source answers to the draw of this index, before
it is brought into the asked range. Free: no body (log 3). -/
opaque Config.entropy : Nat → Nat

/-- Whether an abort point with a pending request ends the command (60_exceptions.md R218). Free (log 9). -/
opaque Config.abortTaken : Nat → Bool

/-- How many inputs arrive before the accepted command completes (70_reset_and_hazards.md R256, R257). Free
(log 7). -/
opaque Config.latency : Nat → Nat

/-- What a host read of a result location returns while busy (20_memory.md R67). Free (log 10). -/
opaque Config.busyRead : Nat → Word

/-- The byte at an index of IN_BUF that nothing has written since the reset of this epoch
(70_reset_and_hazards.md R240). Free (log 4). -/
opaque Config.inBufByte : Nat → Nat → Byte

/-- The byte at an index of OUT_BUF that nothing has written since the reset of this epoch
(70_reset_and_hazards.md R240). Free (log 4). -/
opaque Config.outBufByte : Nat → Nat → Byte

end Sys2Proof
end

