-- ==== Sys2Proof/Machine/Numeric.lean ====
section
/-! DEFINITION. The exact integer helpers of the rules: bitlen, the big-endian conversions, modular
exponentiation and inverse, and the primality helpers (00_scope.md R11, 43_primality.md R160, R161). -/

namespace Sys2Proof.Machine

/-- bitlen(v): the least k with v < 2^k (00_scope.md R11). -/
def bitlen (v : Nat) : Nat := if v = 0 then 0 else Nat.log2 v + 1

/-- Square-and-multiply over the exponent's bits, least significant first (42_numtheory.md R143). -/
def powModLoop (m : Nat) : Nat → Nat → Nat → Nat → Nat
  | 0, _, _, acc => acc
  | bits + 1, sq, e, acc =>
    powModLoop m bits (sq * sq % m) (e / 2) (if e % 2 = 1 then acc * sq % m else acc)

/-- (a ^ e) mod m, for m ≥ 1 (42_numtheory.md R142); the method of R143 is invisible in the value. -/
def powMod (a e m : Nat) : Nat := powModLoop m (bitlen e) (a % m) e (1 % m)

/-- Extended Euclid: the remainders r0, r1 and, modulo m, their coefficients t0, t1 of a. -/
def inverseLoop (m : Nat) : Nat → Nat → Nat → Nat → Nat → Nat
  | 0, _, t0, _, _ => t0
  | fuel + 1, r0, t0, r1, t1 =>
    if r1 = 0 then t0
    else inverseLoop m fuel r1 t1 (r0 % r1) ((t0 + (m - r0 / r1 * t1 % m)) % m)

/-- The v in [0, m) with (a * v) mod m = 1 mod m, when gcd(a, m) = 1 and m ≥ 1 (42_numtheory.md R141). -/
def modInverse (a m : Nat) : Nat := inverseLoop m (m + 1) m 0 (a % m) 1

/-- be_to_int(s): the first byte is the most significant (00_scope.md R11). -/
def beToInt (s : List Byte) : Nat := s.foldl (fun acc b => acc * 256 + b.toNat) 0

/-- int_to_be(v, L): the L bytes of v, most significant first (00_scope.md R11). -/
def intToBe (v : Nat) : Nat → List Byte
  | 0 => []
  | len + 1 => intToBe (v / 256) len ++ [BitVec.ofNat 8 v]

/-- strip0(s): without its leading 0x00 bytes (00_scope.md R11). -/
def strip0 (s : List Byte) : List Byte := s.dropWhile (fun b => b = 0)

/-- encode(v, L, mode) of 44_codec.md R181, `none` where it is not defined (v ≥ 2^(8L)). -/
def encodeBlock (v len : Nat) (mode : Mode) : Option (List Byte) :=
  if v < 2 ^ (8 * len) then
    match mode with
    | .pad => some (intToBe v len)
    | .legacy => some (strip0 (intToBe v len))
  else none

/-- SMALL_PRIMES, the first 100 primes in increasing order (43_primality.md R160). -/
def smallPrimes : List Nat :=
  [2, 3, 5, 7, 11, 13, 17, 19, 23, 29, 31, 37, 41, 43, 47, 53, 59, 61, 67, 71] ++
  [73, 79, 83, 89, 97, 101, 103, 107, 109, 113, 127, 131, 137, 139, 149, 151, 157, 163, 167, 173] ++
  [179, 181, 191, 193, 197, 199, 211, 223, 227, 229, 233, 239, 241, 251, 257, 263, 269, 271, 277, 281] ++
  [283, 293, 307, 311, 313, 317, 331, 337, 347, 349, 353, 359, 367, 373, 379, 383, 389, 397, 401, 409] ++
  [419, 421, 431, 433, 439, 443, 449, 457, 461, 463, 467, 479, 487, 491, 499, 503, 509, 521, 523, 541]

/-- smallest_small_divisor(n), `none` for NONE (43_primality.md R161). -/
def smallestSmallDivisor (n : Nat) : Option Nat := smallPrimes.find? (fun p => n % p = 0)

/-- Halve d while it is even, counting the halvings in r. -/
def splitLoop : Nat → Nat → Nat → Nat × Nat
  | 0, r, d => (r, d)
  | fuel + 1, r, d => if d % 2 = 0 then splitLoop fuel (r + 1) (d / 2) else (r, d)

/-- split(n): the (r, d) with n - 1 = 2^r * d and d odd, for odd n ≥ 3 (43_primality.md R161). -/
def split (n : Nat) : Nat × Nat := splitLoop (bitlen (n - 1)) 0 (n - 1)

/-- The squarings of one round: does n - 1 appear within this many squarings (43_primality.md R161)? -/
def sprpLoop (n : Nat) : Nat → Nat → Nat
  | 0, _ => 0
  | count + 1, x => if x * x % n = n - 1 then 1 else sprpLoop n count (x * x % n)

/-- sprp(n, a), one Miller-Rabin round (43_primality.md R161): 1 when the round passes. -/
def sprp (n a : Nat) : Nat :=
  let (r, d) := split n
  let x := powMod a d n
  if x = 1 ∨ x = n - 1 then 1 else sprpLoop n (r - 1) x

/-- L_pt = floor(bitlen(n) / 8) (44_codec.md R180). -/
def plainLen (n : Nat) : Nat := bitlen n / 8

/-- L_ct = L_pt + 1 (44_codec.md R180). -/
def cipherLen (n : Nat) : Nat := plainLen n + 1

end Sys2Proof.Machine
end

