-- ==== Sys2Proof/Machine/State.lean ====
section
/-! DEFINITION. The state of RSAE (10_state.md R45) as plain data, the reasons a step can stop, and the state
after reset (70_reset_and_hazards.md R240). -/

namespace Sys2Proof.Machine

/-- The error codes of 60_exceptions.md R211 other than 0x00. R211: "No other value appears". -/
inductive ErrorCode where
  | illegal
  | unwritten
  | zeroModulus
  | noInverse
  | underflow
  | overflow
  | invalidInput
  | bufRange
  | encodeOverflow
  | aborted
deriving DecidableEq, Repr

/-- The sequencer's phase (10_state.md R42), which STATUS.BUSY mirrors. -/
inductive Phase where
  | idle
  | busy
deriving DecidableEq, Repr

/-- The sequencer's progress of BENC and BDEC (10_state.md R42): input bytes consumed, output bytes written
(log 16). -/
structure Progress where
  consumed : Nat
  written : Nat
deriving DecidableEq, Repr

/-- The sizes of a host access: 1, 2 or 4 bytes (20_memory.md R60). -/
inductive AccessSize where
  | byte
  | half
  | word
deriving DecidableEq, Repr

/-- The bus response (20_memory.md R60, R63). -/
inductive BusStatus where
  | okay
  | error
deriving DecidableEq, Repr

/-- What the bus slave port answers to an access: the response and the read data. -/
structure Response where
  status : BusStatus
  data : Word
deriving DecidableEq, Repr

/-- What the outside world can do to RSAE (20_memory.md R60, 70_reset_and_hazards.md R259). -/
inductive Input where
  /-- `MemRead(addr, n)`; a bus address is a natural number (log 15). -/
  | read (addr : Nat) (size : AccessSize)
  /-- `MemWrite(addr, n, v)`. -/
  | write (addr : Nat) (size : AccessSize) (value : Word)
  /-- The `rst` input takes this level (R242). -/
  | rst (level : Bool)
  /-- The host makes no access until the command in flight has completed (R250, R251, R259); log 8. -/
  | pause
deriving DecidableEq, Repr

/-- A byte memory: the bytes written since reset, at strictly rising addresses. An address that is not listed has
not been written since reset (log 4). -/
abbrev Memory := List Host.Cell

/-- Everything the spec gives the machine (10_state.md R45), the parameters (00_scope.md R7) and, at the end, the
model's own fields. STATUS.BUSY, `cur` and IRQ are views of `phase`, `cmd`, and `ie` with `done`. -/
structure State where
  /-- The parameters, which no step changes (log 1); NBITS and BUFSZ read them (10_state.md R26, R27). -/
  params : Params
  /-- N0..N15 (10_state.md R20). -/
  regs : Vector Nat 16
  /-- VALID[15:0] (10_state.md R21). -/
  valid : BitVec 16
  /-- CTRL.IE (10_state.md R28). -/
  ie : Bool
  /-- STATUS.DONE (10_state.md R29). -/
  done : Bool
  /-- STATUS.ERR (10_state.md R29). -/
  err : Bool
  /-- STATUS.OVR (10_state.md R29). -/
  ovr : Bool
  /-- STATUS.ERRCODE, `none` for 0x00 (10_state.md R29, 60_exceptions.md R211). -/
  errCode : Option ErrorCode
  /-- CMD (10_state.md R30), and `cur`, which it mirrors (R42). -/
  cmd : Word
  /-- MRK.K (10_state.md R31). -/
  mrk : BitVec 8
  /-- ARG0 (10_state.md R32). -/
  arg0 : Word
  /-- ARG1 (10_state.md R33). -/
  arg1 : Word
  /-- INLEN (10_state.md R34). -/
  inLen : Word
  /-- OUTLEN (10_state.md R35). -/
  outLen : Word
  /-- XLEN (10_state.md R36). -/
  xLen : Word
  /-- IN_BUF (10_state.md R39). -/
  inBuf : Memory
  /-- OUT_BUF (10_state.md R39). -/
  outBuf : Memory
  /-- The sequencer's phase, mirrored by STATUS.BUSY (10_state.md R42). -/
  phase : Phase
  /-- abort_req (10_state.md R42). -/
  abortReq : Bool
  /-- progress (10_state.md R42). -/
  progress : Progress
  /-- The level of the `rst` input (20_memory.md R60, 70_reset_and_hazards.md R242). -/
  rst : Bool
  /-- The bus slave port's answer to the latest access (20_memory.md R60); log 14. -/
  response : Option Response
  /-- The model's own: the inputs still to arrive, oldest first (log 8). -/
  inputs : List Input
  /-- The model's own: how many inputs arrive before the running command completes (log 7). -/
  wait : Nat
  /-- The model's own: the index of the next free value (log 2). -/
  draws : Nat
  /-- The model's own: the index of the next abort choice (log 9). -/
  choices : Nat
  /-- The model's own: which reset the unwritten buffer bytes were drawn at (log 5). -/
  epoch : Nat
deriving DecidableEq, Repr

/-- Why the machine stops. -/
inductive Fault where
  /-- Raised by a host access whose address lies outside RSAE's 64 KiB window (20_memory.md R62: RSAE answers
  only its window). SAFE: the model stops where RSAE would not take part at all (log 11). -/
  | outsideWindow
deriving DecidableEq, Repr

/-- Why a step has no move. -/
inductive Refusal where
  /-- Raised by `exec`'s arm of an instruction that has no meaning yet. SAFE: nothing follows from it. -/
  | notModelled (mnemonic : String)
  /-- Raised by a host access while `rst` is asserted: "Such an access has no move in a model"
  (70_reset_and_hazards.md R242). SAFE: nothing follows from it (log 12). -/
  | accessDuringReset
deriving DecidableEq, Repr

/-- Every field at its value after reset (70_reset_and_hazards.md R240) for the given parameters. -/
def State.initial (p : Params) : State where
  params := p
  regs := Vector.replicate 16 0
  valid := 0
  ie := false
  done := false
  err := false
  ovr := false
  errCode := none
  cmd := 0
  mrk := p.kReset
  arg0 := 0
  arg1 := 0
  inLen := 0
  outLen := 0
  xLen := 0
  inBuf := []
  outBuf := []
  phase := .idle
  abortReq := false
  progress := { consumed := 0, written := 0 }
  rst := false
  response := none
  inputs := []
  wait := 0
  draws := 0
  choices := 0
  epoch := 0

/-- The machine right after reset (70_reset_and_hazards.md R240), with the default parameters of 00_scope.md
R7. -/
def State.reset : State := State.initial Params.standard

end Sys2Proof.Machine
end

