-- ==== Sys2Proof/Machine/Ops.lean ====
section
/-! DEFINITION. The named operations over memory, registers and the sequencer: reading and writing, free values,
abort points, acceptance, completion (the one way every command ends, with or without an error) and reset. -/

namespace Sys2Proof.Machine

/-! ### Byte memories (10_state.md R39) -/

/-- The byte written at an address since reset, if any. -/
def Memory.lookup : Memory → Nat → Option Byte
  | [], _ => none
  | (k, v) :: rest, a => if k = a then some v else Memory.lookup rest a

/-- Write one byte, keeping the addresses strictly rising. -/
def Memory.store : Memory → Nat → Byte → Memory
  | [], a, b => [(a, b)]
  | (k, v) :: rest, a, b =>
    if a < k then (a, b) :: (k, v) :: rest
    else if a = k then (a, b) :: rest
    else (k, v) :: Memory.store rest a b

/-- `BufWrite(buffer, off, s)` (00_scope.md R10): the bytes of s from address `a` on. -/
def Memory.storeBytes : Memory → Nat → List Byte → Memory
  | m, _, [] => m
  | m, a, b :: bs => Memory.storeBytes (m.store a b) (a + 1) bs

/-- The canonical form: addresses strictly rising. An unlisted address has no written byte, so no entry can equal
what an unlisted address looks up as (log 4). -/
abbrev Memory.wf (m : Memory) : Prop := (m.map Prod.fst).Pairwise (· < ·)

/-- Every listed address lies below `size`. -/
abbrev Memory.within (m : Memory) (size : Nat) : Prop := ∀ c ∈ m, c.1 < size

/-! ### Reading the state -/

/-- W, the width of the wide registers (00_scope.md R7). -/
def State.width (s : State) : Nat := s.params.nbits

/-- BUFSZ (00_scope.md R7). -/
def State.bufsz (s : State) : Nat := s.params.bufsz

/-- `x[i]` (00_scope.md R10). -/
def State.reg (s : State) (r : Reg) : Nat := s.regs[r.val]

/-- `valid(i)` (00_scope.md R10). -/
def State.isValid (s : State) (r : Reg) : Bool := s.valid.getLsbD r.val

/-- STATUS.BUSY, which mirrors the phase (10_state.md R29, R42). -/
def State.isBusy (s : State) : Bool := s.phase = .busy

/-- `cur`, the accepted command word, which CMD mirrors (10_state.md R42). -/
def State.cur (s : State) : Word := s.cmd

/-- IN_BUF[a]: the byte written since reset, else the byte drawn at reset (70_reset_and_hazards.md R240). -/
def State.inByte (s : State) (a : Nat) : Byte := (s.inBuf.lookup a).getD (Config.inBufByte s.epoch a)

/-- OUT_BUF[a], likewise. -/
def State.outByte (s : State) (a : Nat) : Byte := (s.outBuf.lookup a).getD (Config.outBufByte s.epoch a)

/-- `BufRead(IN, off, n)` (00_scope.md R10). -/
def State.readIn (s : State) (off n : Nat) : List Byte := (List.range n).map fun j => s.inByte (off + j)

/-! ### Writing the state -/

/-- `x[i] <- v` (00_scope.md R10): writes Ni and sets VALID[i]. -/
def State.setReg (s : State) (r : Reg) (v : Nat) : State :=
  { s with regs := s.regs.set r.val v, valid := s.valid ||| BitVec.twoPow 16 r.val }

/-- `BufWrite(OUT, off, s)` (00_scope.md R10). -/
def State.writeOut (s : State) (off : Nat) (bs : List Byte) : State :=
  { s with outBuf := s.outBuf.storeBytes off bs }

/-- `BufWrite` on IN_BUF, for host writes only: no command writes IN_BUF (10_state.md R39). -/
def State.writeIn (s : State) (off : Nat) (bs : List Byte) : State :=
  { s with inBuf := s.inBuf.storeBytes off bs }

/-- OUTLEN <- n. -/
def State.setOutLen (s : State) (n : Nat) : State := { s with outLen := BitVec.ofNat 32 n }

/-- XLEN <- n. -/
def State.setXLen (s : State) (n : Nat) : State := { s with xLen := BitVec.ofNat 32 n }

/-- progress <- (i, o) (10_state.md R42). -/
def State.setProgress (s : State) (i o : Nat) : State := { s with progress := { consumed := i, written := o } }

/-! ### Free values (log 2) -/

/-- Take the next free value: advance the index. -/
def State.tick (s : State) : State := { s with draws := s.draws + 1 }

/-- The value of `draw(lo, hi)` at this point: any integer in [lo, hi] (00_scope.md R10, 10_state.md R43). -/
def State.drawn (s : State) (lo hi : Nat) : Nat := lo + Config.entropy s.draws % (hi - lo + 1)

/-! ### Abort points (60_exceptions.md R218) -/

/-- Does the abort point reached now end the command? Only with abort_req = 1, and then by a free choice. -/
def State.abortHere (s : State) : Bool := s.abortReq && Config.abortTaken s.choices

/-- Move the index of abort choices. -/
def State.setChoices (s : State) (k : Nat) : State := { s with choices := k }

/-- The state after an abort point: with abort_req = 1 the point used up one free choice. Abort choices have an index
of their own, so that a request that is not taken leaves the random source's answers as they are (log 9). -/
def State.passAbort (s : State) : State := if s.abortReq then s.setChoices (s.choices + 1) else s

/-! ### The command lifecycle (60_exceptions.md R210) -/

/-- Latch a command word: CMD <- v, BUSY <- 1, DONE, ERR, ERRCODE and abort_req <- 0, OVR and all else kept. -/
def State.latch (s : State) (v : Word) : State :=
  { s with cmd := v, phase := .busy, abortReq := false, done := false, err := false, errCode := none }

/-- Acceptance of a command word (60_exceptions.md R210). How many inputs arrive before its completion is free
(70_reset_and_hazards.md R256, R257). -/
def State.accept (s : State) (v : Word) : State :=
  { s.latch v with wait := Config.latency s.draws, draws := s.draws + 1 }

/-- Completion (60_exceptions.md R210), the one way a command ends: BUSY <- 0, DONE <- 1, abort_req <- 0, and ERR
with ERRCODE say whether it ended with an error. It is also RSAE's whole exception entry (R215): no handler, no
saved pc, no change of mode. -/
def State.complete (s : State) (e : Option ErrorCode) : State :=
  { s with phase := .idle, done := true, abortReq := false, err := e.isSome, errCode := e }

/-- `raise Error(CODE)` (00_scope.md R10, 60_exceptions.md R212, R215). -/
def State.raise (s : State) (c : ErrorCode) : State := s.complete (some c)

/-- The end of a command whose checks have passed: the implicit abort point, then the final write and normal
completion (60_exceptions.md R218). -/
def State.commit (s : State) (write : State → State) : State :=
  if s.abortHere then s.passAbort.raise .aborted else (write s.passAbort).complete none

/-- The end of a command that writes v to Nd. -/
def State.writeBack (s : State) (rd : Reg) (v : Nat) : State := s.commit fun t => t.setReg rd v

/-- The end of a command whose result may not fit W bits (41_arith.md R110): OVERFLOW, else the write. -/
def State.writeBounded (s : State) (rd : Reg) (v : Nat) : State :=
  if v ≥ 2 ^ s.width then s.raise .overflow else s.writeBack rd v

/-- The end of a command whose result is a difference (41_arith.md R110): UNDERFLOW, else the write. -/
def State.writeDifference (s : State) (rd : Reg) (a b : Nat) : State :=
  if a < b then s.raise .underflow else s.writeBack rd (a - b)

/-! ### Reset (70_reset_and_hazards.md R240, R241) -/

/-- Every spec field takes its reset value; the unwritten buffer bytes are drawn anew, and the model's own queue,
free value indices and the port fields stay (log 5). -/
def State.resetAll (s : State) : State :=
  { State.initial s.params with
    rst := s.rst, response := s.response, inputs := s.inputs, draws := s.draws, choices := s.choices,
    epoch := s.epoch + 1 }

/-- The engine holds this accepted command and takes the next step: what a CMD write and its waiting lead to. -/
def State.placeCommand (s : State) (v : Word) : State := { s.latch v with rst := false, wait := 0 }

end Sys2Proof.Machine
end

