-- ==== Sys2Proof/Machine/Flags.lean ====
section
/-! DEFINITION. RSAE has no condition codes (10_state.md R40); its only flags are those of STATUS, CTRL and
REGVALID. These are their register views and their write-1 actions (10_state.md R28, R29, R37). -/

namespace Sys2Proof.Machine

/-- The code numbers of 60_exceptions.md R211. -/
def ErrorCode.toByte : ErrorCode → Byte
  | .illegal => 0x01
  | .unwritten => 0x02
  | .zeroModulus => 0x03
  | .noInverse => 0x04
  | .underflow => 0x05
  | .overflow => 0x06
  | .invalidInput => 0x07
  | .bufRange => 0x08
  | .encodeOverflow => 0x09
  | .aborted => 0x0A

/-- STATUS.ERRCODE: 0x00 on success, else the error's code. -/
def State.errByte (s : State) : Byte :=
  match s.errCode with
  | none => 0x00
  | some c => c.toByte

/-- CTRL as read: IE in bit 0, every other bit 0 (10_state.md R28). -/
def State.ctrlWord (s : State) : Word := (BitVec.ofBool s.ie).setWidth 32

/-- STATUS as read (10_state.md R29). -/
def State.statusWord (s : State) : Word :=
  0#16 ++ s.errByte ++ 0#4 ++
    BitVec.ofBool s.ovr ++ BitVec.ofBool s.err ++ BitVec.ofBool s.done ++ BitVec.ofBool s.isBusy

/-- REGVALID as read (10_state.md R37). -/
def State.regValidWord (s : State) : Word := s.valid.setWidth 32

/-- MRK as read (10_state.md R31). -/
def State.mrkWord (s : State) : Word := s.mrk.setWidth 32

/-- IRQ = CTRL.IE AND STATUS.DONE, at every time (60_exceptions.md R220). -/
def State.irq (s : State) : Bool := s.ie && s.done

/-- A write to CTRL (10_state.md R28): SRST resets and overrides the other bits (70_reset_and_hazards.md R241);
else IE takes bit 0, and ABORT requests an abort while busy (60_exceptions.md R218). -/
def State.writeCtrl (s : State) (v : Word) : State :=
  if v.getLsbD 2 then s.resetAll
  else { s with ie := v.getLsbD 0, abortReq := s.abortReq || (s.isBusy && v.getLsbD 1) }

/-- A write to STATUS (10_state.md R29): 1 clears DONE, ERR or OVR; BUSY and ERRCODE ignore it. -/
def State.writeStatus (s : State) (v : Word) : State :=
  { s with
    done := s.done && !v.getLsbD 1, err := s.err && !v.getLsbD 2, ovr := s.ovr && !v.getLsbD 3 }

/-- A write to REGVALID (10_state.md R37): 1 clears VALID[i]; the contents of Ni stay (R21). -/
def State.writeRegValid (s : State) (v : Word) : State := { s with valid := s.valid &&& ~~~ v.setWidth 16 }

/-- A write to a locked location while busy: the write is lost and OVR <- 1 (70_reset_and_hazards.md R250). -/
def State.setOvr (s : State) : State := { s with ovr := true }

end Sys2Proof.Machine
end

