-- ==== Sys2Proof/Machine/Bus.lean ====
section
/-! DEFINITION. The host interface: the address window, host reads and writes, the `rst` input, and which agent
moves next (20_memory.md, 70_reset_and_hazards.md). -/

namespace Sys2Proof.Machine

/-- The number of bytes of an access (20_memory.md R60). -/
def AccessSize.bytes : AccessSize → Nat
  | .byte => 1
  | .half => 2
  | .word => 4

/-- The offset of a bus address in RSAE's 64 KiB window (20_memory.md R62). -/
def State.offset (s : State) (addr : Nat) : Option Nat :=
  if s.params.base ≤ addr ∧ addr < s.params.base + 0x10000 then some (addr - s.params.base) else none

/-- The widths and alignment each region takes (20_memory.md R63). -/
def accessOk (off : Nat) (z : AccessSize) : Bool :=
  if off < 0x8000 then z = .word ∧ off % 4 = 0 else off % z.bytes = 0

/-- The low n bytes of a bus value, lowest address first (20_memory.md R61). -/
def valueBytes (v : Word) (n : Nat) : List Byte := (List.range n).map fun j => v.extractLsb' (8 * j) 8

/-- A bus value from bytes, lowest address first (20_memory.md R61). -/
def bytesValue (bs : List Byte) : Word := BitVec.ofNat 32 (bs.foldr (fun b acc => b.toNat + 256 * acc) 0)

/-- The part of a bus value that an access of this size carries (log 17). -/
def AccessSize.truncate (z : AccessSize) (v : Word) : Word := BitVec.ofNat 32 (v.toNat % 2 ^ (8 * z.bytes))

/-- The register of a window offset in 0x1000..0x4FFF (20_memory.md R64). -/
def windowReg (off : Nat) : Reg := Fin.ofNat 16 ((off - 0x1000) / 0x400)

/-- The word index j of a window offset (20_memory.md R64). -/
def windowWord (off : Nat) : Nat := (off - 0x1000) % 0x400 / 4

/-- Bits [32j+31 : 32j] of n (20_memory.md R64). -/
def wordAt (n j : Nat) : Word := BitVec.ofNat 32 (n / 2 ^ (32 * j))

/-- n with bits [32j+31 : 32j] set to v (20_memory.md R65). -/
def setWordAt (n j : Nat) (v : Word) : Nat :=
  n / 2 ^ (32 * j + 32) * 2 ^ (32 * j + 32) + v.toNat * 2 ^ (32 * j) + n % 2 ^ (32 * j)

/-! ### Reads (20_memory.md R64, R66, R67) -/

/-- A word of the control block (10_state.md R24); every other offset is reserved and reads 0 (R38). -/
def State.readControl (s : State) (off : Nat) : Word :=
  match off with
  | 0x0000 => 0x52534145
  | 0x0004 => BitVec.ofNat 32 s.params.nbits
  | 0x0008 => BitVec.ofNat 32 s.params.bufsz
  | 0x0010 => s.ctrlWord
  | 0x0014 => s.statusWord
  | 0x0018 => s.cmd
  | 0x001C => s.mrkWord
  | 0x0020 => s.arg0
  | 0x0024 => s.arg1
  | 0x0028 => s.inLen
  | 0x002C => s.outLen
  | 0x0030 => s.xLen
  | 0x0034 => s.regValidWord
  | _ => 0

/-- A word of a register window: words j ≥ W/32 read 0 (20_memory.md R64). -/
def State.readWindow (s : State) (off : Nat) : Word :=
  if windowWord off < s.width / 32 then wordAt (s.reg (windowReg off)) (windowWord off) else 0

/-- Bytes of a buffer window, from a byte reader: 0 from BUFSZ on (20_memory.md R66). -/
def State.readBuffer (s : State) (byteAt : Nat → Byte) (off : Nat) (z : AccessSize) : Word :=
  bytesValue ((List.range z.bytes).map fun j => if off + j < s.bufsz then byteAt (off + j) else 0)

/-- The exact data of an aligned read, while it is not a draw. -/
def State.readOffset (s : State) (off : Nat) (z : AccessSize) : Word :=
  if off < 0x1000 then s.readControl off
  else if off < 0x5000 then s.readWindow off
  else if off < 0x8000 then 0
  else if off < 0xC000 then s.readBuffer s.inByte (off - 0x8000) z
  else s.readBuffer s.outByte (off - 0xC000) z

/-- A register window word or a buffer byte below BUFSZ (20_memory.md R66, R68; log 10). -/
def State.isData (s : State) (off : Nat) : Bool :=
  (0x1000 ≤ off ∧ off < 0x5000) ∨
  (0x8000 ≤ off ∧ off < 0xC000 ∧ off - 0x8000 < s.bufsz) ∨
  (0xC000 ≤ off ∧ off - 0xC000 < s.bufsz)

/-- The locations whose reads return any value while busy: register windows, buffer bytes, OUTLEN, XLEN and
REGVALID (20_memory.md R67). -/
def State.isResult (s : State) (off : Nat) : Bool :=
  s.isData off || off = 0x002C || off = 0x0030 || off = 0x0034

/-- The answer to an access. -/
def State.respond (s : State) (status : BusStatus) (data : Word) : State :=
  { s with response := some { status := status, data := data } }

/-- A read at an offset of the window: ERROR with data 0 for a width or alignment RSAE does not take (R63, R214),
a draw for a result location while busy (R67), else the exact value. No read has another effect (R69). -/
def State.hostRead (s : State) (off : Nat) (z : AccessSize) : State :=
  if accessOk off z = false then s.respond .error 0
  else if s.isBusy && s.isResult off then s.tick.respond .okay (z.truncate (Config.busyRead s.draws))
  else s.respond .okay (s.readOffset off z)

/-! ### Writes (10_state.md R28 to R37, 20_memory.md R65, R66, R68) -/

/-- A write to a word of the control block (10_state.md R24). Read-only registers and reserved offsets ignore it
(R25 to R27, R35, R36, R38). -/
def State.writeControl (s : State) (off : Nat) (v : Word) : State :=
  match off with
  | 0x0010 => s.writeCtrl v
  | 0x0014 => s.writeStatus v
  | 0x0018 => s.accept v
  | 0x001C => { s with mrk := v.setWidth 8 }
  | 0x0020 => { s with arg0 := v }
  | 0x0024 => { s with arg1 := v }
  | 0x0028 => { s with inLen := v }
  | 0x0034 => s.writeRegValid v
  | _ => s

/-- A write to a register window word: it sets its 32 bits and VALID[i]; words j ≥ W/32 ignore it (20_memory.md
R64, R65). -/
def State.writeWindow (s : State) (off : Nat) (v : Word) : State :=
  if windowWord off < s.width / 32 then
    s.setReg (windowReg off) (setWordAt (s.reg (windowReg off)) (windowWord off) v)
  else s

/-- An aligned write that is not locked. -/
def State.writeOffset (s : State) (off : Nat) (z : AccessSize) (v : Word) : State :=
  if off < 0x1000 then s.writeControl off v
  else if off < 0x5000 then s.writeWindow off v
  else if off < 0x8000 then s
  else if off < 0xC000 then
    if off - 0x8000 < s.bufsz then s.writeIn (off - 0x8000) (valueBytes v z.bytes) else s
  else
    if off - 0xC000 < s.bufsz then s.writeOut (off - 0xC000) (valueBytes v z.bytes) else s

/-- The locations that are locked while busy (20_memory.md R68). -/
def State.isLocked (s : State) (off : Nat) : Bool :=
  s.isData off || off = 0x0018 || off = 0x001C || off = 0x0020 || off = 0x0024 || off = 0x0028 || off = 0x0034

/-- A write at an offset of the window: ERROR and no effect for a width or alignment RSAE does not take (R63,
R214), OVR for a locked location while busy (R68), else its effect. -/
def State.hostWrite (s : State) (off : Nat) (z : AccessSize) (v : Word) : State :=
  if accessOk off z = false then s.respond .error 0
  else if s.isBusy && s.isLocked off then s.setOvr.respond .okay 0
  else (s.writeOffset off z v).respond .okay 0

/-! ### Inputs, and which agent moves next -/

/-- A host access to the window: none has a move while `rst` is asserted (70_reset_and_hazards.md R242), and an
address outside the window is not RSAE's (20_memory.md R62). -/
def State.access (s : State) (addr : Nat) (k : Nat → State) : Host.Outcome State Fault Refusal :=
  if s.rst then .refused .accessDuringReset
  else
    match s.offset addr with
    | none => .fault .outsideWindow
    | some off => .next (k off)

/-- The `rst` input takes a level: asserting it resets RSAE (70_reset_and_hazards.md R240, R242), and releasing
it leaves the state of R240. -/
def State.setRst (s : State) (level : Bool) : State :=
  if level then { s.resetAll with rst := true } else { s with rst := false }

/-- One input arrives. -/
def State.serve (s : State) (i : Input) : Host.Outcome State Fault Refusal :=
  match i with
  | .read addr z => s.access addr fun off => s.hostRead off z
  | .write addr z v => s.access addr fun off => s.hostWrite off z v
  | .rst level => .next (s.setRst level)
  | .pause => .next s

/-- Who moves next. -/
inductive Move where
  /-- The engine runs the accepted command to its completion. -/
  | engine
  /-- This input arrives, and these are left. -/
  | input (i : Input) (left : List Input)
  /-- No next input and an idle engine: nothing moves (70_reset_and_hazards.md R258). -/
  | quiet
deriving DecidableEq, Repr

/-- While idle the engine changes no state (10_state.md R42) and the next input arrives. While busy, `wait` inputs
arrive before the command completes, and it completes at once when none is left or the host pauses for it
(70_reset_and_hazards.md R256, R257; log 7, log 8). -/
def State.nextMove (s : State) : Move :=
  match s.phase, s.inputs with
  | .idle, [] => .quiet
  | .idle, i :: left => .input i left
  | .busy, [] => .engine
  | .busy, .pause :: _ => .engine
  | .busy, i :: left => if s.wait = 0 then .engine else .input i left

/-- The state an input arrives in: it has left the queue, and a running command has one input less to wait for. -/
def State.dequeue (s : State) (left : List Input) : State :=
  { s with inputs := left, wait := if s.isBusy then s.wait - 1 else s.wait }

/-- The instruction the engine runs: what the accepted word decodes to (60_exceptions.md R210). -/
def State.fetch (s : State) : Except Reject Instr := decode s.cur

end Sys2Proof.Machine
end

