-- ==== Sys2Proof/Machine/Operands.lean ====
section
/-! DEFINITION. Operand forms (30_encoding.md R93, R94): source registers with their VALID check, and the modulus
operand with its check. -/

namespace Sys2Proof.Machine

/-- A source register operand: "if not valid(r): raise Error(UNWRITTEN)", else go on with x[r] (10_state.md
R22). Nested in the order ra, rb, rc it gives the priority of 60_exceptions.md R213. -/
def State.withSource (s : State) (r : Reg) (k : Nat → State) : State :=
  if s.isValid r then k (s.reg r) else s.raise .unwritten

/-- Two source registers, the first checked first. -/
def State.withSources (s : State) (r1 r2 : Reg) (k : Nat → Nat → State) : State :=
  s.withSource r1 fun a => s.withSource r2 fun b => k a b

/-- "if m == 0: raise Error(ZERO_MODULUS)", else go on (41_arith.md R110). -/
def State.withModulus (s : State) (m : Nat) (k : State) : State :=
  if m = 0 then s.raise .zeroModulus else k

end Sys2Proof.Machine
end

