-- ==== Sys2Proof/Machine/Arith.lean ====
section
/-! DEFINITION. The arithmetic, multiplier and reduction commands (41_arith.md). -/

namespace Sys2Proof.Machine

/-- NOP (41_arith.md R111). -/
def execNop (s : State) : Host.Outcome State Fault Refusal := .next (s.commit id)

/-- LDI (41_arith.md R112): x[rd] <- imm16. -/
def execLdi (rd : Reg) (imm : Nat) (s : State) : Host.Outcome State Fault Refusal :=
  .next (s.writeBack rd imm)

/-- MOV (41_arith.md R113). -/
def execMov (rd ra : Reg) (s : State) : Host.Outcome State Fault Refusal :=
  .next (s.withSource ra fun a => s.writeBack rd a)

/-- ADD (41_arith.md R114). -/
def execAdd (rd ra rb : Reg) (s : State) : Host.Outcome State Fault Refusal :=
  .next (s.withSources ra rb fun a b => s.writeBounded rd (a + b))

/-- ADDI (41_arith.md R115). -/
def execAddi (rd ra : Reg) (imm : Nat) (s : State) : Host.Outcome State Fault Refusal :=
  .next (s.withSource ra fun a => s.writeBounded rd (a + imm))

/-- SUB (41_arith.md R116). -/
def execSub (rd ra rb : Reg) (s : State) : Host.Outcome State Fault Refusal :=
  .next (s.withSources ra rb fun a b => s.writeDifference rd a b)

/-- SUBI (41_arith.md R117). -/
def execSubi (rd ra : Reg) (imm : Nat) (s : State) : Host.Outcome State Fault Refusal :=
  .next (s.withSource ra fun a => s.writeDifference rd a imm)

/-- CMP (41_arith.md R118): 0 for less, 1 for equal, 2 for greater. -/
def execCmp (rd ra rb : Reg) (s : State) : Host.Outcome State Fault Refusal :=
  .next (s.withSources ra rb fun a b => s.writeBack rd (if a < b then 0 else if a = b then 1 else 2))

/-- BITLEN (41_arith.md R119). -/
def execBitlen (rd ra : Reg) (s : State) : Host.Outcome State Fault Refusal :=
  .next (s.withSource ra fun a => s.writeBack rd (bitlen a))

/-- MUL (41_arith.md R120): the exact product, OVERFLOW when it does not fit W bits. -/
def execMul (rd ra rb : Reg) (s : State) : Host.Outcome State Fault Refusal :=
  .next (s.withSources ra rb fun a b => s.writeBounded rd (a * b))

/-- MOD (41_arith.md R121). -/
def execMod (rd ra rc : Reg) (s : State) : Host.Outcome State Fault Refusal :=
  .next (s.withSources ra rc fun a m => s.withModulus m (s.writeBack rd (a % m)))

/-- MODMUL (41_arith.md R122): the exact product, then the reduction. -/
def execModmul (rd ra rb rc : Reg) (s : State) : Host.Outcome State Fault Refusal :=
  .next (s.withSources ra rb fun a b => s.withSource rc fun m =>
    s.withModulus m (s.writeBack rd (a * b % m)))

end Sys2Proof.Machine
end

