-- ==== Sys2Proof/Machine/Codec.lean ====
section
/-! DEFINITION. The converter and block codec commands (44_codec.md). -/

namespace Sys2Proof.Machine

/-- LDB (44_codec.md R182). -/
def execLdb (rd : Reg) (s : State) : Host.Outcome State Fault Refusal :=
  .next (if s.arg0.toNat > s.bufsz ∨ s.arg1.toNat > s.bufsz - s.arg0.toNat then s.raise .bufRange
    else if 8 * s.arg1.toNat > s.width then s.raise .invalidInput
    else s.writeBack rd (beToInt (s.readIn s.arg0.toNat s.arg1.toNat)))

/-- STB (44_codec.md R183). -/
def execStb (ra : Reg) (mode : Mode) (s : State) : Host.Outcome State Fault Refusal :=
  .next (s.withSource ra fun v =>
    if s.arg0.toNat > s.bufsz ∨ s.arg1.toNat > s.bufsz - s.arg0.toNat then s.raise .bufRange
    else
      match encodeBlock v s.arg1.toNat mode with
      | none => s.raise .encodeOverflow
      | some bs => s.commit fun t => (t.writeOut t.arg0.toNat bs).setXLen bs.length)

/-- What one BENC or BDEC does to every block: the chunk length it reads, the declared width it writes, the key
and the mode (44_codec.md R186, R187). -/
structure BlockJob where
  chunk : Nat
  width : Nat
  exponent : Nat
  modulus : Nat
  mode : Mode
deriving DecidableEq, Repr

/-- The value of the chunk of k bytes from IN_BUF[i], raised to the exponent modulo the modulus. -/
def BlockJob.value (j : BlockJob) (s : State) (i k : Nat) : Nat :=
  powMod (beToInt (s.readIn i k)) j.exponent j.modulus

/-- Append one finished block: its bytes, OUTLEN and progress (44_codec.md R186: "append to the output file"). -/
def State.putBlock (s : State) (i o : Nat) (bs : List Byte) : State :=
  ((s.writeOut o bs).setOutLen (o + bs.length)).setProgress i (o + bs.length)

/-- The block loop of 44_codec.md R186 and R187, where it stands kept in `progress`; `fuel` bounds the number of
blocks. It answers the error that ends it, if any. Finished blocks stay written (R188). -/
def blockLoop (j : BlockJob) : Nat → State → Option ErrorCode × State
  | 0, s => (none, s)
  | fuel + 1, s =>
    if s.progress.consumed < s.inLen.toNat then
      if s.abortHere then (some .aborted, s.passAbort)
      else
        let t := s.passAbort
        let i := t.progress.consumed
        let o := t.progress.written
        let k := min j.chunk (t.inLen.toNat - i)
        match encodeBlock (j.value t i k) j.width j.mode with
        | none => (some .encodeOverflow, t)
        | some bs =>
          if o + bs.length > t.bufsz then (some .bufRange, t)
          else blockLoop j fuel (t.putBlock (i + k) o bs)
    else (none, s)

/-- The checks of 44_codec.md R185 in their order, then the block loop from the start of both buffers, then the
implicit abort point just before completion (60_exceptions.md R218). -/
def State.runBlocks (s : State) (ra rc : Reg) (job : Nat → Nat → BlockJob) : State :=
  s.withSources ra rc fun e n =>
    if s.inLen.toNat > s.bufsz then s.raise .bufRange
    else if bitlen n < 8 then s.raise .invalidInput
    else
      match blockLoop (job e n) s.inLen.toNat ((s.setOutLen 0).setProgress 0 0) with
      | (some c, t) => t.raise c
      | (none, t) => t.commit id

/-- BENC (44_codec.md R186): chunks of L_pt bytes, blocks of declared width L_ct. -/
def execBenc (ra rc : Reg) (mode : Mode) (s : State) : Host.Outcome State Fault Refusal :=
  .next (s.runBlocks ra rc fun e n =>
    { chunk := plainLen n, width := cipherLen n, exponent := e, modulus := n, mode := mode })

/-- BDEC (44_codec.md R187): chunks of L_ct bytes, blocks of declared width L_pt. -/
def execBdec (ra rc : Reg) (mode : Mode) (s : State) : Host.Outcome State Fault Refusal :=
  .next (s.runBlocks ra rc fun e n =>
    { chunk := cipherLen n, width := plainLen n, exponent := e, modulus := n, mode := mode })

end Sys2Proof.Machine
end

