-- ==== Sys2Proof/Machine/NumTheory.lean ====
section
/-! DEFINITION. The number-theory and random commands (42_numtheory.md). -/

namespace Sys2Proof.Machine

/-- GCD (42_numtheory.md R140); gcd(0, 0) = 0. -/
def execGcd (rd ra rb : Reg) (s : State) : Host.Outcome State Fault Refusal :=
  .next (s.withSources ra rb fun a b => s.writeBack rd (Nat.gcd a b))

/-- MODINV (42_numtheory.md R141). -/
def execModinv (rd ra rc : Reg) (s : State) : Host.Outcome State Fault Refusal :=
  .next (s.withSources ra rc fun a m => s.withModulus m
    (if Nat.gcd (a % m) m ≠ 1 then s.raise .noInverse else s.writeBack rd (modInverse a m)))

/-- MODPOW (42_numtheory.md R142). -/
def execModpow (rd ra rb rc : Reg) (s : State) : Host.Outcome State Fault Refusal :=
  .next (s.withSources ra rb fun a b => s.withSource rc fun m =>
    s.withModulus m (s.writeBack rd (powMod a b m)))

/-- RANDB (42_numtheory.md R144). -/
def execRandb (rd : Reg) (n : Nat) (s : State) : Host.Outcome State Fault Refusal :=
  .next (if n > s.width then s.raise .invalidInput else s.tick.writeBack rd (s.drawn 0 (2 ^ n - 1)))

/-- RANDC (42_numtheory.md R145): the draw with its top and bottom bit forced to 1. -/
def execRandc (rd : Reg) (n : Nat) (s : State) : Host.Outcome State Fault Refusal :=
  .next (if n = 0 ∨ n > s.width then s.raise .invalidInput
    else s.tick.writeBack rd (s.drawn 0 (2 ^ n - 1) ||| 2 ^ (n - 1) ||| 1))

end Sys2Proof.Machine
end

