-- ==== Sys2Proof/Machine/Primality.lean ====
section
/-! DEFINITION. The primality commands (43_primality.md). -/

namespace Sys2Proof.Machine

/-- TRIALDIV (43_primality.md R162). -/
def execTrialdiv (rd ra : Reg) (s : State) : Host.Outcome State Fault Refusal :=
  .next (s.withSource ra fun n =>
    match smallestSmallDivisor n with
    | none => s.writeBack rd 2
    | some p => s.writeBack rd (if n = p then 1 else 0))

/-- MRROUND (43_primality.md R163). -/
def execMrround (rd ra rb : Reg) (s : State) : Host.Outcome State Fault Refusal :=
  .next (s.withSources ra rb fun n a =>
    if n < 5 ∨ n % 2 = 0 then s.raise .invalidInput
    else if a < 2 ∨ a > n - 2 then s.raise .invalidInput
    else s.writeBack rd (sprp n a))

/-- How the rounds of one PRIMETEST end. -/
inductive Verdict where
  | composite
  | probablyPrime
  | aborted
deriving DecidableEq, Repr

/-- The Miller-Rabin rounds of PRIMETEST, one after another (43_primality.md R164, R166): before each the abort
point, then a witness drawn from [2, n - 2]. -/
def rounds (n : Nat) : Nat → State → Verdict × State
  | 0, s => (.probablyPrime, s)
  | k + 1, s =>
    if s.abortHere then (.aborted, s.passAbort)
    else if sprp n (s.passAbort.drawn 2 (n - 2)) = 0 then (.composite, s.passAbort.tick)
    else rounds n k s.passAbort.tick

/-- PRIMETEST (43_primality.md R164): trial division, then MRK.K Miller-Rabin rounds. -/
def execPrimetest (rd ra : Reg) (s : State) : Host.Outcome State Fault Refusal :=
  .next (s.withSource ra fun n =>
    match smallestSmallDivisor n with
    | some p => s.writeBack rd (if n = p then 1 else 0)
    | none =>
      if n = 2 ∨ n = 3 then s.writeBack rd 1
      else if n < 2 ∨ n % 2 = 0 then s.writeBack rd 0
      else
        match rounds n s.mrk.toNat s with
        | (.aborted, t) => t.raise .aborted
        | (.composite, t) => t.writeBack rd 0
        | (.probablyPrime, t) => t.writeBack rd 1)

end Sys2Proof.Machine
end

