-- ==== Sys2Proof/Machine/Dispatch.lean ====
section
/-! DEFINITION. exec: one arm per command, each one direct call of its meaning. -/

namespace Sys2Proof.Machine

/-- What the engine does with the accepted command, to its completion (60_exceptions.md R210). -/
def exec (i : Instr) (s : State) : Host.Outcome State Fault Refusal :=
  match i with
  | .nop => Sys2Proof.Machine.execNop s
  | .ldi rd imm => Sys2Proof.Machine.execLdi rd imm s
  | .mov rd ra => Sys2Proof.Machine.execMov rd ra s
  | .add rd ra rb => Sys2Proof.Machine.execAdd rd ra rb s
  | .addi rd ra imm => Sys2Proof.Machine.execAddi rd ra imm s
  | .sub rd ra rb => Sys2Proof.Machine.execSub rd ra rb s
  | .subi rd ra imm => Sys2Proof.Machine.execSubi rd ra imm s
  | .cmp rd ra rb => Sys2Proof.Machine.execCmp rd ra rb s
  | .bitlen rd ra => Sys2Proof.Machine.execBitlen rd ra s
  | .mul rd ra rb => Sys2Proof.Machine.execMul rd ra rb s
  | .mod rd ra rc => Sys2Proof.Machine.execMod rd ra rc s
  | .modmul rd ra rb rc => Sys2Proof.Machine.execModmul rd ra rb rc s
  | .gcd rd ra rb => Sys2Proof.Machine.execGcd rd ra rb s
  | .modinv rd ra rc => Sys2Proof.Machine.execModinv rd ra rc s
  | .modpow rd ra rb rc => Sys2Proof.Machine.execModpow rd ra rb rc s
  | .randb rd imm => Sys2Proof.Machine.execRandb rd imm s
  | .randc rd imm => Sys2Proof.Machine.execRandc rd imm s
  | .trialdiv rd ra => Sys2Proof.Machine.execTrialdiv rd ra s
  | .mrround rd ra rb => Sys2Proof.Machine.execMrround rd ra rb s
  | .primetest rd ra => Sys2Proof.Machine.execPrimetest rd ra s
  | .ldb rd => Sys2Proof.Machine.execLdb rd s
  | .stb ra mode => Sys2Proof.Machine.execStb ra mode s
  | .benc ra rc mode => Sys2Proof.Machine.execBenc ra rc mode s
  | .bdec ra rc mode => Sys2Proof.Machine.execBdec ra rc mode s

end Sys2Proof.Machine
end

