-- ==== Sys2Proof/Machine/Step.lean ====
section
/-! DEFINITION. One step of RSAE: the engine runs the accepted command to completion, or one input arrives. -/

namespace Sys2Proof.Machine

/-- One step. The engine decodes `cur` and runs it, an ILLEGAL word ending at once with its error
(30_encoding.md R96); or one input arrives; or nothing is left to move. -/
def step (s : State) : Host.Outcome State Fault Refusal :=
  match s.nextMove with
  | .engine =>
    match s.fetch with
    | .ok i => exec i s
    | .error _ => .next (s.raise .illegal)
  | .input i left => (s.dequeue left).serve i
  | .quiet => .next s

/-- RSAE fetches at no program counter: a program comes to run one command at a time, by a CMD write (log 6). This
is s with that word accepted and the engine's turn, so that the next step runs it. -/
def State.withFetchWord (s : State) (nbits w : Nat) : State :=
  s.placeCommand (BitVec.ofNat 32 (w % 2 ^ nbits))

end Sys2Proof.Machine
end

