-- ==== Sys2Proof/Safety.lean ====
section
/-! DEFINITION. The terms claims are made in: the invariant of the state, how a command ends, what it leaves
unchanged, and what counts as the end of a run. -/

namespace Sys2Proof.Machine

/-! ### What an instruction names -/

/-- The source registers of a command, in the order they are checked (10_state.md R22). -/
def sourcesOf : Instr → List Reg
  | .nop => []
  | .ldi _ _ => []
  | .mov _ ra => [ra]
  | .add _ ra rb => [ra, rb]
  | .addi _ ra _ => [ra]
  | .sub _ ra rb => [ra, rb]
  | .subi _ ra _ => [ra]
  | .cmp _ ra rb => [ra, rb]
  | .bitlen _ ra => [ra]
  | .mul _ ra rb => [ra, rb]
  | .mod _ ra rc => [ra, rc]
  | .modmul _ ra rb rc => [ra, rb, rc]
  | .gcd _ ra rb => [ra, rb]
  | .modinv _ ra rc => [ra, rc]
  | .modpow _ ra rb rc => [ra, rb, rc]
  | .randb _ _ => []
  | .randc _ _ => []
  | .trialdiv _ ra => [ra]
  | .mrround _ ra rb => [ra, rb]
  | .primetest _ ra => [ra]
  | .ldb _ => []
  | .stb ra _ => [ra]
  | .benc ra rc _ => [ra, rc]
  | .bdec ra rc _ => [ra, rc]

/-- The destination register of a command, if it has one (30_encoding.md R95). -/
def destOf : Instr → Option Reg
  | .nop => none
  | .ldi rd _ => some rd
  | .mov rd _ => some rd
  | .add rd _ _ => some rd
  | .addi rd _ _ => some rd
  | .sub rd _ _ => some rd
  | .subi rd _ _ => some rd
  | .cmp rd _ _ => some rd
  | .bitlen rd _ => some rd
  | .mul rd _ _ => some rd
  | .mod rd _ _ => some rd
  | .modmul rd _ _ _ => some rd
  | .gcd rd _ _ => some rd
  | .modinv rd _ _ => some rd
  | .modpow rd _ _ _ => some rd
  | .randb rd _ => some rd
  | .randc rd _ => some rd
  | .trialdiv rd _ => some rd
  | .mrround rd _ _ => some rd
  | .primetest rd _ => some rd
  | .ldb rd => some rd
  | .stb _ _ => none
  | .benc _ _ _ => none
  | .bdec _ _ _ => none

/-- Is the command a block codec command (44_codec.md R186, R187)? -/
def isCodec : Instr → Bool
  | .benc _ _ _ => true
  | .bdec _ _ _ => true
  | _ => false

/-- Does the command write OUT_BUF (10_state.md R39)? -/
def writesOutBuf : Instr → Bool
  | .stb _ _ => true
  | .benc _ _ _ => true
  | .bdec _ _ _ => true
  | _ => false

/-! ### How a command ends, and what stays -/

/-- Every wide register and VALID bit but Nd's is as before. -/
def SameRegsBut (rd : Reg) (s t : State) : Prop :=
  ∀ r, r ≠ rd → t.reg r = s.reg r ∧ t.isValid r = s.isValid r

/-- Every wide register and VALID bit is as before. -/
def SameRegs (s t : State) : Prop := ∀ r, t.reg r = s.reg r ∧ t.isValid r = s.isValid r

/-- Every byte of OUT_BUF, OUTLEN, XLEN and the codec's progress are as before. -/
def SameOutput (s t : State) : Prop :=
  (∀ a, t.outByte a = s.outByte a) ∧ t.outLen = s.outLen ∧ t.xLen = s.xLen ∧ t.progress = s.progress

/-- Everything no command ever writes is as before: every byte of IN_BUF, CTRL.IE, STATUS.OVR, CMD, MRK, ARG0,
ARG1, INLEN, the parameters, the ports and the inputs still to arrive. -/
def SameInputs (s t : State) : Prop :=
  (∀ a, t.inByte a = s.inByte a) ∧ t.ie = s.ie ∧ t.ovr = s.ovr ∧ t.cmd = s.cmd ∧ t.mrk = s.mrk ∧
  t.arg0 = s.arg0 ∧ t.arg1 = s.arg1 ∧ t.inLen = s.inLen ∧ t.params = s.params ∧ t.rst = s.rst ∧
  t.response = s.response ∧ t.inputs = s.inputs ∧ t.epoch = s.epoch

/-- The completion of 60_exceptions.md R210, with an error or with none. -/
def CompletedWith (t : State) (e : Option ErrorCode) : Prop :=
  t.phase = .idle ∧ t.done = true ∧ t.abortReq = false ∧ t.err = e.isSome ∧ t.errCode = e

/-- The command wrote v to Nd, set VALID[d], changed nothing else, and completed normally. -/
def WroteReg (s t : State) (rd : Reg) (v : Nat) : Prop :=
  t.reg rd = v ∧ t.isValid rd = true ∧ SameRegsBut rd s t ∧ SameOutput s t ∧ SameInputs s t ∧
  CompletedWith t none

/-- The command wrote nothing and ended with this error. -/
def EndedWith (s t : State) (c : ErrorCode) : Prop :=
  SameRegs s t ∧ SameOutput s t ∧ SameInputs s t ∧ CompletedWith t (some c)

/-- The bytes of OUT_BUF from `off` on are `bs`, and every other byte is as before. -/
def OutWritten (s t : State) (off : Nat) (bs : List Byte) : Prop :=
  ∀ a, t.outByte a = if off ≤ a then bs.getD (a - off) (s.outByte a) else s.outByte a

/-- The state without what a host access moves beside its own effect: the port's answer, the queue of inputs, and
the model's own counters. -/
def State.architectural (s : State) : State :=
  { s with response := none, inputs := [], wait := 0, draws := 0, choices := 0 }

/-- The state after k further draws of the random source and nothing else (10_state.md R43, log 2). -/
def State.skipDraws (s : State) (k : Nat) : State := { s with draws := s.draws + k }

/-! ### The codec as a function on byte strings (44_codec.md R186, R187) -/

/-- The bytes that the blocks of one input give: chunks of `chunk` bytes, each raised to `e` modulo `n` and encoded
in `width` bytes, one after another. `none` when a block does not fit its width. `fuel` bounds the chunks. -/
def codecBytes (chunk width e n : Nat) (mode : Mode) : Nat → List Byte → Option (List Byte)
  | 0, _ => some []
  | _ + 1, [] => some []
  | fuel + 1, input =>
    match encodeBlock (beToInt (input.take chunk) ^ e % n) width mode with
    | none => none
    | some block =>
      match codecBytes chunk width e n mode fuel (input.drop chunk) with
      | none => none
      | some more => some (block ++ more)

/-- What BENC writes for an input under the key (e, n): chunks of L_pt bytes, blocks of L_ct (44_codec.md R186). -/
def encrypted (e n : Nat) (mode : Mode) (input : List Byte) : Option (List Byte) :=
  codecBytes (plainLen n) (cipherLen n) e n mode input.length input

/-- What BDEC writes for an input under the key (d, n): chunks of L_ct bytes, blocks of L_pt (44_codec.md R187). -/
def decrypted (d n : Nat) (mode : Mode) (input : List Byte) : Option (List Byte) :=
  codecBytes (cipherLen n) (plainLen n) d n mode input.length input

/-- Why the block loop of BENC or BDEC ended after `i` input and `o` output bytes of whole blocks (44_codec.md R186,
R187): all input was consumed, a requested abort was taken, the next value does not fit its width, or the next block
would pass the end of OUT_BUF. No other error ends it. -/
def LoopEnded (s : State) (ending : Option ErrorCode) (i o chunk width e n : Nat) (mode : Mode) : Prop :=
  let value := beToInt (s.readIn i (min chunk (s.inLen.toNat - i))) ^ e % n
  match ending with
  | none => i = s.inLen.toNat
  | some .aborted => s.abortReq = true
  | some .encodeOverflow => i < s.inLen.toNat ∧ 2 ^ (8 * width) ≤ value
  | some .bufRange =>
    i < s.inLen.toNat ∧ ∃ block, encodeBlock value width mode = some block ∧ s.bufsz < o + block.length
  | some _ => False

/-! ### One Miller-Rabin round in plain arithmetic (43_primality.md R161) -/

/-- Does the round with witness a pass: with n - 1 = 2^r * d, d odd, is a^d = 1 or some a^(2^j * d) = n - 1 modulo
n for a j below r? -/
def RoundPasses (n a : Nat) : Prop :=
  ∃ r d, n - 1 = 2 ^ r * d ∧ d % 2 = 1 ∧ (a ^ d % n = 1 ∨ ∃ j, j < r ∧ a ^ (2 ^ j * d) % n = n - 1)

/-! ### The invariant -/

/-- What holds of every state a run from reset reaches, and what every step keeps. -/
structure State.Inv (s : State) : Prop where
  /-- The parameters meet 00_scope.md R7. -/
  params_wf : s.params.wf
  /-- Every wide register is in [0, 2^W) (10_state.md R20). -/
  regs_lt : ∀ r, s.reg r < 2 ^ s.width
  /-- IN_BUF is canonical and lists no index from BUFSZ on. -/
  inBuf_wf : s.inBuf.wf ∧ s.inBuf.within s.bufsz
  /-- OUT_BUF likewise. -/
  outBuf_wf : s.outBuf.wf ∧ s.outBuf.within s.bufsz
  /-- OUTLEN and XLEN count bytes of OUT_BUF (10_state.md R35, R36). -/
  lens_le : s.outLen.toNat ≤ s.bufsz ∧ s.xLen.toNat ≤ s.bufsz
  /-- OUTLEN is the written half of the codec's progress (10_state.md R42, R35). -/
  progress_eq : s.progress.written = s.outLen.toNat
  /-- While busy, DONE = ERR = 0 and ERRCODE = 0x00 (60_exceptions.md R210). -/
  busy_clear : s.phase = .busy → s.done = false ∧ s.err = false ∧ s.errCode = none
  /-- While idle no abort is requested (10_state.md R42: acceptance and completion clear abort_req). -/
  idle_abort : s.phase = .idle → s.abortReq = false
  /-- ERR = 1 only with an error code (60_exceptions.md R210). -/
  err_code : s.err = true → s.errCode ≠ none
  /-- While `rst` is asserted the engine is idle (70_reset_and_hazards.md R242). -/
  rst_idle : s.rst = true → s.phase = .idle

/-! ### The opcode map as masks and matches -/

/-- The (mask, match) pairs of 30_encoding.md R95, in its order. -/
def commandRows : List (Word × Word) :=
  [(0xFFFFFFFF, 0x00000000), (0x0000F0FF, 0x00000001), (0xFFFF00FF, 0x00000002), (0xFFF000FF, 0x00000003),
    (0x000000FF, 0x00000004), (0xFFF000FF, 0x00000005), (0x000000FF, 0x00000006), (0xFFF000FF, 0x00000007),
    (0xFFFF00FF, 0x00000008), (0xFFF000FF, 0x00000010), (0xFF0F00FF, 0x00000011), (0xFF0000FF, 0x00000012)] ++
  [(0xFFF000FF, 0x00000020), (0xFF0F00FF, 0x00000021), (0xFF0000FF, 0x00000022), (0x0000F0FF, 0x00000028),
    (0x0000F0FF, 0x00000029), (0xFFFF00FF, 0x00000030), (0xFFF000FF, 0x00000031), (0xFFFF00FF, 0x00000032),
    (0xFFFFF0FF, 0x00000040), (0xFEFF0FFF, 0x00000041), (0xFE0F0FFF, 0x00000048), (0xFE0F0FFF, 0x00000049)]

/-! ### The end of a run (70_reset_and_hazards.md R258) -/

/-- A run's end: the host has no next access and the phase is IDLE. -/
def State.Ended (s : State) : Prop := s.inputs = [] ∧ s.phase = .idle

/-- A final state that expects no errors: ended, with ERR = 0 and OVR = 0. -/
def State.Final (s : State) : Prop := s.Ended ∧ s.err = false ∧ s.ovr = false

end Sys2Proof.Machine
end

