-- ==== Sys2Proof/Certificates/Slice0/Obligations.lean ====
section
/-! DEFINITION. The statements for the provers, each citing the rule of spec/ it formalises. Where a statement
assumes abort_req = 0, what a pending request may change is AbortOnlyWhenRequested's (log 9). -/

open Sys2Proof Sys2Proof.Machine

/-! ### Encoding and decoding (30_encoding.md) -/

/-- Decoding an encoded well-formed instruction gives it back, with every operand at every value (R95, R101). -/
def Obligations.DecodeInvertsEncode : Prop :=
  ∀ i : Instr, i.wellFormed = true → decode (encode i) = .ok i

/-- A word that decodes is the one encoding of the instruction it decodes to, which is well-formed (R95, R96,
R101): no bit of a command word is dropped. -/
def Obligations.EncodeInvertsDecode : Prop :=
  ∀ (w : Word) (i : Instr), decode w = .ok i → i.wellFormed = true ∧ encode i = w

/-- R97: a word is a command exactly when a row of R95 matches it, the command is that of the row that matches, and
never two rows match the same word. -/
def Obligations.DecoderIsTotalAndUnambiguous : Prop :=
  (∀ w : Word, (∃ i, decode w = .ok i) ↔ ∃ row ∈ commandRows, w &&& row.1 = row.2) ∧
  (∀ (w : Word) (i : Instr), decode w = .ok i →
    (maskOf i, patternOf i) ∈ commandRows ∧ w &&& maskOf i = patternOf i) ∧
  (∀ w : Word, ∀ row ∈ commandRows, ∀ row' ∈ commandRows,
    w &&& row.1 = row.2 → w &&& row'.1 = row'.2 → row = row')

/-- R96: an accepted word that no row of R95 matches (its opcode is not listed, or an unused field is not 0) ends at
once with ILLEGAL and writes nothing except STATUS. -/
def Obligations.IllegalWordWritesOnlyStatus : Prop :=
  ∀ s : State, s.nextMove = .engine → (∀ row ∈ commandRows, s.cmd &&& row.1 ≠ row.2) →
    ∃ t, step s = .next t ∧ EndedWith s t .illegal ∧ t.draws = s.draws

/-- A word of each of the 24 commands, written out from the encodings of R95 and R101, decodes to what it stands
for. -/
def Obligations.WrittenOutWordsDecode : Prop :=
  (decode 0x00000000 = .ok .nop ∧ decode 0x12340401 = .ok (.ldi 4 0x1234) ∧ decode 0x00001502 = .ok (.mov 5 1) ∧
    decode 0x00021303 = .ok (.add 3 1 2) ∧ decode 0xFFFF0104 = .ok (.addi 1 0 0xFFFF) ∧
    decode 0x00010605 = .ok (.sub 6 0 1) ∧ decode 0x00011706 = .ok (.subi 7 1 1) ∧
    decode 0x00054607 = .ok (.cmp 6 4 5) ∧ decode 0x00003408 = .ok (.bitlen 4 3)) ∧
  (decode 0x00065210 = .ok (.mul 2 5 6) ∧ decode 0x00201311 = .ok (.mod 3 1 2) ∧
    decode 0x00321412 = .ok (.modmul 4 1 2 3)) ∧
  (decode 0x0009AB20 = .ok (.gcd 11 10 9) ∧ decode 0x0090AC21 = .ok (.modinv 12 10 9) ∧
    decode 0x00210322 = .ok (.modpow 3 0 1 2) ∧ decode 0x00100128 = .ok (.randb 1 16) ∧
    decode 0x00090129 = .ok (.randc 1 9)) ∧
  (decode 0x00001230 = .ok (.trialdiv 2 1) ∧ decode 0x000FC031 = .ok (.mrround 0 12 15) ∧
    decode 0x00001D32 = .ok (.primetest 13 1)) ∧
  (decode 0x00000140 = .ok (.ldb 1) ∧ decode 0x01001041 = .ok (.stb 1 .legacy) ∧
    decode 0x00002041 = .ok (.stb 2 .pad) ∧ decode 0x01201048 = .ok (.benc 1 2 .legacy) ∧
    decode 0x00203049 = .ok (.bdec 3 2 .pad))

/-! ### The step -/

/-- When it is the engine's turn and the accepted word decodes to i, the step is exec of i at that state: the step
adds nothing around it. A command placed by `withFetchWord` has the engine's turn. An idle engine with no next access
changes nothing (10_state.md R42). -/
def Obligations.StepRunsTheDecodedCommand : Prop :=
  (∀ s : State, s.phase = .idle → s.inputs = [] → step s = .next s) ∧
  (∀ (s : State) (i : Instr), s.nextMove = .engine → decode s.cmd = .ok i → step s = exec i s) ∧
  (∀ (s : State) (w : Nat) (i : Instr), decode (BitVec.ofNat 32 (w % 2 ^ 32)) = .ok i →
    step (s.withFetchWord 32 w) = exec i (s.withFetchWord 32 w))

/-- A CMD write while idle is latched and starts the command (10_state.md R30), clearing DONE, ERR, ERRCODE and
abort_req and changing nothing else (60_exceptions.md R210); while busy it is ignored and sets OVR; a read of CMD gives
the last accepted word, 0 after reset: no step changes CMD but an acceptance and a reset, which gives the values of
70_reset_and_hazards.md R240. That a reset advances the epoch is the model's (log 5). -/
def Obligations.CmdWriteStartsACommand : Prop :=
  (∀ (s : State) (v : Word) (left : List Input), s.phase = .idle → s.rst = false →
    s.inputs = .write (s.params.base + 0x18) .word v :: left →
    ∃ t, step s = .next t ∧ t.inputs = left ∧ t.architectural = { s.architectural with
        cmd := v, phase := .busy, abortReq := false, done := false, err := false, errCode := none }) ∧
  (∀ (s : State) (v : Word) (left : List Input), s.phase = .busy → s.rst = false → s.wait ≠ 0 →
    s.inputs = .write (s.params.base + 0x18) .word v :: left →
    ∃ t, step s = .next t ∧ t.architectural = { s.architectural with ovr := true }) ∧
  (∀ (s : State) (left : List Input), s.rst = false →
    s.nextMove = .input (.read (s.params.base + 0x18) .word) left →
    ∃ t, step s = .next t ∧ t.response = some { status := .okay, data := s.cmd }) ∧
  (∀ p : Params, (State.initial p).cmd = 0) ∧
  (∀ s t : State, step s = .next t → t.cmd = s.cmd ∨
    (∃ v left, s.phase = .idle ∧ s.nextMove = .input (.write (s.params.base + 0x18) .word v) left ∧ t.cmd = v) ∨
    t.architectural = { (State.initial s.params).architectural with rst := t.rst, epoch := s.epoch + 1 })

/-- Every command completes in one step of the engine, and STATUS says how: BUSY = 0, DONE = 1, no request pending,
and ERR = 1 exactly with an error code (60_exceptions.md R210). So no error leaves the engine unable to go on. -/
def Obligations.EveryCommandCompletes : Prop :=
  ∀ (i : Instr) (s : State), ∃ t, exec i s = .next t ∧ CompletedWith t t.errCode

/-- Whatever the host does, an accepted command has completed, or was reset away, after `wait` + 1 further moves: in
a run that long some state is idle (70_reset_and_hazards.md R256). The bound is the model's (log 7). -/
def Obligations.BusyEndsWithinItsWait : Prop :=
  ∀ (s t : State), s.phase = .busy → Host.Core.run Sys2Proof.core (s.wait + 1) s = .next t →
    ∃ k u, k ≤ s.wait + 1 ∧ Host.Core.run Sys2Proof.core k s = .next u ∧ u.phase = .idle

/-! ### Invariants -/

/-- Every step keeps the invariant: registers in [0, 2^W), canonical buffers within BUFSZ, OUTLEN and XLEN within
BUFSZ, STATUS and the abort request in step with the phase. No step changes the parameters, which are configuration
(10_state.md R45). -/
def Obligations.StepKeepsTheInvariant : Prop :=
  ∀ s t : State, step s = .next t → (s.Inv → t.Inv) ∧ t.params = s.params

/-- The invariant holds after reset, for every parameter value R7 allows. -/
def Obligations.ResetHasTheInvariant : Prop :=
  State.reset.Inv ∧ ∀ p : Params, p.wf → (State.initial p).Inv

/-! ### Reset (70_reset_and_hazards.md) -/

/-- The values of R240 the spec gives, register by register, and MRK.K = 20 with the default parameters. The
unwritten buffer bytes are the free values of log 4. -/
def Obligations.ResetLeavesTheListedValues : Prop :=
  (∀ p : Params,
    let s := State.initial p
    (∀ r, s.reg r = 0 ∧ s.isValid r = false) ∧ s.ctrlWord = 0 ∧ s.statusWord = 0 ∧ s.cmd = 0 ∧
    s.mrk = p.kReset ∧ s.arg0 = 0 ∧ s.arg1 = 0 ∧ s.inLen = 0 ∧ s.outLen = 0 ∧ s.xLen = 0 ∧
    s.phase = .idle ∧ s.cur = 0 ∧ s.abortReq = false ∧ s.progress = { consumed := 0, written := 0 } ∧
    s.irq = false ∧ s.readControl 0x0000 = 0x52534145 ∧ s.readControl 0x0004 = BitVec.ofNat 32 p.nbits ∧
    s.readControl 0x0008 = BitVec.ofNat 32 p.bufsz ∧ s.inBuf = [] ∧ s.outBuf = []) ∧
  State.reset.mrk = 20

/-- R241: a CTRL write with SRST = 1 gives the state of R240 in one step, busy or not, whatever its other bits, with
the OKAY response; the buffers are drawn anew (the epoch, log 5). -/
def Obligations.SoftResetGivesTheResetState : Prop :=
  ∀ (s : State) (v : Word) (left : List Input), s.rst = false →
    s.nextMove = .input (.write (s.params.base + 0x10) .word v) left → v.getLsbD 2 = true →
    ∃ t, step s = .next t ∧ t.response = some { status := .okay, data := 0 } ∧ t.inputs = left ∧
      t.architectural = { (State.initial s.params).architectural with epoch := s.epoch + 1 }

/-- R240, R242: asserting `rst` gives the state of R240, no access is served while it is asserted, and releasing it
leaves that state. -/
def Obligations.HardResetHoldsTheResetState : Prop :=
  (∀ (s : State) (left : List Input), s.nextMove = .input (.rst true) left →
    ∃ t, step s = .next t ∧
      t.architectural = { (State.initial s.params).architectural with rst := true, epoch := s.epoch + 1 }) ∧
  (∀ (s : State) (addr : Nat) (z : AccessSize) (v : Word) (left : List Input), s.rst = true →
    (s.nextMove = .input (.read addr z) left ∨ s.nextMove = .input (.write addr z v) left) →
    step s = .refused .accessDuringReset) ∧
  (∀ (s : State) (left : List Input), s.nextMove = .input (.rst false) left →
    ∃ t, step s = .next t ∧ t.architectural = { s.architectural with rst := false })

/-! ### Host accesses (20_memory.md, 10_state.md) -/

/-- No read has a side effect: beside the port's answer, the queue and the model's counters nothing changes, while
idle or busy (R67, R69). -/
def Obligations.ReadsHaveNoSideEffect : Prop :=
  ∀ (s t : State) (addr : Nat) (z : AccessSize) (left : List Input),
    s.nextMove = .input (.read addr z) left → step s = .next t → t.architectural = s.architectural

/-- R214 with R63: an access of a wrong width or alignment gets the ERROR response, a read with data 0, and no effect
at all. That the answer to a write carries data 0 too is the model's (log 14); an access outside the window is not
RSAE's (the model's stop, log 11). -/
def Obligations.BadAccessGetsError : Prop :=
  (∀ (s : State) (off : Nat) (z : AccessSize) (v : Word) (left : List Input), s.rst = false → off < 0x10000 →
    ((off < 0x8000 ∧ (z ≠ .word ∨ off % 4 ≠ 0)) ∨ (0x8000 ≤ off ∧ off % z.bytes ≠ 0)) →
    (s.nextMove = .input (.read (s.params.base + off) z) left ∨
      s.nextMove = .input (.write (s.params.base + off) z v) left) →
    ∃ t, step s = .next t ∧ t.response = some { status := .error, data := 0 } ∧
      t.architectural = s.architectural) ∧
  (∀ (s : State) (addr : Nat) (z : AccessSize) (v : Word) (left : List Input), s.rst = false →
    (addr < s.params.base ∨ s.params.base + 0x10000 ≤ addr) →
    (s.nextMove = .input (.read addr z) left ∨ s.nextMove = .input (.write addr z v) left) →
    step s = .fault .outsideWindow)

/-- While busy (R250, 20_memory.md R68) a write to CMD, MRK, ARG0, ARG1, INLEN, REGVALID, a register window word or a
buffer byte does not happen and sets OVR; no other access sets it, and it stays until the host writes 1 to it, or
until reset. That the window words from W/32 on are among the locked ones is the model's reading (log 10). -/
def Obligations.LockedWritesAreLostWithOvr : Prop :=
  (∀ (s : State) (off : Nat) (z : AccessSize) (v : Word) (left : List Input), s.rst = false →
    s.phase = .busy → s.nextMove = .input (.write (s.params.base + off) z v) left → off < 0x10000 →
    accessOk off z = true →
    (off ∈ [0x18, 0x1C, 0x20, 0x24, 0x28, 0x34] ∨ (0x1000 ≤ off ∧ off < 0x5000) ∨
      (0x8000 ≤ off ∧ off < 0xC000 ∧ off - 0x8000 < s.bufsz) ∨ (0xC000 ≤ off ∧ off - 0xC000 < s.bufsz)) →
    ∃ t, step s = .next t ∧ t.architectural = { s.architectural with ovr := true }) ∧
  (∀ (s t : State), step s = .next t → s.ovr = true → t.ovr = false →
    (∃ v left, s.nextMove = .input (.write (s.params.base + 0x14) .word v) left ∧ v.getLsbD 3 = true) ∨
    (∃ v left, s.nextMove = .input (.write (s.params.base + 0x10) .word v) left ∧ v.getLsbD 2 = true) ∨
    (∃ left, s.nextMove = .input (.rst true) left)) ∧
  (∀ (s t : State), step s = .next t → s.ovr = false → t.ovr = true → s.phase = .busy ∧
    ∃ off z v left, s.nextMove = .input (.write (s.params.base + off) z v) left ∧ off < 0x10000 ∧
      accessOk off z = true ∧
      (off ∈ [0x18, 0x1C, 0x20, 0x24, 0x28, 0x34] ∨ (0x1000 ≤ off ∧ off < 0x5000) ∨
        (0x8000 ≤ off ∧ off < 0xC000 ∧ off - 0x8000 < s.bufsz) ∨ (0xC000 ≤ off ∧ off - 0xC000 < s.bufsz)))

/-- R25, R26, R27: ID, NBITS and BUFSZ read their constants at every time, and a write to them is ignored. -/
def Obligations.IdentificationIsConstant : Prop :=
  (∀ (s : State) (off : Nat) (left : List Input), s.rst = false → off ∈ [0x0000, 0x0004, 0x0008] →
    s.nextMove = .input (.read (s.params.base + off) .word) left →
    ∃ t, step s = .next t ∧
      (off = 0x0000 → t.response = some { status := .okay, data := 0x52534145 }) ∧
      (off = 0x0004 → t.response = some { status := .okay, data := BitVec.ofNat 32 s.params.nbits }) ∧
      (off = 0x0008 → t.response = some { status := .okay, data := BitVec.ofNat 32 s.params.bufsz })) ∧
  (∀ (s : State) (off : Nat) (v : Word) (left : List Input), s.rst = false → off ∈ [0x0000, 0x0004, 0x0008] →
    s.nextMove = .input (.write (s.params.base + off) .word v) left →
    ∃ t, step s = .next t ∧ t.architectural = s.architectural)

/-- STATUS reads as laid out in 10_state.md R29, its write-1-to-clear bits clear DONE, ERR and OVR and nothing else,
at every time, and ERRCODE reads the numbers of 60_exceptions.md R211. -/
def Obligations.StatusReadsAndClears : Prop :=
  (∀ (s : State) (left : List Input), s.rst = false →
    s.nextMove = .input (.read (s.params.base + 0x14) .word) left →
    ∃ t w, step s = .next t ∧ t.response = some { status := .okay, data := w } ∧
      w.getLsbD 0 = s.isBusy ∧ w.getLsbD 1 = s.done ∧ w.getLsbD 2 = s.err ∧ w.getLsbD 3 = s.ovr ∧
      w.extractLsb' 8 8 = s.errByte ∧ w.extractLsb' 4 4 = 0 ∧ w.extractLsb' 16 16 = 0) ∧
  (∀ (s : State) (v : Word) (left : List Input), s.rst = false →
    s.nextMove = .input (.write (s.params.base + 0x14) .word v) left →
    ∃ t, step s = .next t ∧ t.architectural = { s.architectural with
      done := s.done && !v.getLsbD 1, err := s.err && !v.getLsbD 2, ovr := s.ovr && !v.getLsbD 3 }) ∧
  (∀ s : State, (s.errCode = none → s.errByte = 0x00) ∧ (s.errCode = some .illegal → s.errByte = 0x01) ∧
    (s.errCode = some .unwritten → s.errByte = 0x02) ∧ (s.errCode = some .zeroModulus → s.errByte = 0x03) ∧
    (s.errCode = some .noInverse → s.errByte = 0x04) ∧ (s.errCode = some .underflow → s.errByte = 0x05) ∧
    (s.errCode = some .overflow → s.errByte = 0x06) ∧ (s.errCode = some .invalidInput → s.errByte = 0x07) ∧
    (s.errCode = some .bufRange → s.errByte = 0x08) ∧ (s.errCode = some .encodeOverflow → s.errByte = 0x09) ∧
    (s.errCode = some .aborted → s.errByte = 0x0A))

/-- A CTRL write without SRST sets IE from bit 0 at every time, and its ABORT bit requests an abort only while busy
(10_state.md R28, 60_exceptions.md R218); CTRL reads IE and 0 elsewhere. -/
def Obligations.CtrlWriteSetsIeAndAbort : Prop :=
  (∀ (s : State) (v : Word) (left : List Input), s.rst = false → v.getLsbD 2 = false →
    s.nextMove = .input (.write (s.params.base + 0x10) .word v) left →
    ∃ t, step s = .next t ∧ t.architectural = { s.architectural with
      ie := v.getLsbD 0, abortReq := s.abortReq || (s.isBusy && v.getLsbD 1) }) ∧
  (∀ (s : State) (left : List Input), s.rst = false →
    s.nextMove = .input (.read (s.params.base + 0x10) .word) left →
    ∃ t, step s = .next t ∧
      t.response = some { status := .okay, data := if s.ie then 1 else 0 })

/-- While idle, a write to MRK, ARG0, ARG1 or INLEN stores its value (MRK its low 8 bits) and changes nothing else
(10_state.md R31 to R34, R38); each reads back exactly, at every time (20_memory.md R67). -/
def Obligations.ParameterRegistersStoreTheirValue : Prop :=
  (∀ (s : State) (off : Nat) (v : Word) (left : List Input), s.rst = false → s.phase = .idle →
    s.inputs = .write (s.params.base + off) .word v :: left →
    off ∈ [0x1C, 0x20, 0x24, 0x28] →
    ∃ t, step s = .next t ∧
      (off = 0x1C → t.architectural = { s.architectural with mrk := v.setWidth 8 }) ∧
      (off = 0x20 → t.architectural = { s.architectural with arg0 := v }) ∧
      (off = 0x24 → t.architectural = { s.architectural with arg1 := v }) ∧
      (off = 0x28 → t.architectural = { s.architectural with inLen := v })) ∧
  (∀ (s : State) (off : Nat) (left : List Input), s.rst = false →
    s.nextMove = .input (.read (s.params.base + off) .word) left → off ∈ [0x1C, 0x20, 0x24, 0x28] →
    ∃ t, step s = .next t ∧
      (off = 0x1C → t.response = some { status := .okay, data := s.mrk.setWidth 32 }) ∧
      (off = 0x20 → t.response = some { status := .okay, data := s.arg0 }) ∧
      (off = 0x24 → t.response = some { status := .okay, data := s.arg1 }) ∧
      (off = 0x28 → t.response = some { status := .okay, data := s.inLen }))

/-- R35, R36 and R38: a read of OUTLEN or XLEN while idle gives its value; a write to one of them or to a reserved
offset changes nothing at any time and never sets OVR, and a reserved offset reads 0. -/
def Obligations.ReadOnlyAndReservedIgnoreWrites : Prop :=
  (∀ (s : State) (off : Nat) (v : Word) (left : List Input), s.rst = false → off % 4 = 0 →
    (off ∈ [0x0C, 0x2C, 0x30] ∨ (0x38 ≤ off ∧ off < 0x1000) ∨ (0x5000 ≤ off ∧ off < 0x8000)) →
    s.nextMove = .input (.write (s.params.base + off) .word v) left →
    ∃ t, step s = .next t ∧ t.architectural = s.architectural) ∧
  (∀ (s : State) (off : Nat) (left : List Input), s.rst = false → off % 4 = 0 →
    (off = 0x0C ∨ (0x38 ≤ off ∧ off < 0x1000) ∨ (0x5000 ≤ off ∧ off < 0x8000)) →
    s.nextMove = .input (.read (s.params.base + off) .word) left →
    ∃ t, step s = .next t ∧ t.response = some { status := .okay, data := 0 }) ∧
  (∀ (s : State) (left : List Input), s.rst = false → s.phase = .idle →
    (s.inputs = .read (s.params.base + 0x2C) .word :: left →
      ∃ t, step s = .next t ∧ t.response = some { status := .okay, data := s.outLen }) ∧
    (s.inputs = .read (s.params.base + 0x30) .word :: left →
      ∃ t, step s = .next t ∧ t.response = some { status := .okay, data := s.xLen }))

/-- R37 with R21(d): while idle, writing 1 to bit i of REGVALID clears VALID[i], writing 0 leaves it, and the contents
of every register stay; while busy the write is lost and sets OVR. -/
def Obligations.RegValidWriteClearsBits : Prop :=
  (∀ (s : State) (v : Word) (left : List Input), s.rst = false → s.phase = .idle →
    s.inputs = .write (s.params.base + 0x34) .word v :: left →
    ∃ t, step s = .next t ∧
      (∀ r : Reg, t.isValid r = (s.isValid r && !v.getLsbD r.val) ∧ t.reg r = s.reg r) ∧
      { t.architectural with valid := s.valid } = s.architectural) ∧
  (∀ (s : State) (v : Word) (left : List Input), s.rst = false → s.phase = .busy → s.wait ≠ 0 →
    s.inputs = .write (s.params.base + 0x34) .word v :: left →
    ∃ t, step s = .next t ∧ t.architectural = { s.architectural with ovr := true }) ∧
  (∀ (s : State) (left : List Input), s.rst = false → s.phase = .idle →
    s.inputs = .read (s.params.base + 0x34) .word :: left →
    ∃ t w, step s = .next t ∧ t.response = some { status := .okay, data := w } ∧
      (∀ r : Reg, w.getLsbD r.val = s.isValid r) ∧ w.extractLsb' 16 16 = 0)

/-- R65: while idle a write to word j < W/32 of Ni's window sets bits [32j+31 : 32j] of Ni to v, leaves every other bit
of Ni unchanged and sets VALID[i]; while busy it is ignored and sets OVR. Nothing else changes. -/
def Obligations.WindowWriteSetsOneWord : Prop :=
  (∀ (s : State) (r : Reg) (j : Nat) (v : Word) (left : List Input), s.rst = false → s.phase = .idle →
    j < 256 → j < s.width / 32 →
    s.inputs = .write (s.params.base + (0x1000 + 0x400 * r.val + 4 * j)) .word v :: left →
    ∃ t, step s = .next t ∧
      (∀ b, (t.reg r).testBit b =
        if 32 * j ≤ b ∧ b < 32 * j + 32 then v.getLsbD (b - 32 * j) else (s.reg r).testBit b) ∧
      t.isValid r = true ∧ SameRegsBut r s t ∧
      { t.architectural with regs := s.regs, valid := s.valid } = s.architectural) ∧
  (∀ (s : State) (r : Reg) (j : Nat) (v : Word) (left : List Input), s.rst = false → s.phase = .busy →
    s.wait ≠ 0 → j < 256 → j < s.width / 32 →
    s.inputs = .write (s.params.base + (0x1000 + 0x400 * r.val + 4 * j)) .word v :: left →
    ∃ t, step s = .next t ∧ t.architectural = { s.architectural with ovr := true })

/-- R64 while idle: word j < W/32 of Ni's window reads bits [32j+31 : 32j] of Ni, whether or not it is VALID; a word
from W/32 on reads 0 and ignores writes. -/
def Obligations.WindowReadGivesOneWord : Prop :=
  (∀ (s : State) (r : Reg) (j : Nat) (left : List Input), s.rst = false → s.phase = .idle → j < 256 →
    s.inputs = .read (s.params.base + (0x1000 + 0x400 * r.val + 4 * j)) .word :: left →
    ∃ t w, step s = .next t ∧ t.response = some { status := .okay, data := w } ∧
      (j < s.width / 32 → ∀ b, b < 32 → w.getLsbD b = (s.reg r).testBit (32 * j + b)) ∧
      (s.width / 32 ≤ j → w = 0)) ∧
  (∀ (s : State) (r : Reg) (j : Nat) (v : Word) (left : List Input), s.rst = false → s.phase = .idle →
    j < 256 → s.width / 32 ≤ j →
    s.inputs = .write (s.params.base + (0x1000 + 0x400 * r.val + 4 * j)) .word v :: left →
    ∃ t, step s = .next t ∧ t.architectural = s.architectural)

/-- While idle, an aligned write of n bytes to a buffer window below BUFSZ stores them, the lowest offset in value
bits [7:0], and every other byte of both buffers and every register stays; from BUFSZ on it is ignored
(20_memory.md R61, R66). BUFSZ is a multiple of 4 (00_scope.md R7). -/
def Obligations.BufferWriteStoresItsBytes : Prop :=
  ∀ (s : State) (off : Nat) (z : AccessSize) (v : Word) (left : List Input), s.rst = false → s.phase = .idle →
    s.params.wf → off < 0x4000 → off % z.bytes = 0 →
    (s.inputs = .write (s.params.base + (0x8000 + off)) z v :: left →
      ∃ t, step s = .next t ∧ { t.architectural with inBuf := s.inBuf } = s.architectural ∧
        (∀ a, t.inByte a = if off ≤ a ∧ a < off + z.bytes ∧ off < s.bufsz
          then v.extractLsb' (8 * (a - off)) 8 else s.inByte a)) ∧
    (s.inputs = .write (s.params.base + (0xC000 + off)) z v :: left →
      ∃ t, step s = .next t ∧ { t.architectural with outBuf := s.outBuf } = s.architectural ∧
        (∀ a, t.outByte a = if off ≤ a ∧ a < off + z.bytes ∧ off < s.bufsz
          then v.extractLsb' (8 * (a - off)) 8 else s.outByte a))

/-- While idle, an aligned read of n bytes of a buffer window gives its bytes, the lowest offset in value bits [7:0],
and 0 for every byte from BUFSZ on (20_memory.md R61, R66). That the value bits above the n bytes are 0 is the model's
reading (log 17). -/
def Obligations.BufferReadGivesItsBytes : Prop :=
  ∀ (s : State) (off : Nat) (z : AccessSize) (left : List Input), s.rst = false → s.phase = .idle →
    off < 0x4000 → off % z.bytes = 0 →
    (s.inputs = .read (s.params.base + (0x8000 + off)) z :: left →
      ∃ t w, step s = .next t ∧ t.response = some { status := .okay, data := w } ∧
        ∀ k, k < 4 → w.extractLsb' (8 * k) 8 =
          if k < z.bytes ∧ off + k < s.bufsz then s.inByte (off + k) else 0) ∧
    (s.inputs = .read (s.params.base + (0xC000 + off)) z :: left →
      ∃ t w, step s = .next t ∧ t.response = some { status := .okay, data := w } ∧
        ∀ k, k < 4 → w.extractLsb' (8 * k) 8 =
          if k < z.bytes ∧ off + k < s.bufsz then s.outByte (off + k) else 0)

/-- IRQ is IE AND DONE in every state, and after a command it is IE whatever the command and its error. A step raises
it only by a completion while IE = 1 or by a CTRL write that sets IE while DONE = 1, and lowers it only by a 1 written
to DONE, a CTRL write that clears IE or resets, an acceptance, or `rst`; each of these does lower it
(60_exceptions.md R219, R220). -/
def Obligations.IrqIsIeAndDone : Prop :=
  (∀ s : State, s.irq = (s.ie && s.done)) ∧
  (∀ (i : Instr) (s t : State), exec i s = .next t → t.irq = s.ie) ∧
  (∀ s t : State, step s = .next t → s.irq = false → t.irq = true →
    (s.nextMove = .engine ∧ s.ie = true) ∨
    (∃ v left, s.nextMove = .input (.write (s.params.base + 0x10) .word v) left ∧ v.getLsbD 0 = true ∧
      v.getLsbD 2 = false ∧ s.done = true)) ∧
  (∀ s t : State, step s = .next t → s.irq = true → t.irq = false →
    (∃ v left, s.nextMove = .input (.write (s.params.base + 0x14) .word v) left ∧ v.getLsbD 1 = true) ∨
    (∃ v left, s.nextMove = .input (.write (s.params.base + 0x10) .word v) left ∧
      (v.getLsbD 0 = false ∨ v.getLsbD 2 = true)) ∨
    (∃ v left, s.nextMove = .input (.write (s.params.base + 0x18) .word v) left ∧ s.phase = .idle) ∨
    (∃ left, s.nextMove = .input (.rst true) left)) ∧
  (∀ (s : State) (v : Word), (s.accept v).irq = false) ∧
  (∀ (s : State) (v : Word), v.getLsbD 1 = true → (s.writeStatus v).irq = false) ∧
  (∀ (s : State) (v : Word), v.getLsbD 0 = false → (s.writeCtrl v).irq = false) ∧
  (∀ s : State, s.resetAll.irq = false)

/-! ### What every command leaves unchanged -/

/-- No command writes IN_BUF, CTRL.IE, STATUS.OVR, CMD, MRK, ARG0, ARG1, INLEN or any parameter, whatever it does and
however it ends (10_state.md R39, 60_exceptions.md R212, 70_reset_and_hazards.md R259). -/
def Obligations.NoCommandWritesItsInputs : Prop :=
  ∀ (i : Instr) (s t : State), exec i s = .next t → SameInputs s t

/-- Every command leaves every wide register and VALID bit but its destination's unchanged (10_state.md R21). -/
def Obligations.OnlyTheDestinationIsWritten : Prop :=
  ∀ (i : Instr) (s t : State), exec i s = .next t →
    ∀ r, destOf i ≠ some r → t.reg r = s.reg r ∧ t.isValid r = s.isValid r

/-- Every command but STB, BENC and BDEC leaves OUT_BUF, OUTLEN, XLEN and the codec's progress unchanged; STB leaves
OUTLEN and the progress, BENC and BDEC leave XLEN (10_state.md R35, R36, R39). -/
def Obligations.OnlyTheCodecWritesOutput : Prop :=
  ∀ (i : Instr) (s t : State), exec i s = .next t →
    (writesOutBuf i = false → SameOutput s t) ∧
    (isCodec i = false → t.outLen = s.outLen ∧ t.progress = s.progress) ∧
    (isCodec i = true → t.xLen = s.xLen)

/-- R212: a command that ends with an error leaves its destination register and VALID bit, every other register, MRK,
ARG0, ARG1, INLEN, XLEN, IN_BUF, CMD, CTRL and OVR unchanged, and OUT_BUF too unless it is BENC or BDEC. -/
def Obligations.ErrorsArePrecise : Prop :=
  ∀ (i : Instr) (s t : State) (c : ErrorCode), exec i s = .next t → t.errCode = some c →
    SameRegs s t ∧ SameInputs s t ∧ t.xLen = s.xLen ∧ (isCodec i = false → SameOutput s t)

/-- A command ends with ABORTED only when an abort was requested, and then only after its operand checks: it has
written no register, and nothing at all but STATUS unless it is BENC or BDEC, whose finished blocks stay
(60_exceptions.md R213, R218). A command that does not end with ABORTED does, with a request pending, exactly what it
does with none: only the model's index of abort choices may differ. Which abort point takes the request is the free
choice of log 9. -/
def Obligations.AbortOnlyWhenRequested : Prop :=
  ∀ (i : Instr) (s : State), ∃ t u, exec i s = .next t ∧ exec i { s with abortReq := false } = .next u ∧
    (s.abortReq = false → t.errCode ≠ some .aborted) ∧
    (t.errCode = some .aborted → SameRegs s t ∧ SameInputs s t ∧ t.xLen = s.xLen ∧
      (∀ r ∈ sourcesOf i, s.isValid r = true) ∧ (isCodec i = false → EndedWith s t .aborted)) ∧
    (t.errCode ≠ some .aborted → { t with choices := u.choices } = u)

/-- R22: a command that names a source register whose VALID bit is 0 ends with UNWRITTEN and writes nothing, whatever
else is wrong with its operands. -/
def Obligations.UnwrittenOperandsAreRefused : Prop :=
  ∀ (i : Instr) (s : State), (∃ r ∈ sourcesOf i, s.isValid r = false) →
    ∃ t, exec i s = .next t ∧ EndedWith s t .unwritten

/-- The engine never reads OUT_BUF: with any other contents of OUT_BUF a command does the same to everything else
(10_state.md R39, 70_reset_and_hazards.md R259). -/
def Obligations.NoCommandReadsOutBuf : Prop :=
  ∀ (i : Instr) (s : State) (m : Memory), ∃ t u,
    exec i s = .next t ∧ exec i { s with outBuf := m } = .next u ∧ { u with outBuf := t.outBuf } = t

/-! ### Arithmetic, multiplier and reduction (41_arith.md): results -/

/-- NOP changes nothing and completes normally, LDI writes imm16 and MOV the source's value, setting VALID[rd] (R111,
R112, R113). -/
def Obligations.NopLdiAndMovWriteTheirValue : Prop :=
  (∀ s : State, s.abortReq = false →
    ∃ t, exec .nop s = .next t ∧ SameRegs s t ∧ SameOutput s t ∧ SameInputs s t ∧ CompletedWith t none) ∧
  (∀ (s : State) (rd : Reg) (imm : Nat), s.abortReq = false →
    ∃ t, exec (.ldi rd imm) s = .next t ∧ WroteReg s t rd imm) ∧
  (∀ (s : State) (rd ra : Reg), s.abortReq = false → s.isValid ra = true →
    ∃ t, exec (.mov rd ra) s = .next t ∧ WroteReg s t rd (s.reg ra))

/-- ADD and ADDI write the exact sum when it is below 2^W, and end with OVERFLOW, writing nothing, when it is not
(R114, R115). -/
def Obligations.AddAndAddiWriteTheSum : Prop :=
  (∀ (s : State) (rd ra rb : Reg), s.abortReq = false → s.isValid ra = true → s.isValid rb = true →
    s.reg ra + s.reg rb < 2 ^ s.width →
    ∃ t, exec (.add rd ra rb) s = .next t ∧ WroteReg s t rd (s.reg ra + s.reg rb)) ∧
  (∀ (s : State) (rd ra : Reg) (imm : Nat), s.abortReq = false → s.isValid ra = true →
    s.reg ra + imm < 2 ^ s.width →
    ∃ t, exec (.addi rd ra imm) s = .next t ∧ WroteReg s t rd (s.reg ra + imm)) ∧
  (∀ (s : State) (rd ra rb : Reg), s.abortReq = false → s.isValid ra = true → s.isValid rb = true →
    2 ^ s.width ≤ s.reg ra + s.reg rb →
    ∃ t, exec (.add rd ra rb) s = .next t ∧ EndedWith s t .overflow) ∧
  (∀ (s : State) (rd ra : Reg) (imm : Nat), s.abortReq = false → s.isValid ra = true →
    2 ^ s.width ≤ s.reg ra + imm →
    ∃ t, exec (.addi rd ra imm) s = .next t ∧ EndedWith s t .overflow)

/-- SUB and SUBI write the exact difference when it is not negative, and end with UNDERFLOW, writing nothing, when it
is (R116, R117). -/
def Obligations.SubAndSubiWriteTheDifference : Prop :=
  (∀ (s : State) (rd ra rb : Reg), s.abortReq = false → s.isValid ra = true → s.isValid rb = true →
    s.reg rb ≤ s.reg ra →
    ∃ t, exec (.sub rd ra rb) s = .next t ∧ WroteReg s t rd (s.reg ra - s.reg rb)) ∧
  (∀ (s : State) (rd ra : Reg) (imm : Nat), s.abortReq = false → s.isValid ra = true → imm ≤ s.reg ra →
    ∃ t, exec (.subi rd ra imm) s = .next t ∧ WroteReg s t rd (s.reg ra - imm)) ∧
  (∀ (s : State) (rd ra rb : Reg), s.abortReq = false → s.isValid ra = true → s.isValid rb = true →
    s.reg ra < s.reg rb → ∃ t, exec (.sub rd ra rb) s = .next t ∧ EndedWith s t .underflow) ∧
  (∀ (s : State) (rd ra : Reg) (imm : Nat), s.abortReq = false → s.isValid ra = true → s.reg ra < imm →
    ∃ t, exec (.subi rd ra imm) s = .next t ∧ EndedWith s t .underflow)

/-- CMP writes 0, 1 or 2 for less, equal or greater (R118). -/
def Obligations.CmpWritesTheOrder : Prop :=
  ∀ (s : State) (rd ra rb : Reg), s.abortReq = false → s.isValid ra = true → s.isValid rb = true →
    ∃ t v, exec (.cmp rd ra rb) s = .next t ∧ WroteReg s t rd v ∧
      (s.reg ra < s.reg rb → v = 0) ∧ (s.reg ra = s.reg rb → v = 1) ∧ (s.reg rb < s.reg ra → v = 2)

/-- BITLEN writes the least k with x[ra] < 2^k (R119, 00_scope.md R11), and that is at most W for a register below
2^W. -/
def Obligations.BitlenWritesTheLeastWidth : Prop :=
  ∀ (s : State) (rd ra : Reg), s.abortReq = false → s.isValid ra = true →
    ∃ t k, exec (.bitlen rd ra) s = .next t ∧ WroteReg s t rd k ∧ (∀ j, s.reg ra < 2 ^ j ↔ k ≤ j) ∧
      (s.reg ra < 2 ^ s.width → k ≤ s.width)

/-- MUL writes the exact product when it is below 2^W, and ends with OVERFLOW, writing nothing, when it is not
(R120). -/
def Obligations.MulWritesTheProduct : Prop :=
  (∀ (s : State) (rd ra rb : Reg), s.abortReq = false → s.isValid ra = true → s.isValid rb = true →
    s.reg ra * s.reg rb < 2 ^ s.width →
    ∃ t, exec (.mul rd ra rb) s = .next t ∧ WroteReg s t rd (s.reg ra * s.reg rb)) ∧
  (∀ (s : State) (rd ra rb : Reg), s.abortReq = false → s.isValid ra = true → s.isValid rb = true →
    2 ^ s.width ≤ s.reg ra * s.reg rb →
    ∃ t, exec (.mul rd ra rb) s = .next t ∧ EndedWith s t .overflow)

/-- MOD writes a mod m and MODMUL the exact product reduced modulo m, for every modulus m ≥ 1, odd or even (R121,
R122). -/
def Obligations.ModAndModmulReduce : Prop :=
  (∀ (s : State) (rd ra rc : Reg), s.abortReq = false → s.isValid ra = true → s.isValid rc = true →
    s.reg rc ≠ 0 → ∃ t, exec (.mod rd ra rc) s = .next t ∧ WroteReg s t rd (s.reg ra % s.reg rc)) ∧
  (∀ (s : State) (rd ra rb rc : Reg), s.abortReq = false → s.isValid ra = true → s.isValid rb = true →
    s.isValid rc = true → s.reg rc ≠ 0 →
    ∃ t, exec (.modmul rd ra rb rc) s = .next t ∧ WroteReg s t rd (s.reg ra * s.reg rb % s.reg rc))

/-- With written operands and a modulus of 0, MOD, MODMUL, MODINV and MODPOW end with ZERO_MODULUS and write nothing
(41_arith.md R110, 60_exceptions.md R211). -/
def Obligations.ZeroModulusIsRefused : Prop :=
  ∀ (s : State) (rd ra rb rc : Reg), s.isValid ra = true → s.isValid rb = true → s.isValid rc = true →
    s.reg rc = 0 → ∀ i ∈ [Instr.mod rd ra rc, .modmul rd ra rb rc, .modinv rd ra rc, .modpow rd ra rb rc],
    ∃ t, exec i s = .next t ∧ EndedWith s t .zeroModulus

/-! ### Number theory and random commands (42_numtheory.md) -/

/-- GCD writes the greatest common divisor: it divides both, and everything that divides both divides it; gcd(0, 0)
is 0 (R140, 00_scope.md R11). -/
def Obligations.GcdWritesTheGreatestDivisor : Prop :=
  ∀ (s : State) (rd ra rb : Reg), s.abortReq = false → s.isValid ra = true → s.isValid rb = true →
    ∃ t g, exec (.gcd rd ra rb) s = .next t ∧ WroteReg s t rd g ∧ g ∣ s.reg ra ∧ g ∣ s.reg rb ∧
      (∀ k, k ∣ s.reg ra → k ∣ s.reg rb → k ∣ g)

/-- For m ≥ 1 MODINV writes the unique v in [0, m) with a * v = 1 modulo m when gcd(a, m) = 1, and ends with
NO_INVERSE, writing nothing, when it is not (R141). -/
def Obligations.ModinvWritesTheInverse : Prop :=
  (∀ (s : State) (rd ra rc : Reg), s.abortReq = false → s.isValid ra = true → s.isValid rc = true →
    s.reg rc ≠ 0 → Nat.gcd (s.reg ra) (s.reg rc) = 1 →
    ∃ t v, exec (.modinv rd ra rc) s = .next t ∧ WroteReg s t rd v ∧ v < s.reg rc ∧
      s.reg ra * v % s.reg rc = 1 % s.reg rc ∧
      ∀ v', v' < s.reg rc → s.reg ra * v' % s.reg rc = 1 % s.reg rc → v' = v) ∧
  (∀ (s : State) (rd ra rc : Reg), s.abortReq = false → s.isValid ra = true → s.isValid rc = true →
    s.reg rc ≠ 0 → Nat.gcd (s.reg ra) (s.reg rc) ≠ 1 →
    ∃ t, exec (.modinv rd ra rc) s = .next t ∧ EndedWith s t .noInverse)

/-- MODPOW writes the exact (a ^ b) mod m for every m ≥ 1, though it computes by square-and-multiply (R142, R143). -/
def Obligations.ModpowWritesThePower : Prop :=
  ∀ (s : State) (rd ra rb rc : Reg), s.abortReq = false → s.isValid ra = true → s.isValid rb = true →
    s.isValid rc = true → s.reg rc ≠ 0 →
    ∃ t, exec (.modpow rd ra rb rc) s = .next t ∧ WroteReg s t rd (s.reg ra ^ s.reg rb % s.reg rc)

/-- RANDB writes some value in [0, 2^n - 1] for n ≤ W and refuses a larger n with INVALID_INPUT (R144). The value is
the free one of log 3: the statement holds for every answer of the random source. -/
def Obligations.RandbWritesABoundedDraw : Prop :=
  (∀ (s : State) (rd : Reg) (n : Nat), s.abortReq = false → n ≤ s.width →
    ∃ t r, exec (.randb rd n) s = .next t ∧ WroteReg s t rd r ∧ r < 2 ^ n) ∧
  (∀ (s : State) (rd : Reg) (n : Nat), s.width < n →
    ∃ t, exec (.randb rd n) s = .next t ∧ EndedWith s t .invalidInput)

/-- RANDC writes an odd value of exactly n bits for 1 ≤ n ≤ W and refuses n = 0 or n > W with INVALID_INPUT (R145),
whatever the random source answers (log 3). -/
def Obligations.RandcWritesAnOddCandidate : Prop :=
  (∀ (s : State) (rd : Reg) (n : Nat), s.abortReq = false → 1 ≤ n → n ≤ s.width →
    ∃ t r, exec (.randc rd n) s = .next t ∧ WroteReg s t rd r ∧ r % 2 = 1 ∧ 2 ^ (n - 1) ≤ r ∧ r < 2 ^ n) ∧
  (∀ (s : State) (rd : Reg) (n : Nat), n = 0 ∨ s.width < n →
    ∃ t, exec (.randc rd n) s = .next t ∧ EndedWith s t .invalidInput)

/-! ### Primality (43_primality.md) -/

/-- R160: SMALL_PRIMES is the list of the first 100 primes, in increasing order, from 2 to 541. -/
def Obligations.SmallPrimesAreTheFirstHundred : Prop :=
  smallPrimes.length = 100 ∧ smallPrimes.Pairwise (· < ·) ∧ ∀ p, p ∈ smallPrimes ↔ p.Prime ∧ p ≤ 541

/-- TRIALDIV writes 1 for a prime up to 541, 2 when no prime up to 541 divides n, and 0 otherwise (R162). -/
def Obligations.TrialdivClassifies : Prop :=
  ∀ (s : State) (rd ra : Reg), s.abortReq = false → s.isValid ra = true →
    ∃ t v, exec (.trialdiv rd ra) s = .next t ∧ WroteReg s t rd v ∧
      (v = 1 ↔ (s.reg ra).Prime ∧ s.reg ra ≤ 541) ∧
      (v = 2 ↔ ∀ p, p.Prime → p ≤ 541 → ¬ p ∣ s.reg ra) ∧ v ≤ 2

/-- MRROUND writes 1 when the round with the host's witness passes in the source's terms and 0 when it does not, and
refuses n below 5, even n, and a witness outside [2, n - 2] with INVALID_INPUT (R161, R163). -/
def Obligations.MrroundRunsOneRound : Prop :=
  (∀ (s : State) (rd ra rb : Reg), s.abortReq = false → s.isValid ra = true → s.isValid rb = true →
    5 ≤ s.reg ra → s.reg ra % 2 = 1 → 2 ≤ s.reg rb → s.reg rb ≤ s.reg ra - 2 →
    ∃ t v, exec (.mrround rd ra rb) s = .next t ∧ WroteReg s t rd v ∧
      (v = 1 ↔ RoundPasses (s.reg ra) (s.reg rb)) ∧ (v = 0 ∨ v = 1)) ∧
  (∀ (s : State) (rd ra rb : Reg), s.isValid ra = true → s.isValid rb = true →
    (s.reg ra < 5 ∨ s.reg ra % 2 = 0 ∨ s.reg rb < 2 ∨ s.reg ra - 2 < s.reg rb) →
    ∃ t, exec (.mrround rd ra rb) s = .next t ∧ EndedWith s t .invalidInput)

/-- Every n has an answer, 0 or 1, and 1 itself gets 0. For any other n with no prime factor up to 541 the answer is 1
exactly when the rounds of all MRK.K witnesses pass, the k-th witness being the k-th draw from [2, n - 2], and an
answer 1 took one draw a round (R164). The draws are the free values of log 3, indexed as log 2 says, so the statement
holds for every answer of the random source. -/
def Obligations.PrimetestAnswersEveryNumber : Prop :=
  ∀ (s : State) (rd ra : Reg), s.abortReq = false → s.isValid ra = true →
    ∃ t v, exec (.primetest rd ra) s = .next t ∧ WroteReg s t rd v ∧ (v = 0 ∨ v = 1) ∧
      (s.reg ra = 1 → v = 0) ∧
      ((∀ p, p.Prime → p ≤ 541 → ¬ p ∣ s.reg ra) → s.reg ra ≠ 1 →
        (∀ k, 2 ≤ (s.skipDraws k).drawn 2 (s.reg ra - 2) ∧
          (s.skipDraws k).drawn 2 (s.reg ra - 2) ≤ s.reg ra - 2) ∧
        (v = 1 ↔ ∀ k, k < s.mrk.toNat → RoundPasses (s.reg ra) ((s.skipDraws k).drawn 2 (s.reg ra - 2))) ∧
        (v = 1 → t.draws = s.draws + s.mrk.toNat))

/-- R165, the facts that hold for every sequence of draws: a prime gives 1, a table prime gives 1, a number with a
small factor that is no table prime gives 0, and n ≤ 1 gives 0. -/
def Obligations.PrimetestFactsForEveryDraw : Prop :=
  ∀ (s : State) (rd ra : Reg), s.abortReq = false → s.isValid ra = true →
    ((s.reg ra).Prime → ∃ t, exec (.primetest rd ra) s = .next t ∧ WroteReg s t rd 1) ∧
    (s.reg ra ∈ smallPrimes → ∃ t, exec (.primetest rd ra) s = .next t ∧ WroteReg s t rd 1) ∧
    (s.reg ra ∉ smallPrimes → (∃ p ∈ smallPrimes, p ∣ s.reg ra) →
      ∃ t, exec (.primetest rd ra) s = .next t ∧ WroteReg s t rd 0) ∧
    (s.reg ra ≤ 1 → ∃ t, exec (.primetest rd ra) s = .next t ∧ WroteReg s t rd 0)

/-! ### Converters and block codec (44_codec.md) -/

/-- LDB writes the big-endian integer of IN_BUF[ARG0 .. ARG0 + ARG1) (R182, 20_memory.md R71), and refuses a region past
the end with BUF_RANGE and then more bytes than W bits hold with INVALID_INPUT. -/
def Obligations.LdbLoadsABigEndianInteger : Prop :=
  (∀ (s : State) (rd : Reg), s.abortReq = false → s.arg0.toNat + s.arg1.toNat ≤ s.bufsz →
    8 * s.arg1.toNat ≤ s.width →
    ∃ t, exec (.ldb rd) s = .next t ∧ WroteReg s t rd
      (∑ i ∈ Finset.range s.arg1.toNat,
        (s.inByte (s.arg0.toNat + i)).toNat * 256 ^ (s.arg1.toNat - 1 - i))) ∧
  (∀ (s : State) (rd : Reg), s.bufsz < s.arg0.toNat + s.arg1.toNat →
    ∃ t, exec (.ldb rd) s = .next t ∧ EndedWith s t .bufRange) ∧
  (∀ (s : State) (rd : Reg), s.arg0.toNat + s.arg1.toNat ≤ s.bufsz → s.width < 8 * s.arg1.toNat →
    ∃ t, exec (.ldb rd) s = .next t ∧ EndedWith s t .invalidInput)

/-- STB in pad mode writes exactly ARG1 bytes, the k-th being v / 256^(ARG1 - 1 - k) mod 256; STB.L writes the
ceil(bitlen(v) / 8) bytes of v without leading zeros; XLEN counts them and every other byte of OUT_BUF stays (R181,
R183). The bytes start at OUT_BUF[ARG0]. A declared region past the end of OUT_BUF is refused with BUF_RANGE in both
modes, and then a value that does not fit ARG1 bytes with ENCODE_OVERFLOW; OUT_BUF and XLEN then stay. -/
def Obligations.StbStoresBigEndianBytes : Prop :=
  (∀ (s : State) (ra : Reg) (mode : Mode), s.abortReq = false → s.isValid ra = true →
    s.arg0.toNat + s.arg1.toNat ≤ s.bufsz → s.reg ra < 2 ^ (8 * s.arg1.toNat) →
    ∃ t len, exec (.stb ra mode) s = .next t ∧
      (mode = .pad → len = s.arg1.toNat) ∧ (mode = .legacy → len = (bitlen (s.reg ra) + 7) / 8) ∧
      (∀ a, (t.outByte a).toNat = if s.arg0.toNat ≤ a ∧ a < s.arg0.toNat + len
        then s.reg ra / 256 ^ (len - 1 - (a - s.arg0.toNat)) % 256 else (s.outByte a).toNat) ∧
      t.xLen = BitVec.ofNat 32 len ∧ t.outLen = s.outLen ∧ t.progress = s.progress ∧
      SameRegs s t ∧ SameInputs s t ∧ CompletedWith t none) ∧
  (∀ (s : State) (ra : Reg) (mode : Mode), s.isValid ra = true → s.bufsz < s.arg0.toNat + s.arg1.toNat →
    ∃ t, exec (.stb ra mode) s = .next t ∧ EndedWith s t .bufRange) ∧
  (∀ (s : State) (ra : Reg) (mode : Mode), s.abortReq = false → s.isValid ra = true →
    s.arg0.toNat + s.arg1.toNat ≤ s.bufsz → 2 ^ (8 * s.arg1.toNat) ≤ s.reg ra →
    ∃ t, exec (.stb ra mode) s = .next t ∧ EndedWith s t .encodeOverflow)

/-- R185: BENC and BDEC check VALID[ra], VALID[rc], INLEN ≤ BUFSZ and bitlen(x[rc]) ≥ 8 in this order, and a failed
check leaves OUT_BUF and OUTLEN, and all else but STATUS, unchanged. -/
def Obligations.CodecChecksComeFirst : Prop :=
  ∀ (s : State) (ra rc : Reg) (mode : Mode), ∀ i ∈ [Instr.benc ra rc mode, .bdec ra rc mode],
    (s.isValid ra = false ∨ s.isValid rc = false → ∃ t, exec i s = .next t ∧ EndedWith s t .unwritten) ∧
    (s.isValid ra = true → s.isValid rc = true → s.bufsz < s.inLen.toNat →
      ∃ t, exec i s = .next t ∧ EndedWith s t .bufRange) ∧
    (s.isValid ra = true → s.isValid rc = true → s.inLen.toNat ≤ s.bufsz → s.reg rc < 2 ^ 7 →
      ∃ t, exec i s = .next t ∧ EndedWith s t .invalidInput)

/-- BENC and BDEC write to OUT_BUF, from index 0 on, exactly the bytes of their blocks one after another, when every
block fits its width and all of them fit OUT_BUF; OUTLEN counts them, and every other byte stays (R186, R187). The
loop of the engine refines the function on byte strings. -/
def Obligations.CodecWritesItsBlocks : Prop :=
  (∀ (s : State) (ra rc : Reg) (mode : Mode) (out : List Byte), s.params.wf → s.abortReq = false →
    s.isValid ra = true → s.isValid rc = true → s.inLen.toNat ≤ s.bufsz → 2 ^ 7 ≤ s.reg rc →
    encrypted (s.reg ra) (s.reg rc) mode (s.readIn 0 s.inLen.toNat) = some out → out.length ≤ s.bufsz →
    ∃ t, exec (.benc ra rc mode) s = .next t ∧ OutWritten s t 0 out ∧ t.outLen.toNat = out.length ∧
      t.xLen = s.xLen ∧ SameRegs s t ∧ SameInputs s t ∧ CompletedWith t none) ∧
  (∀ (s : State) (ra rc : Reg) (mode : Mode) (out : List Byte), s.params.wf → s.abortReq = false →
    s.isValid ra = true → s.isValid rc = true → s.inLen.toNat ≤ s.bufsz → 2 ^ 7 ≤ s.reg rc →
    decrypted (s.reg ra) (s.reg rc) mode (s.readIn 0 s.inLen.toNat) = some out → out.length ≤ s.bufsz →
    ∃ t, exec (.bdec ra rc mode) s = .next t ∧ OutWritten s t 0 out ∧ t.outLen.toNat = out.length ∧
      t.xLen = s.xLen ∧ SameRegs s t ∧ SameInputs s t ∧ CompletedWith t none)

/-- However BENC or BDEC ends once its checks have passed, OUT_BUF holds every block it finished, for the whole
chunks it consumed, OUTLEN counts their bytes, and every byte at or after OUTLEN stays (R188). It ends for one of the
reasons of `LoopEnded` (R186, R187): normally with all input consumed, with ENCODE_OVERFLOW when the next value does
not fit its width, with BUF_RANGE when the next block would pass the end of OUT_BUF, or with ABORTED on request. The
consumed bytes are counted by the model's progress, which keeps its value after the command (log 16). -/
def Obligations.FinishedBlocksStayWritten : Prop :=
  (∀ (s : State) (ra rc : Reg) (mode : Mode), s.params.wf → s.isValid ra = true → s.isValid rc = true →
    s.inLen.toNat ≤ s.bufsz → 2 ^ 7 ≤ s.reg rc →
    ∃ t out, exec (.benc ra rc mode) s = .next t ∧ t.progress.consumed ≤ s.inLen.toNat ∧
      (t.progress.consumed % plainLen (s.reg rc) = 0 ∨ t.progress.consumed = s.inLen.toNat) ∧
      encrypted (s.reg ra) (s.reg rc) mode (s.readIn 0 t.progress.consumed) = some out ∧
      OutWritten s t 0 out ∧ t.outLen.toNat = out.length ∧
      LoopEnded s t.errCode t.progress.consumed out.length (plainLen (s.reg rc)) (cipherLen (s.reg rc))
        (s.reg ra) (s.reg rc) mode) ∧
  (∀ (s : State) (ra rc : Reg) (mode : Mode), s.params.wf → s.isValid ra = true → s.isValid rc = true →
    s.inLen.toNat ≤ s.bufsz → 2 ^ 7 ≤ s.reg rc →
    ∃ t out, exec (.bdec ra rc mode) s = .next t ∧ t.progress.consumed ≤ s.inLen.toNat ∧
      (t.progress.consumed % cipherLen (s.reg rc) = 0 ∨ t.progress.consumed = s.inLen.toNat) ∧
      decrypted (s.reg ra) (s.reg rc) mode (s.readIn 0 t.progress.consumed) = some out ∧
      OutWritten s t 0 out ∧ t.outLen.toNat = out.length ∧
      LoopEnded s t.errCode t.progress.consumed out.length (cipherLen (s.reg rc)) (plainLen (s.reg rc))
        (s.reg ra) (s.reg rc) mode)

/-- R193: INLEN = 0 gives OUTLEN = 0 for BENC and BDEC in both modes once the checks pass, and writes no byte. BENC
never ends with ENCODE_OVERFLOW, whatever its input (R186). -/
def Obligations.EmptyInputGivesEmptyOutput : Prop :=
  (∀ (s : State) (ra rc : Reg) (mode : Mode), s.isValid ra = true → s.isValid rc = true →
    2 ^ 7 ≤ s.reg rc → s.inLen = 0 → ∀ i ∈ [Instr.benc ra rc mode, .bdec ra rc mode],
    ∃ t, exec i s = .next t ∧ t.outLen = 0 ∧ (∀ a, t.outByte a = s.outByte a) ∧
      (s.abortReq = false → CompletedWith t none)) ∧
  (∀ (s t : State) (ra rc : Reg) (mode : Mode), exec (.benc ra rc mode) s = .next t →
    t.errCode ≠ some .encodeOverflow)

/-- The round-trip law of R194: with n = p * q for distinct primes, e * d = 1 modulo (p-1)(q-1), bitlen(n) no
multiple of 8 and INLEN a multiple of L_pt, BDEC on what a BENC of the same mode wrote gives back its input exactly; in
legacy mode, when every chunk's first byte is nonzero and every ciphertext block is at least 2^(8 * L_pt). -/
def Obligations.PadModeRoundTrips : Prop :=
  ∀ (p q : Nat) (s t s' : State) (ra rc ra' rc' : Reg) (mode : Mode),
    p.Prime → q.Prime → p ≠ q → s.reg rc = p * q → s.reg ra * s'.reg ra' % ((p - 1) * (q - 1)) = 1 →
    bitlen (p * q) % 8 ≠ 0 → s.inLen.toNat % plainLen (p * q) = 0 → s.params.wf → s'.params = s.params →
    (mode = .legacy → ∀ a, a < s.inLen.toNat → a % plainLen (p * q) = 0 → s.inByte a ≠ 0 ∧
      2 ^ (8 * plainLen (p * q)) ≤ beToInt (s.readIn a (plainLen (p * q))) ^ s.reg ra % (p * q)) →
    exec (.benc ra rc mode) s = .next t → t.errCode = none →
    s'.reg rc' = p * q → s'.isValid ra' = true → s'.isValid rc' = true → s'.abortReq = false →
    s'.inLen = t.outLen → (∀ a, a < t.outLen.toNat → s'.inByte a = t.outByte a) →
    ∃ t', exec (.bdec ra' rc' mode) s' = .next t' ∧ CompletedWith t' none ∧ t'.outLen = s.inLen ∧
      ∀ a, a < s.inLen.toNat → t'.outByte a = s.inByte a
end

