-- ==== Sys2Proof/Laws/State.lean ====
section
/-! SUPPORT. One lemma per field of State per update, each true by unfolding the update once, so that no later
proof unfolds a record update. -/

namespace Sys2Proof.Machine

variable (s : State)

/-! ### setReg -/

@[simp] theorem State.setReg_params (r : Reg) (v : Nat) : (s.setReg r v).params = s.params := rfl
@[simp] theorem State.setReg_regs (r : Reg) (v : Nat) : (s.setReg r v).regs = s.regs.set r.val v := rfl
@[simp] theorem State.setReg_valid (r : Reg) (v : Nat) : (s.setReg r v).valid = s.valid ||| BitVec.twoPow 16 r.val := rfl
@[simp] theorem State.setReg_ie (r : Reg) (v : Nat) : (s.setReg r v).ie = s.ie := rfl
@[simp] theorem State.setReg_done (r : Reg) (v : Nat) : (s.setReg r v).done = s.done := rfl
@[simp] theorem State.setReg_err (r : Reg) (v : Nat) : (s.setReg r v).err = s.err := rfl
@[simp] theorem State.setReg_ovr (r : Reg) (v : Nat) : (s.setReg r v).ovr = s.ovr := rfl
@[simp] theorem State.setReg_errCode (r : Reg) (v : Nat) : (s.setReg r v).errCode = s.errCode := rfl
@[simp] theorem State.setReg_cmd (r : Reg) (v : Nat) : (s.setReg r v).cmd = s.cmd := rfl
@[simp] theorem State.setReg_mrk (r : Reg) (v : Nat) : (s.setReg r v).mrk = s.mrk := rfl
@[simp] theorem State.setReg_arg0 (r : Reg) (v : Nat) : (s.setReg r v).arg0 = s.arg0 := rfl
@[simp] theorem State.setReg_arg1 (r : Reg) (v : Nat) : (s.setReg r v).arg1 = s.arg1 := rfl
@[simp] theorem State.setReg_inLen (r : Reg) (v : Nat) : (s.setReg r v).inLen = s.inLen := rfl
@[simp] theorem State.setReg_outLen (r : Reg) (v : Nat) : (s.setReg r v).outLen = s.outLen := rfl
@[simp] theorem State.setReg_xLen (r : Reg) (v : Nat) : (s.setReg r v).xLen = s.xLen := rfl
@[simp] theorem State.setReg_inBuf (r : Reg) (v : Nat) : (s.setReg r v).inBuf = s.inBuf := rfl
@[simp] theorem State.setReg_outBuf (r : Reg) (v : Nat) : (s.setReg r v).outBuf = s.outBuf := rfl
@[simp] theorem State.setReg_phase (r : Reg) (v : Nat) : (s.setReg r v).phase = s.phase := rfl
@[simp] theorem State.setReg_abortReq (r : Reg) (v : Nat) : (s.setReg r v).abortReq = s.abortReq := rfl
@[simp] theorem State.setReg_progress (r : Reg) (v : Nat) : (s.setReg r v).progress = s.progress := rfl
@[simp] theorem State.setReg_rst (r : Reg) (v : Nat) : (s.setReg r v).rst = s.rst := rfl
@[simp] theorem State.setReg_response (r : Reg) (v : Nat) : (s.setReg r v).response = s.response := rfl
@[simp] theorem State.setReg_inputs (r : Reg) (v : Nat) : (s.setReg r v).inputs = s.inputs := rfl
@[simp] theorem State.setReg_wait (r : Reg) (v : Nat) : (s.setReg r v).wait = s.wait := rfl
@[simp] theorem State.setReg_draws (r : Reg) (v : Nat) : (s.setReg r v).draws = s.draws := rfl
@[simp] theorem State.setReg_choices (r : Reg) (v : Nat) : (s.setReg r v).choices = s.choices := rfl
@[simp] theorem State.setReg_epoch (r : Reg) (v : Nat) : (s.setReg r v).epoch = s.epoch := rfl

/-! ### writeOut -/

@[simp] theorem State.writeOut_params (off : Nat) (bs : List Byte) : (s.writeOut off bs).params = s.params := rfl
@[simp] theorem State.writeOut_regs (off : Nat) (bs : List Byte) : (s.writeOut off bs).regs = s.regs := rfl
@[simp] theorem State.writeOut_valid (off : Nat) (bs : List Byte) : (s.writeOut off bs).valid = s.valid := rfl
@[simp] theorem State.writeOut_ie (off : Nat) (bs : List Byte) : (s.writeOut off bs).ie = s.ie := rfl
@[simp] theorem State.writeOut_done (off : Nat) (bs : List Byte) : (s.writeOut off bs).done = s.done := rfl
@[simp] theorem State.writeOut_err (off : Nat) (bs : List Byte) : (s.writeOut off bs).err = s.err := rfl
@[simp] theorem State.writeOut_ovr (off : Nat) (bs : List Byte) : (s.writeOut off bs).ovr = s.ovr := rfl
@[simp] theorem State.writeOut_errCode (off : Nat) (bs : List Byte) : (s.writeOut off bs).errCode = s.errCode := rfl
@[simp] theorem State.writeOut_cmd (off : Nat) (bs : List Byte) : (s.writeOut off bs).cmd = s.cmd := rfl
@[simp] theorem State.writeOut_mrk (off : Nat) (bs : List Byte) : (s.writeOut off bs).mrk = s.mrk := rfl
@[simp] theorem State.writeOut_arg0 (off : Nat) (bs : List Byte) : (s.writeOut off bs).arg0 = s.arg0 := rfl
@[simp] theorem State.writeOut_arg1 (off : Nat) (bs : List Byte) : (s.writeOut off bs).arg1 = s.arg1 := rfl
@[simp] theorem State.writeOut_inLen (off : Nat) (bs : List Byte) : (s.writeOut off bs).inLen = s.inLen := rfl
@[simp] theorem State.writeOut_outLen (off : Nat) (bs : List Byte) : (s.writeOut off bs).outLen = s.outLen := rfl
@[simp] theorem State.writeOut_xLen (off : Nat) (bs : List Byte) : (s.writeOut off bs).xLen = s.xLen := rfl
@[simp] theorem State.writeOut_inBuf (off : Nat) (bs : List Byte) : (s.writeOut off bs).inBuf = s.inBuf := rfl
@[simp] theorem State.writeOut_outBuf (off : Nat) (bs : List Byte) : (s.writeOut off bs).outBuf = s.outBuf.storeBytes off bs := rfl
@[simp] theorem State.writeOut_phase (off : Nat) (bs : List Byte) : (s.writeOut off bs).phase = s.phase := rfl
@[simp] theorem State.writeOut_abortReq (off : Nat) (bs : List Byte) : (s.writeOut off bs).abortReq = s.abortReq := rfl
@[simp] theorem State.writeOut_progress (off : Nat) (bs : List Byte) : (s.writeOut off bs).progress = s.progress := rfl
@[simp] theorem State.writeOut_rst (off : Nat) (bs : List Byte) : (s.writeOut off bs).rst = s.rst := rfl
@[simp] theorem State.writeOut_response (off : Nat) (bs : List Byte) : (s.writeOut off bs).response = s.response := rfl
@[simp] theorem State.writeOut_inputs (off : Nat) (bs : List Byte) : (s.writeOut off bs).inputs = s.inputs := rfl
@[simp] theorem State.writeOut_wait (off : Nat) (bs : List Byte) : (s.writeOut off bs).wait = s.wait := rfl
@[simp] theorem State.writeOut_draws (off : Nat) (bs : List Byte) : (s.writeOut off bs).draws = s.draws := rfl
@[simp] theorem State.writeOut_choices (off : Nat) (bs : List Byte) : (s.writeOut off bs).choices = s.choices := rfl
@[simp] theorem State.writeOut_epoch (off : Nat) (bs : List Byte) : (s.writeOut off bs).epoch = s.epoch := rfl

/-! ### writeIn -/

@[simp] theorem State.writeIn_params (off : Nat) (bs : List Byte) : (s.writeIn off bs).params = s.params := rfl
@[simp] theorem State.writeIn_regs (off : Nat) (bs : List Byte) : (s.writeIn off bs).regs = s.regs := rfl
@[simp] theorem State.writeIn_valid (off : Nat) (bs : List Byte) : (s.writeIn off bs).valid = s.valid := rfl
@[simp] theorem State.writeIn_ie (off : Nat) (bs : List Byte) : (s.writeIn off bs).ie = s.ie := rfl
@[simp] theorem State.writeIn_done (off : Nat) (bs : List Byte) : (s.writeIn off bs).done = s.done := rfl
@[simp] theorem State.writeIn_err (off : Nat) (bs : List Byte) : (s.writeIn off bs).err = s.err := rfl
@[simp] theorem State.writeIn_ovr (off : Nat) (bs : List Byte) : (s.writeIn off bs).ovr = s.ovr := rfl
@[simp] theorem State.writeIn_errCode (off : Nat) (bs : List Byte) : (s.writeIn off bs).errCode = s.errCode := rfl
@[simp] theorem State.writeIn_cmd (off : Nat) (bs : List Byte) : (s.writeIn off bs).cmd = s.cmd := rfl
@[simp] theorem State.writeIn_mrk (off : Nat) (bs : List Byte) : (s.writeIn off bs).mrk = s.mrk := rfl
@[simp] theorem State.writeIn_arg0 (off : Nat) (bs : List Byte) : (s.writeIn off bs).arg0 = s.arg0 := rfl
@[simp] theorem State.writeIn_arg1 (off : Nat) (bs : List Byte) : (s.writeIn off bs).arg1 = s.arg1 := rfl
@[simp] theorem State.writeIn_inLen (off : Nat) (bs : List Byte) : (s.writeIn off bs).inLen = s.inLen := rfl
@[simp] theorem State.writeIn_outLen (off : Nat) (bs : List Byte) : (s.writeIn off bs).outLen = s.outLen := rfl
@[simp] theorem State.writeIn_xLen (off : Nat) (bs : List Byte) : (s.writeIn off bs).xLen = s.xLen := rfl
@[simp] theorem State.writeIn_inBuf (off : Nat) (bs : List Byte) : (s.writeIn off bs).inBuf = s.inBuf.storeBytes off bs := rfl
@[simp] theorem State.writeIn_outBuf (off : Nat) (bs : List Byte) : (s.writeIn off bs).outBuf = s.outBuf := rfl
@[simp] theorem State.writeIn_phase (off : Nat) (bs : List Byte) : (s.writeIn off bs).phase = s.phase := rfl
@[simp] theorem State.writeIn_abortReq (off : Nat) (bs : List Byte) : (s.writeIn off bs).abortReq = s.abortReq := rfl
@[simp] theorem State.writeIn_progress (off : Nat) (bs : List Byte) : (s.writeIn off bs).progress = s.progress := rfl
@[simp] theorem State.writeIn_rst (off : Nat) (bs : List Byte) : (s.writeIn off bs).rst = s.rst := rfl
@[simp] theorem State.writeIn_response (off : Nat) (bs : List Byte) : (s.writeIn off bs).response = s.response := rfl
@[simp] theorem State.writeIn_inputs (off : Nat) (bs : List Byte) : (s.writeIn off bs).inputs = s.inputs := rfl
@[simp] theorem State.writeIn_wait (off : Nat) (bs : List Byte) : (s.writeIn off bs).wait = s.wait := rfl
@[simp] theorem State.writeIn_draws (off : Nat) (bs : List Byte) : (s.writeIn off bs).draws = s.draws := rfl
@[simp] theorem State.writeIn_choices (off : Nat) (bs : List Byte) : (s.writeIn off bs).choices = s.choices := rfl
@[simp] theorem State.writeIn_epoch (off : Nat) (bs : List Byte) : (s.writeIn off bs).epoch = s.epoch := rfl

/-! ### setOutLen -/

@[simp] theorem State.setOutLen_params (n : Nat) : (s.setOutLen n).params = s.params := rfl
@[simp] theorem State.setOutLen_regs (n : Nat) : (s.setOutLen n).regs = s.regs := rfl
@[simp] theorem State.setOutLen_valid (n : Nat) : (s.setOutLen n).valid = s.valid := rfl
@[simp] theorem State.setOutLen_ie (n : Nat) : (s.setOutLen n).ie = s.ie := rfl
@[simp] theorem State.setOutLen_done (n : Nat) : (s.setOutLen n).done = s.done := rfl
@[simp] theorem State.setOutLen_err (n : Nat) : (s.setOutLen n).err = s.err := rfl
@[simp] theorem State.setOutLen_ovr (n : Nat) : (s.setOutLen n).ovr = s.ovr := rfl
@[simp] theorem State.setOutLen_errCode (n : Nat) : (s.setOutLen n).errCode = s.errCode := rfl
@[simp] theorem State.setOutLen_cmd (n : Nat) : (s.setOutLen n).cmd = s.cmd := rfl
@[simp] theorem State.setOutLen_mrk (n : Nat) : (s.setOutLen n).mrk = s.mrk := rfl
@[simp] theorem State.setOutLen_arg0 (n : Nat) : (s.setOutLen n).arg0 = s.arg0 := rfl
@[simp] theorem State.setOutLen_arg1 (n : Nat) : (s.setOutLen n).arg1 = s.arg1 := rfl
@[simp] theorem State.setOutLen_inLen (n : Nat) : (s.setOutLen n).inLen = s.inLen := rfl
@[simp] theorem State.setOutLen_outLen (n : Nat) : (s.setOutLen n).outLen = BitVec.ofNat 32 n := rfl
@[simp] theorem State.setOutLen_xLen (n : Nat) : (s.setOutLen n).xLen = s.xLen := rfl
@[simp] theorem State.setOutLen_inBuf (n : Nat) : (s.setOutLen n).inBuf = s.inBuf := rfl
@[simp] theorem State.setOutLen_outBuf (n : Nat) : (s.setOutLen n).outBuf = s.outBuf := rfl
@[simp] theorem State.setOutLen_phase (n : Nat) : (s.setOutLen n).phase = s.phase := rfl
@[simp] theorem State.setOutLen_abortReq (n : Nat) : (s.setOutLen n).abortReq = s.abortReq := rfl
@[simp] theorem State.setOutLen_progress (n : Nat) : (s.setOutLen n).progress = s.progress := rfl
@[simp] theorem State.setOutLen_rst (n : Nat) : (s.setOutLen n).rst = s.rst := rfl
@[simp] theorem State.setOutLen_response (n : Nat) : (s.setOutLen n).response = s.response := rfl
@[simp] theorem State.setOutLen_inputs (n : Nat) : (s.setOutLen n).inputs = s.inputs := rfl
@[simp] theorem State.setOutLen_wait (n : Nat) : (s.setOutLen n).wait = s.wait := rfl
@[simp] theorem State.setOutLen_draws (n : Nat) : (s.setOutLen n).draws = s.draws := rfl
@[simp] theorem State.setOutLen_choices (n : Nat) : (s.setOutLen n).choices = s.choices := rfl
@[simp] theorem State.setOutLen_epoch (n : Nat) : (s.setOutLen n).epoch = s.epoch := rfl

/-! ### setXLen -/

@[simp] theorem State.setXLen_params (n : Nat) : (s.setXLen n).params = s.params := rfl
@[simp] theorem State.setXLen_regs (n : Nat) : (s.setXLen n).regs = s.regs := rfl
@[simp] theorem State.setXLen_valid (n : Nat) : (s.setXLen n).valid = s.valid := rfl
@[simp] theorem State.setXLen_ie (n : Nat) : (s.setXLen n).ie = s.ie := rfl
@[simp] theorem State.setXLen_done (n : Nat) : (s.setXLen n).done = s.done := rfl
@[simp] theorem State.setXLen_err (n : Nat) : (s.setXLen n).err = s.err := rfl
@[simp] theorem State.setXLen_ovr (n : Nat) : (s.setXLen n).ovr = s.ovr := rfl
@[simp] theorem State.setXLen_errCode (n : Nat) : (s.setXLen n).errCode = s.errCode := rfl
@[simp] theorem State.setXLen_cmd (n : Nat) : (s.setXLen n).cmd = s.cmd := rfl
@[simp] theorem State.setXLen_mrk (n : Nat) : (s.setXLen n).mrk = s.mrk := rfl
@[simp] theorem State.setXLen_arg0 (n : Nat) : (s.setXLen n).arg0 = s.arg0 := rfl
@[simp] theorem State.setXLen_arg1 (n : Nat) : (s.setXLen n).arg1 = s.arg1 := rfl
@[simp] theorem State.setXLen_inLen (n : Nat) : (s.setXLen n).inLen = s.inLen := rfl
@[simp] theorem State.setXLen_outLen (n : Nat) : (s.setXLen n).outLen = s.outLen := rfl
@[simp] theorem State.setXLen_xLen (n : Nat) : (s.setXLen n).xLen = BitVec.ofNat 32 n := rfl
@[simp] theorem State.setXLen_inBuf (n : Nat) : (s.setXLen n).inBuf = s.inBuf := rfl
@[simp] theorem State.setXLen_outBuf (n : Nat) : (s.setXLen n).outBuf = s.outBuf := rfl
@[simp] theorem State.setXLen_phase (n : Nat) : (s.setXLen n).phase = s.phase := rfl
@[simp] theorem State.setXLen_abortReq (n : Nat) : (s.setXLen n).abortReq = s.abortReq := rfl
@[simp] theorem State.setXLen_progress (n : Nat) : (s.setXLen n).progress = s.progress := rfl
@[simp] theorem State.setXLen_rst (n : Nat) : (s.setXLen n).rst = s.rst := rfl
@[simp] theorem State.setXLen_response (n : Nat) : (s.setXLen n).response = s.response := rfl
@[simp] theorem State.setXLen_inputs (n : Nat) : (s.setXLen n).inputs = s.inputs := rfl
@[simp] theorem State.setXLen_wait (n : Nat) : (s.setXLen n).wait = s.wait := rfl
@[simp] theorem State.setXLen_draws (n : Nat) : (s.setXLen n).draws = s.draws := rfl
@[simp] theorem State.setXLen_choices (n : Nat) : (s.setXLen n).choices = s.choices := rfl
@[simp] theorem State.setXLen_epoch (n : Nat) : (s.setXLen n).epoch = s.epoch := rfl

/-! ### setProgress -/

@[simp] theorem State.setProgress_params (i o : Nat) : (s.setProgress i o).params = s.params := rfl
@[simp] theorem State.setProgress_regs (i o : Nat) : (s.setProgress i o).regs = s.regs := rfl
@[simp] theorem State.setProgress_valid (i o : Nat) : (s.setProgress i o).valid = s.valid := rfl
@[simp] theorem State.setProgress_ie (i o : Nat) : (s.setProgress i o).ie = s.ie := rfl
@[simp] theorem State.setProgress_done (i o : Nat) : (s.setProgress i o).done = s.done := rfl
@[simp] theorem State.setProgress_err (i o : Nat) : (s.setProgress i o).err = s.err := rfl
@[simp] theorem State.setProgress_ovr (i o : Nat) : (s.setProgress i o).ovr = s.ovr := rfl
@[simp] theorem State.setProgress_errCode (i o : Nat) : (s.setProgress i o).errCode = s.errCode := rfl
@[simp] theorem State.setProgress_cmd (i o : Nat) : (s.setProgress i o).cmd = s.cmd := rfl
@[simp] theorem State.setProgress_mrk (i o : Nat) : (s.setProgress i o).mrk = s.mrk := rfl
@[simp] theorem State.setProgress_arg0 (i o : Nat) : (s.setProgress i o).arg0 = s.arg0 := rfl
@[simp] theorem State.setProgress_arg1 (i o : Nat) : (s.setProgress i o).arg1 = s.arg1 := rfl
@[simp] theorem State.setProgress_inLen (i o : Nat) : (s.setProgress i o).inLen = s.inLen := rfl
@[simp] theorem State.setProgress_outLen (i o : Nat) : (s.setProgress i o).outLen = s.outLen := rfl
@[simp] theorem State.setProgress_xLen (i o : Nat) : (s.setProgress i o).xLen = s.xLen := rfl
@[simp] theorem State.setProgress_inBuf (i o : Nat) : (s.setProgress i o).inBuf = s.inBuf := rfl
@[simp] theorem State.setProgress_outBuf (i o : Nat) : (s.setProgress i o).outBuf = s.outBuf := rfl
@[simp] theorem State.setProgress_phase (i o : Nat) : (s.setProgress i o).phase = s.phase := rfl
@[simp] theorem State.setProgress_abortReq (i o : Nat) : (s.setProgress i o).abortReq = s.abortReq := rfl
@[simp] theorem State.setProgress_progress (i o : Nat) : (s.setProgress i o).progress = { consumed := i, written := o } := rfl
@[simp] theorem State.setProgress_rst (i o : Nat) : (s.setProgress i o).rst = s.rst := rfl
@[simp] theorem State.setProgress_response (i o : Nat) : (s.setProgress i o).response = s.response := rfl
@[simp] theorem State.setProgress_inputs (i o : Nat) : (s.setProgress i o).inputs = s.inputs := rfl
@[simp] theorem State.setProgress_wait (i o : Nat) : (s.setProgress i o).wait = s.wait := rfl
@[simp] theorem State.setProgress_draws (i o : Nat) : (s.setProgress i o).draws = s.draws := rfl
@[simp] theorem State.setProgress_choices (i o : Nat) : (s.setProgress i o).choices = s.choices := rfl
@[simp] theorem State.setProgress_epoch (i o : Nat) : (s.setProgress i o).epoch = s.epoch := rfl

/-! ### tick -/

@[simp] theorem State.tick_params : s.tick.params = s.params := rfl
@[simp] theorem State.tick_regs : s.tick.regs = s.regs := rfl
@[simp] theorem State.tick_valid : s.tick.valid = s.valid := rfl
@[simp] theorem State.tick_ie : s.tick.ie = s.ie := rfl
@[simp] theorem State.tick_done : s.tick.done = s.done := rfl
@[simp] theorem State.tick_err : s.tick.err = s.err := rfl
@[simp] theorem State.tick_ovr : s.tick.ovr = s.ovr := rfl
@[simp] theorem State.tick_errCode : s.tick.errCode = s.errCode := rfl
@[simp] theorem State.tick_cmd : s.tick.cmd = s.cmd := rfl
@[simp] theorem State.tick_mrk : s.tick.mrk = s.mrk := rfl
@[simp] theorem State.tick_arg0 : s.tick.arg0 = s.arg0 := rfl
@[simp] theorem State.tick_arg1 : s.tick.arg1 = s.arg1 := rfl
@[simp] theorem State.tick_inLen : s.tick.inLen = s.inLen := rfl
@[simp] theorem State.tick_outLen : s.tick.outLen = s.outLen := rfl
@[simp] theorem State.tick_xLen : s.tick.xLen = s.xLen := rfl
@[simp] theorem State.tick_inBuf : s.tick.inBuf = s.inBuf := rfl
@[simp] theorem State.tick_outBuf : s.tick.outBuf = s.outBuf := rfl
@[simp] theorem State.tick_phase : s.tick.phase = s.phase := rfl
@[simp] theorem State.tick_abortReq : s.tick.abortReq = s.abortReq := rfl
@[simp] theorem State.tick_progress : s.tick.progress = s.progress := rfl
@[simp] theorem State.tick_rst : s.tick.rst = s.rst := rfl
@[simp] theorem State.tick_response : s.tick.response = s.response := rfl
@[simp] theorem State.tick_inputs : s.tick.inputs = s.inputs := rfl
@[simp] theorem State.tick_wait : s.tick.wait = s.wait := rfl
@[simp] theorem State.tick_draws : s.tick.draws = s.draws + 1 := rfl
@[simp] theorem State.tick_choices : s.tick.choices = s.choices := rfl
@[simp] theorem State.tick_epoch : s.tick.epoch = s.epoch := rfl

/-! ### setChoices -/

@[simp] theorem State.setChoices_params (k : Nat) : (s.setChoices k).params = s.params := rfl
@[simp] theorem State.setChoices_regs (k : Nat) : (s.setChoices k).regs = s.regs := rfl
@[simp] theorem State.setChoices_valid (k : Nat) : (s.setChoices k).valid = s.valid := rfl
@[simp] theorem State.setChoices_ie (k : Nat) : (s.setChoices k).ie = s.ie := rfl
@[simp] theorem State.setChoices_done (k : Nat) : (s.setChoices k).done = s.done := rfl
@[simp] theorem State.setChoices_err (k : Nat) : (s.setChoices k).err = s.err := rfl
@[simp] theorem State.setChoices_ovr (k : Nat) : (s.setChoices k).ovr = s.ovr := rfl
@[simp] theorem State.setChoices_errCode (k : Nat) : (s.setChoices k).errCode = s.errCode := rfl
@[simp] theorem State.setChoices_cmd (k : Nat) : (s.setChoices k).cmd = s.cmd := rfl
@[simp] theorem State.setChoices_mrk (k : Nat) : (s.setChoices k).mrk = s.mrk := rfl
@[simp] theorem State.setChoices_arg0 (k : Nat) : (s.setChoices k).arg0 = s.arg0 := rfl
@[simp] theorem State.setChoices_arg1 (k : Nat) : (s.setChoices k).arg1 = s.arg1 := rfl
@[simp] theorem State.setChoices_inLen (k : Nat) : (s.setChoices k).inLen = s.inLen := rfl
@[simp] theorem State.setChoices_outLen (k : Nat) : (s.setChoices k).outLen = s.outLen := rfl
@[simp] theorem State.setChoices_xLen (k : Nat) : (s.setChoices k).xLen = s.xLen := rfl
@[simp] theorem State.setChoices_inBuf (k : Nat) : (s.setChoices k).inBuf = s.inBuf := rfl
@[simp] theorem State.setChoices_outBuf (k : Nat) : (s.setChoices k).outBuf = s.outBuf := rfl
@[simp] theorem State.setChoices_phase (k : Nat) : (s.setChoices k).phase = s.phase := rfl
@[simp] theorem State.setChoices_abortReq (k : Nat) : (s.setChoices k).abortReq = s.abortReq := rfl
@[simp] theorem State.setChoices_progress (k : Nat) : (s.setChoices k).progress = s.progress := rfl
@[simp] theorem State.setChoices_rst (k : Nat) : (s.setChoices k).rst = s.rst := rfl
@[simp] theorem State.setChoices_response (k : Nat) : (s.setChoices k).response = s.response := rfl
@[simp] theorem State.setChoices_inputs (k : Nat) : (s.setChoices k).inputs = s.inputs := rfl
@[simp] theorem State.setChoices_wait (k : Nat) : (s.setChoices k).wait = s.wait := rfl
@[simp] theorem State.setChoices_draws (k : Nat) : (s.setChoices k).draws = s.draws := rfl
@[simp] theorem State.setChoices_choices (k : Nat) : (s.setChoices k).choices = k := rfl
@[simp] theorem State.setChoices_epoch (k : Nat) : (s.setChoices k).epoch = s.epoch := rfl

/-! ### latch -/

@[simp] theorem State.latch_params (v : Word) : (s.latch v).params = s.params := rfl
@[simp] theorem State.latch_regs (v : Word) : (s.latch v).regs = s.regs := rfl
@[simp] theorem State.latch_valid (v : Word) : (s.latch v).valid = s.valid := rfl
@[simp] theorem State.latch_ie (v : Word) : (s.latch v).ie = s.ie := rfl
@[simp] theorem State.latch_done (v : Word) : (s.latch v).done = false := rfl
@[simp] theorem State.latch_err (v : Word) : (s.latch v).err = false := rfl
@[simp] theorem State.latch_ovr (v : Word) : (s.latch v).ovr = s.ovr := rfl
@[simp] theorem State.latch_errCode (v : Word) : (s.latch v).errCode = none := rfl
@[simp] theorem State.latch_cmd (v : Word) : (s.latch v).cmd = v := rfl
@[simp] theorem State.latch_mrk (v : Word) : (s.latch v).mrk = s.mrk := rfl
@[simp] theorem State.latch_arg0 (v : Word) : (s.latch v).arg0 = s.arg0 := rfl
@[simp] theorem State.latch_arg1 (v : Word) : (s.latch v).arg1 = s.arg1 := rfl
@[simp] theorem State.latch_inLen (v : Word) : (s.latch v).inLen = s.inLen := rfl
@[simp] theorem State.latch_outLen (v : Word) : (s.latch v).outLen = s.outLen := rfl
@[simp] theorem State.latch_xLen (v : Word) : (s.latch v).xLen = s.xLen := rfl
@[simp] theorem State.latch_inBuf (v : Word) : (s.latch v).inBuf = s.inBuf := rfl
@[simp] theorem State.latch_outBuf (v : Word) : (s.latch v).outBuf = s.outBuf := rfl
@[simp] theorem State.latch_phase (v : Word) : (s.latch v).phase = .busy := rfl
@[simp] theorem State.latch_abortReq (v : Word) : (s.latch v).abortReq = false := rfl
@[simp] theorem State.latch_progress (v : Word) : (s.latch v).progress = s.progress := rfl
@[simp] theorem State.latch_rst (v : Word) : (s.latch v).rst = s.rst := rfl
@[simp] theorem State.latch_response (v : Word) : (s.latch v).response = s.response := rfl
@[simp] theorem State.latch_inputs (v : Word) : (s.latch v).inputs = s.inputs := rfl
@[simp] theorem State.latch_wait (v : Word) : (s.latch v).wait = s.wait := rfl
@[simp] theorem State.latch_draws (v : Word) : (s.latch v).draws = s.draws := rfl
@[simp] theorem State.latch_choices (v : Word) : (s.latch v).choices = s.choices := rfl
@[simp] theorem State.latch_epoch (v : Word) : (s.latch v).epoch = s.epoch := rfl

/-! ### accept -/

@[simp] theorem State.accept_params (v : Word) : (s.accept v).params = s.params := rfl
@[simp] theorem State.accept_regs (v : Word) : (s.accept v).regs = s.regs := rfl
@[simp] theorem State.accept_valid (v : Word) : (s.accept v).valid = s.valid := rfl
@[simp] theorem State.accept_ie (v : Word) : (s.accept v).ie = s.ie := rfl
@[simp] theorem State.accept_done (v : Word) : (s.accept v).done = false := rfl
@[simp] theorem State.accept_err (v : Word) : (s.accept v).err = false := rfl
@[simp] theorem State.accept_ovr (v : Word) : (s.accept v).ovr = s.ovr := rfl
@[simp] theorem State.accept_errCode (v : Word) : (s.accept v).errCode = none := rfl
@[simp] theorem State.accept_cmd (v : Word) : (s.accept v).cmd = v := rfl
@[simp] theorem State.accept_mrk (v : Word) : (s.accept v).mrk = s.mrk := rfl
@[simp] theorem State.accept_arg0 (v : Word) : (s.accept v).arg0 = s.arg0 := rfl
@[simp] theorem State.accept_arg1 (v : Word) : (s.accept v).arg1 = s.arg1 := rfl
@[simp] theorem State.accept_inLen (v : Word) : (s.accept v).inLen = s.inLen := rfl
@[simp] theorem State.accept_outLen (v : Word) : (s.accept v).outLen = s.outLen := rfl
@[simp] theorem State.accept_xLen (v : Word) : (s.accept v).xLen = s.xLen := rfl
@[simp] theorem State.accept_inBuf (v : Word) : (s.accept v).inBuf = s.inBuf := rfl
@[simp] theorem State.accept_outBuf (v : Word) : (s.accept v).outBuf = s.outBuf := rfl
@[simp] theorem State.accept_phase (v : Word) : (s.accept v).phase = .busy := rfl
@[simp] theorem State.accept_abortReq (v : Word) : (s.accept v).abortReq = false := rfl
@[simp] theorem State.accept_progress (v : Word) : (s.accept v).progress = s.progress := rfl
@[simp] theorem State.accept_rst (v : Word) : (s.accept v).rst = s.rst := rfl
@[simp] theorem State.accept_response (v : Word) : (s.accept v).response = s.response := rfl
@[simp] theorem State.accept_inputs (v : Word) : (s.accept v).inputs = s.inputs := rfl
@[simp] theorem State.accept_wait (v : Word) : (s.accept v).wait = Config.latency s.draws := rfl
@[simp] theorem State.accept_draws (v : Word) : (s.accept v).draws = s.draws + 1 := rfl
@[simp] theorem State.accept_choices (v : Word) : (s.accept v).choices = s.choices := rfl
@[simp] theorem State.accept_epoch (v : Word) : (s.accept v).epoch = s.epoch := rfl

/-! ### complete -/

@[simp] theorem State.complete_params (e : Option ErrorCode) : (s.complete e).params = s.params := rfl
@[simp] theorem State.complete_regs (e : Option ErrorCode) : (s.complete e).regs = s.regs := rfl
@[simp] theorem State.complete_valid (e : Option ErrorCode) : (s.complete e).valid = s.valid := rfl
@[simp] theorem State.complete_ie (e : Option ErrorCode) : (s.complete e).ie = s.ie := rfl
@[simp] theorem State.complete_done (e : Option ErrorCode) : (s.complete e).done = true := rfl
@[simp] theorem State.complete_err (e : Option ErrorCode) : (s.complete e).err = e.isSome := rfl
@[simp] theorem State.complete_ovr (e : Option ErrorCode) : (s.complete e).ovr = s.ovr := rfl
@[simp] theorem State.complete_errCode (e : Option ErrorCode) : (s.complete e).errCode = e := rfl
@[simp] theorem State.complete_cmd (e : Option ErrorCode) : (s.complete e).cmd = s.cmd := rfl
@[simp] theorem State.complete_mrk (e : Option ErrorCode) : (s.complete e).mrk = s.mrk := rfl
@[simp] theorem State.complete_arg0 (e : Option ErrorCode) : (s.complete e).arg0 = s.arg0 := rfl
@[simp] theorem State.complete_arg1 (e : Option ErrorCode) : (s.complete e).arg1 = s.arg1 := rfl
@[simp] theorem State.complete_inLen (e : Option ErrorCode) : (s.complete e).inLen = s.inLen := rfl
@[simp] theorem State.complete_outLen (e : Option ErrorCode) : (s.complete e).outLen = s.outLen := rfl
@[simp] theorem State.complete_xLen (e : Option ErrorCode) : (s.complete e).xLen = s.xLen := rfl
@[simp] theorem State.complete_inBuf (e : Option ErrorCode) : (s.complete e).inBuf = s.inBuf := rfl
@[simp] theorem State.complete_outBuf (e : Option ErrorCode) : (s.complete e).outBuf = s.outBuf := rfl
@[simp] theorem State.complete_phase (e : Option ErrorCode) : (s.complete e).phase = .idle := rfl
@[simp] theorem State.complete_abortReq (e : Option ErrorCode) : (s.complete e).abortReq = false := rfl
@[simp] theorem State.complete_progress (e : Option ErrorCode) : (s.complete e).progress = s.progress := rfl
@[simp] theorem State.complete_rst (e : Option ErrorCode) : (s.complete e).rst = s.rst := rfl
@[simp] theorem State.complete_response (e : Option ErrorCode) : (s.complete e).response = s.response := rfl
@[simp] theorem State.complete_inputs (e : Option ErrorCode) : (s.complete e).inputs = s.inputs := rfl
@[simp] theorem State.complete_wait (e : Option ErrorCode) : (s.complete e).wait = s.wait := rfl
@[simp] theorem State.complete_draws (e : Option ErrorCode) : (s.complete e).draws = s.draws := rfl
@[simp] theorem State.complete_choices (e : Option ErrorCode) : (s.complete e).choices = s.choices := rfl
@[simp] theorem State.complete_epoch (e : Option ErrorCode) : (s.complete e).epoch = s.epoch := rfl

/-! ### respond -/

@[simp] theorem State.respond_params (b : BusStatus) (d : Word) : (s.respond b d).params = s.params := rfl
@[simp] theorem State.respond_regs (b : BusStatus) (d : Word) : (s.respond b d).regs = s.regs := rfl
@[simp] theorem State.respond_valid (b : BusStatus) (d : Word) : (s.respond b d).valid = s.valid := rfl
@[simp] theorem State.respond_ie (b : BusStatus) (d : Word) : (s.respond b d).ie = s.ie := rfl
@[simp] theorem State.respond_done (b : BusStatus) (d : Word) : (s.respond b d).done = s.done := rfl
@[simp] theorem State.respond_err (b : BusStatus) (d : Word) : (s.respond b d).err = s.err := rfl
@[simp] theorem State.respond_ovr (b : BusStatus) (d : Word) : (s.respond b d).ovr = s.ovr := rfl
@[simp] theorem State.respond_errCode (b : BusStatus) (d : Word) : (s.respond b d).errCode = s.errCode := rfl
@[simp] theorem State.respond_cmd (b : BusStatus) (d : Word) : (s.respond b d).cmd = s.cmd := rfl
@[simp] theorem State.respond_mrk (b : BusStatus) (d : Word) : (s.respond b d).mrk = s.mrk := rfl
@[simp] theorem State.respond_arg0 (b : BusStatus) (d : Word) : (s.respond b d).arg0 = s.arg0 := rfl
@[simp] theorem State.respond_arg1 (b : BusStatus) (d : Word) : (s.respond b d).arg1 = s.arg1 := rfl
@[simp] theorem State.respond_inLen (b : BusStatus) (d : Word) : (s.respond b d).inLen = s.inLen := rfl
@[simp] theorem State.respond_outLen (b : BusStatus) (d : Word) : (s.respond b d).outLen = s.outLen := rfl
@[simp] theorem State.respond_xLen (b : BusStatus) (d : Word) : (s.respond b d).xLen = s.xLen := rfl
@[simp] theorem State.respond_inBuf (b : BusStatus) (d : Word) : (s.respond b d).inBuf = s.inBuf := rfl
@[simp] theorem State.respond_outBuf (b : BusStatus) (d : Word) : (s.respond b d).outBuf = s.outBuf := rfl
@[simp] theorem State.respond_phase (b : BusStatus) (d : Word) : (s.respond b d).phase = s.phase := rfl
@[simp] theorem State.respond_abortReq (b : BusStatus) (d : Word) : (s.respond b d).abortReq = s.abortReq := rfl
@[simp] theorem State.respond_progress (b : BusStatus) (d : Word) : (s.respond b d).progress = s.progress := rfl
@[simp] theorem State.respond_rst (b : BusStatus) (d : Word) : (s.respond b d).rst = s.rst := rfl
@[simp] theorem State.respond_response (b : BusStatus) (d : Word) : (s.respond b d).response = some { status := b, data := d } := rfl
@[simp] theorem State.respond_inputs (b : BusStatus) (d : Word) : (s.respond b d).inputs = s.inputs := rfl
@[simp] theorem State.respond_wait (b : BusStatus) (d : Word) : (s.respond b d).wait = s.wait := rfl
@[simp] theorem State.respond_draws (b : BusStatus) (d : Word) : (s.respond b d).draws = s.draws := rfl
@[simp] theorem State.respond_choices (b : BusStatus) (d : Word) : (s.respond b d).choices = s.choices := rfl
@[simp] theorem State.respond_epoch (b : BusStatus) (d : Word) : (s.respond b d).epoch = s.epoch := rfl

/-! ### setOvr -/

@[simp] theorem State.setOvr_params : s.setOvr.params = s.params := rfl
@[simp] theorem State.setOvr_regs : s.setOvr.regs = s.regs := rfl
@[simp] theorem State.setOvr_valid : s.setOvr.valid = s.valid := rfl
@[simp] theorem State.setOvr_ie : s.setOvr.ie = s.ie := rfl
@[simp] theorem State.setOvr_done : s.setOvr.done = s.done := rfl
@[simp] theorem State.setOvr_err : s.setOvr.err = s.err := rfl
@[simp] theorem State.setOvr_ovr : s.setOvr.ovr = true := rfl
@[simp] theorem State.setOvr_errCode : s.setOvr.errCode = s.errCode := rfl
@[simp] theorem State.setOvr_cmd : s.setOvr.cmd = s.cmd := rfl
@[simp] theorem State.setOvr_mrk : s.setOvr.mrk = s.mrk := rfl
@[simp] theorem State.setOvr_arg0 : s.setOvr.arg0 = s.arg0 := rfl
@[simp] theorem State.setOvr_arg1 : s.setOvr.arg1 = s.arg1 := rfl
@[simp] theorem State.setOvr_inLen : s.setOvr.inLen = s.inLen := rfl
@[simp] theorem State.setOvr_outLen : s.setOvr.outLen = s.outLen := rfl
@[simp] theorem State.setOvr_xLen : s.setOvr.xLen = s.xLen := rfl
@[simp] theorem State.setOvr_inBuf : s.setOvr.inBuf = s.inBuf := rfl
@[simp] theorem State.setOvr_outBuf : s.setOvr.outBuf = s.outBuf := rfl
@[simp] theorem State.setOvr_phase : s.setOvr.phase = s.phase := rfl
@[simp] theorem State.setOvr_abortReq : s.setOvr.abortReq = s.abortReq := rfl
@[simp] theorem State.setOvr_progress : s.setOvr.progress = s.progress := rfl
@[simp] theorem State.setOvr_rst : s.setOvr.rst = s.rst := rfl
@[simp] theorem State.setOvr_response : s.setOvr.response = s.response := rfl
@[simp] theorem State.setOvr_inputs : s.setOvr.inputs = s.inputs := rfl
@[simp] theorem State.setOvr_wait : s.setOvr.wait = s.wait := rfl
@[simp] theorem State.setOvr_draws : s.setOvr.draws = s.draws := rfl
@[simp] theorem State.setOvr_choices : s.setOvr.choices = s.choices := rfl
@[simp] theorem State.setOvr_epoch : s.setOvr.epoch = s.epoch := rfl

/-! ### writeStatus -/

@[simp] theorem State.writeStatus_params (v : Word) : (s.writeStatus v).params = s.params := rfl
@[simp] theorem State.writeStatus_regs (v : Word) : (s.writeStatus v).regs = s.regs := rfl
@[simp] theorem State.writeStatus_valid (v : Word) : (s.writeStatus v).valid = s.valid := rfl
@[simp] theorem State.writeStatus_ie (v : Word) : (s.writeStatus v).ie = s.ie := rfl
@[simp] theorem State.writeStatus_done (v : Word) : (s.writeStatus v).done = (s.done && !v.getLsbD 1) := rfl
@[simp] theorem State.writeStatus_err (v : Word) : (s.writeStatus v).err = (s.err && !v.getLsbD 2) := rfl
@[simp] theorem State.writeStatus_ovr (v : Word) : (s.writeStatus v).ovr = (s.ovr && !v.getLsbD 3) := rfl
@[simp] theorem State.writeStatus_errCode (v : Word) : (s.writeStatus v).errCode = s.errCode := rfl
@[simp] theorem State.writeStatus_cmd (v : Word) : (s.writeStatus v).cmd = s.cmd := rfl
@[simp] theorem State.writeStatus_mrk (v : Word) : (s.writeStatus v).mrk = s.mrk := rfl
@[simp] theorem State.writeStatus_arg0 (v : Word) : (s.writeStatus v).arg0 = s.arg0 := rfl
@[simp] theorem State.writeStatus_arg1 (v : Word) : (s.writeStatus v).arg1 = s.arg1 := rfl
@[simp] theorem State.writeStatus_inLen (v : Word) : (s.writeStatus v).inLen = s.inLen := rfl
@[simp] theorem State.writeStatus_outLen (v : Word) : (s.writeStatus v).outLen = s.outLen := rfl
@[simp] theorem State.writeStatus_xLen (v : Word) : (s.writeStatus v).xLen = s.xLen := rfl
@[simp] theorem State.writeStatus_inBuf (v : Word) : (s.writeStatus v).inBuf = s.inBuf := rfl
@[simp] theorem State.writeStatus_outBuf (v : Word) : (s.writeStatus v).outBuf = s.outBuf := rfl
@[simp] theorem State.writeStatus_phase (v : Word) : (s.writeStatus v).phase = s.phase := rfl
@[simp] theorem State.writeStatus_abortReq (v : Word) : (s.writeStatus v).abortReq = s.abortReq := rfl
@[simp] theorem State.writeStatus_progress (v : Word) : (s.writeStatus v).progress = s.progress := rfl
@[simp] theorem State.writeStatus_rst (v : Word) : (s.writeStatus v).rst = s.rst := rfl
@[simp] theorem State.writeStatus_response (v : Word) : (s.writeStatus v).response = s.response := rfl
@[simp] theorem State.writeStatus_inputs (v : Word) : (s.writeStatus v).inputs = s.inputs := rfl
@[simp] theorem State.writeStatus_wait (v : Word) : (s.writeStatus v).wait = s.wait := rfl
@[simp] theorem State.writeStatus_draws (v : Word) : (s.writeStatus v).draws = s.draws := rfl
@[simp] theorem State.writeStatus_choices (v : Word) : (s.writeStatus v).choices = s.choices := rfl
@[simp] theorem State.writeStatus_epoch (v : Word) : (s.writeStatus v).epoch = s.epoch := rfl

/-! ### writeRegValid -/

@[simp] theorem State.writeRegValid_params (v : Word) : (s.writeRegValid v).params = s.params := rfl
@[simp] theorem State.writeRegValid_regs (v : Word) : (s.writeRegValid v).regs = s.regs := rfl
@[simp] theorem State.writeRegValid_valid (v : Word) : (s.writeRegValid v).valid = s.valid &&& ~~~ v.setWidth 16 := rfl
@[simp] theorem State.writeRegValid_ie (v : Word) : (s.writeRegValid v).ie = s.ie := rfl
@[simp] theorem State.writeRegValid_done (v : Word) : (s.writeRegValid v).done = s.done := rfl
@[simp] theorem State.writeRegValid_err (v : Word) : (s.writeRegValid v).err = s.err := rfl
@[simp] theorem State.writeRegValid_ovr (v : Word) : (s.writeRegValid v).ovr = s.ovr := rfl
@[simp] theorem State.writeRegValid_errCode (v : Word) : (s.writeRegValid v).errCode = s.errCode := rfl
@[simp] theorem State.writeRegValid_cmd (v : Word) : (s.writeRegValid v).cmd = s.cmd := rfl
@[simp] theorem State.writeRegValid_mrk (v : Word) : (s.writeRegValid v).mrk = s.mrk := rfl
@[simp] theorem State.writeRegValid_arg0 (v : Word) : (s.writeRegValid v).arg0 = s.arg0 := rfl
@[simp] theorem State.writeRegValid_arg1 (v : Word) : (s.writeRegValid v).arg1 = s.arg1 := rfl
@[simp] theorem State.writeRegValid_inLen (v : Word) : (s.writeRegValid v).inLen = s.inLen := rfl
@[simp] theorem State.writeRegValid_outLen (v : Word) : (s.writeRegValid v).outLen = s.outLen := rfl
@[simp] theorem State.writeRegValid_xLen (v : Word) : (s.writeRegValid v).xLen = s.xLen := rfl
@[simp] theorem State.writeRegValid_inBuf (v : Word) : (s.writeRegValid v).inBuf = s.inBuf := rfl
@[simp] theorem State.writeRegValid_outBuf (v : Word) : (s.writeRegValid v).outBuf = s.outBuf := rfl
@[simp] theorem State.writeRegValid_phase (v : Word) : (s.writeRegValid v).phase = s.phase := rfl
@[simp] theorem State.writeRegValid_abortReq (v : Word) : (s.writeRegValid v).abortReq = s.abortReq := rfl
@[simp] theorem State.writeRegValid_progress (v : Word) : (s.writeRegValid v).progress = s.progress := rfl
@[simp] theorem State.writeRegValid_rst (v : Word) : (s.writeRegValid v).rst = s.rst := rfl
@[simp] theorem State.writeRegValid_response (v : Word) : (s.writeRegValid v).response = s.response := rfl
@[simp] theorem State.writeRegValid_inputs (v : Word) : (s.writeRegValid v).inputs = s.inputs := rfl
@[simp] theorem State.writeRegValid_wait (v : Word) : (s.writeRegValid v).wait = s.wait := rfl
@[simp] theorem State.writeRegValid_draws (v : Word) : (s.writeRegValid v).draws = s.draws := rfl
@[simp] theorem State.writeRegValid_choices (v : Word) : (s.writeRegValid v).choices = s.choices := rfl
@[simp] theorem State.writeRegValid_epoch (v : Word) : (s.writeRegValid v).epoch = s.epoch := rfl

/-! ### dequeue -/

@[simp] theorem State.dequeue_params (l : List Input) : (s.dequeue l).params = s.params := rfl
@[simp] theorem State.dequeue_regs (l : List Input) : (s.dequeue l).regs = s.regs := rfl
@[simp] theorem State.dequeue_valid (l : List Input) : (s.dequeue l).valid = s.valid := rfl
@[simp] theorem State.dequeue_ie (l : List Input) : (s.dequeue l).ie = s.ie := rfl
@[simp] theorem State.dequeue_done (l : List Input) : (s.dequeue l).done = s.done := rfl
@[simp] theorem State.dequeue_err (l : List Input) : (s.dequeue l).err = s.err := rfl
@[simp] theorem State.dequeue_ovr (l : List Input) : (s.dequeue l).ovr = s.ovr := rfl
@[simp] theorem State.dequeue_errCode (l : List Input) : (s.dequeue l).errCode = s.errCode := rfl
@[simp] theorem State.dequeue_cmd (l : List Input) : (s.dequeue l).cmd = s.cmd := rfl
@[simp] theorem State.dequeue_mrk (l : List Input) : (s.dequeue l).mrk = s.mrk := rfl
@[simp] theorem State.dequeue_arg0 (l : List Input) : (s.dequeue l).arg0 = s.arg0 := rfl
@[simp] theorem State.dequeue_arg1 (l : List Input) : (s.dequeue l).arg1 = s.arg1 := rfl
@[simp] theorem State.dequeue_inLen (l : List Input) : (s.dequeue l).inLen = s.inLen := rfl
@[simp] theorem State.dequeue_outLen (l : List Input) : (s.dequeue l).outLen = s.outLen := rfl
@[simp] theorem State.dequeue_xLen (l : List Input) : (s.dequeue l).xLen = s.xLen := rfl
@[simp] theorem State.dequeue_inBuf (l : List Input) : (s.dequeue l).inBuf = s.inBuf := rfl
@[simp] theorem State.dequeue_outBuf (l : List Input) : (s.dequeue l).outBuf = s.outBuf := rfl
@[simp] theorem State.dequeue_phase (l : List Input) : (s.dequeue l).phase = s.phase := rfl
@[simp] theorem State.dequeue_abortReq (l : List Input) : (s.dequeue l).abortReq = s.abortReq := rfl
@[simp] theorem State.dequeue_progress (l : List Input) : (s.dequeue l).progress = s.progress := rfl
@[simp] theorem State.dequeue_rst (l : List Input) : (s.dequeue l).rst = s.rst := rfl
@[simp] theorem State.dequeue_response (l : List Input) : (s.dequeue l).response = s.response := rfl
@[simp] theorem State.dequeue_inputs (l : List Input) : (s.dequeue l).inputs = l := rfl
@[simp] theorem State.dequeue_wait (l : List Input) : (s.dequeue l).wait = if s.isBusy then s.wait - 1 else s.wait := rfl
@[simp] theorem State.dequeue_draws (l : List Input) : (s.dequeue l).draws = s.draws := rfl
@[simp] theorem State.dequeue_choices (l : List Input) : (s.dequeue l).choices = s.choices := rfl
@[simp] theorem State.dequeue_epoch (l : List Input) : (s.dequeue l).epoch = s.epoch := rfl

/-! ### passAbort: at most the index of abort choices moves -/

@[simp] theorem State.passAbort_params : s.passAbort.params = s.params := by unfold State.passAbort; split <;> rfl
@[simp] theorem State.passAbort_regs : s.passAbort.regs = s.regs := by unfold State.passAbort; split <;> rfl
@[simp] theorem State.passAbort_valid : s.passAbort.valid = s.valid := by unfold State.passAbort; split <;> rfl
@[simp] theorem State.passAbort_ie : s.passAbort.ie = s.ie := by unfold State.passAbort; split <;> rfl
@[simp] theorem State.passAbort_done : s.passAbort.done = s.done := by unfold State.passAbort; split <;> rfl
@[simp] theorem State.passAbort_err : s.passAbort.err = s.err := by unfold State.passAbort; split <;> rfl
@[simp] theorem State.passAbort_ovr : s.passAbort.ovr = s.ovr := by unfold State.passAbort; split <;> rfl
@[simp] theorem State.passAbort_errCode : s.passAbort.errCode = s.errCode := by unfold State.passAbort; split <;> rfl
@[simp] theorem State.passAbort_cmd : s.passAbort.cmd = s.cmd := by unfold State.passAbort; split <;> rfl
@[simp] theorem State.passAbort_mrk : s.passAbort.mrk = s.mrk := by unfold State.passAbort; split <;> rfl
@[simp] theorem State.passAbort_arg0 : s.passAbort.arg0 = s.arg0 := by unfold State.passAbort; split <;> rfl
@[simp] theorem State.passAbort_arg1 : s.passAbort.arg1 = s.arg1 := by unfold State.passAbort; split <;> rfl
@[simp] theorem State.passAbort_inLen : s.passAbort.inLen = s.inLen := by unfold State.passAbort; split <;> rfl
@[simp] theorem State.passAbort_outLen : s.passAbort.outLen = s.outLen := by unfold State.passAbort; split <;> rfl
@[simp] theorem State.passAbort_xLen : s.passAbort.xLen = s.xLen := by unfold State.passAbort; split <;> rfl
@[simp] theorem State.passAbort_inBuf : s.passAbort.inBuf = s.inBuf := by unfold State.passAbort; split <;> rfl
@[simp] theorem State.passAbort_outBuf : s.passAbort.outBuf = s.outBuf := by unfold State.passAbort; split <;> rfl
@[simp] theorem State.passAbort_phase : s.passAbort.phase = s.phase := by unfold State.passAbort; split <;> rfl
@[simp] theorem State.passAbort_abortReq : s.passAbort.abortReq = s.abortReq := by unfold State.passAbort; split <;> rfl
@[simp] theorem State.passAbort_progress : s.passAbort.progress = s.progress := by unfold State.passAbort; split <;> rfl
@[simp] theorem State.passAbort_rst : s.passAbort.rst = s.rst := by unfold State.passAbort; split <;> rfl
@[simp] theorem State.passAbort_response : s.passAbort.response = s.response := by unfold State.passAbort; split <;> rfl
@[simp] theorem State.passAbort_inputs : s.passAbort.inputs = s.inputs := by unfold State.passAbort; split <;> rfl
@[simp] theorem State.passAbort_wait : s.passAbort.wait = s.wait := by unfold State.passAbort; split <;> rfl
@[simp] theorem State.passAbort_draws : s.passAbort.draws = s.draws := by unfold State.passAbort; split <;> rfl
@[simp] theorem State.passAbort_epoch : s.passAbort.epoch = s.epoch := by unfold State.passAbort; split <;> rfl

/-! ### The views of the state -/

@[simp] theorem State.raise_eq (c : ErrorCode) : s.raise c = s.complete (some c) := rfl

theorem State.isBusy_iff : s.isBusy = true ↔ s.phase = .busy := by simp [State.isBusy]

theorem State.isBusy_eq_false_iff : s.isBusy = false ↔ s.phase = .idle := by
  cases h : s.phase <;> simp [State.isBusy, h]

theorem State.reg_congr {t : State} (h : t.regs = s.regs) (r : Reg) : t.reg r = s.reg r := by
  simp [State.reg, h]

theorem State.isValid_congr {t : State} (h : t.valid = s.valid) (r : Reg) : t.isValid r = s.isValid r := by
  simp [State.isValid, h]

@[simp] theorem State.reg_setReg_self (r : Reg) (v : Nat) : (s.setReg r v).reg r = v := by
  simp [State.reg]

theorem State.reg_setReg_of_ne {r q : Reg} (h : q ≠ r) (v : Nat) : (s.setReg r v).reg q = s.reg q := by
  have : r.val ≠ q.val := fun e => h (Fin.ext e.symm)
  simp [State.reg, this]

@[simp] theorem State.isValid_setReg_self (r : Reg) (v : Nat) : (s.setReg r v).isValid r = true := by
  simp [State.isValid]

theorem State.isValid_setReg_of_ne {r q : Reg} (h : q ≠ r) (v : Nat) :
    (s.setReg r v).isValid q = s.isValid q := by
  have : ¬ q.val = r.val := fun e => h (Fin.ext e)
  simp [State.isValid, this]

end Sys2Proof.Machine
end

