-- ==== Sys2Proof/Laws/Memory.lean ====
section
/-! SUPPORT. The byte memories: a read after a write, and that every memory operation keeps the canonical form. -/

namespace Sys2Proof.Machine

theorem Memory.lookup_store_self (m : Memory) (a : Nat) (b : Byte) : (m.store a b).lookup a = some b := by
  induction m with
  | nil => simp [Memory.store, Memory.lookup]
  | cons c m ih =>
    obtain ⟨k, v⟩ := c
    unfold Memory.store
    split
    · simp [Memory.lookup]
    · split
      · simp [Memory.lookup]
      · next h1 h2 => simp [Memory.lookup, Ne.symm h2, ih]

theorem Memory.lookup_store_of_ne (m : Memory) {a a' : Nat} (h : a' ≠ a) (b : Byte) :
    (m.store a b).lookup a' = m.lookup a' := by
  induction m with
  | nil => simp [Memory.store, Memory.lookup, Ne.symm h]
  | cons c m ih =>
    obtain ⟨k, v⟩ := c
    unfold Memory.store
    split
    · simp [Memory.lookup, Ne.symm h]
    · split
      · next h1 h2 => subst h2; simp [Memory.lookup, Ne.symm h]
      · simp [Memory.lookup, ih]

/-- Reading after a byte string was written from `off` on: inside it its bytes, elsewhere as before. -/
theorem Memory.lookup_storeBytes (bs : List Byte) : ∀ (m : Memory) (off a : Nat),
    (m.storeBytes off bs).lookup a = if off ≤ a ∧ a < off + bs.length then bs[a - off]? else m.lookup a := by
  induction bs with
  | nil => intro m off a; simp [Memory.storeBytes]
  | cons b bs ih =>
    intro m off a
    rw [Memory.storeBytes, ih]
    by_cases h1 : a = off
    · subst h1
      simp [Memory.lookup_store_self]
    · rw [Memory.lookup_store_of_ne m h1]
      by_cases h2 : off + 1 ≤ a ∧ a < off + 1 + bs.length
      · rw [if_pos h2, if_pos ⟨by omega, by rw [List.length_cons]; omega⟩]
        have : a - off = (a - (off + 1)) + 1 := by omega
        rw [this, List.getElem?_cons_succ]
      · rw [if_neg h2, if_neg (by rw [List.length_cons]; omega)]

theorem Memory.mem_store {m : Memory} {a : Nat} {b : Byte} {c : Host.Cell} (h : c ∈ m.store a b) :
    c = (a, b) ∨ c ∈ m := by
  induction m with
  | nil => simpa [Memory.store] using h
  | cons d m ih =>
    obtain ⟨k, v⟩ := d
    unfold Memory.store at h
    split at h
    · simpa using h
    · split at h
      · rcases List.mem_cons.1 h with rfl | h'
        · exact .inl rfl
        · exact .inr (List.mem_cons_of_mem _ h')
      · rcases List.mem_cons.1 h with rfl | h'
        · exact .inr (List.mem_cons_self ..)
        · exact (ih h').imp_right (List.mem_cons_of_mem _)

/-- A write keeps the addresses strictly rising. -/
theorem Memory.wf_store {m : Memory} (h : m.wf) (a : Nat) (b : Byte) : (m.store a b).wf := by
  induction m with
  | nil => simp [Memory.store, Memory.wf]
  | cons c m ih =>
    obtain ⟨k, v⟩ := c
    have hm : ∀ x ∈ m.map Prod.fst, k < x := (List.pairwise_cons.1 h).1
    have hw : Memory.wf m := (List.pairwise_cons.1 h).2
    unfold Memory.store
    split
    · next h1 =>
      refine List.pairwise_cons.2 ⟨?_, h⟩
      intro x hx
      rcases List.mem_cons.1 hx with rfl | hx
      · exact h1
      · exact h1.trans (hm x hx)
    · split
      · next h1 h2 => subst h2; exact List.pairwise_cons.2 ⟨hm, hw⟩
      · next h1 h2 =>
        refine List.pairwise_cons.2 ⟨?_, ih hw⟩
        intro x hx
        obtain ⟨c, hc, rfl⟩ := List.mem_map.1 hx
        rcases Memory.mem_store hc with rfl | hc
        · show k < a
          omega
        · exact hm _ (List.mem_map_of_mem hc)

theorem Memory.within_store {m : Memory} {size : Nat} (h : m.within size) {a : Nat} (ha : a < size) (b : Byte) :
    (m.store a b).within size := by
  intro c hc
  rcases Memory.mem_store hc with rfl | hc
  · exact ha
  · exact h c hc

/-- Writing a byte string that lies inside the buffer keeps the canonical form. -/
theorem Memory.storeBytes_ok (bs : List Byte) : ∀ {m : Memory} {off size : Nat},
    m.wf ∧ m.within size → off + bs.length ≤ size →
    (m.storeBytes off bs).wf ∧ (m.storeBytes off bs).within size := by
  induction bs with
  | nil => intro m off size h _; exact h
  | cons b bs ih =>
    intro m off size h hl
    rw [List.length_cons] at hl
    exact ih ⟨Memory.wf_store h.1 off b, Memory.within_store h.2 (by omega) b⟩ (by omega)

theorem Memory.wf_storeBytes (bs : List Byte) : ∀ {m : Memory} {off : Nat}, m.wf → (m.storeBytes off bs).wf := by
  induction bs with
  | nil => intro m off h; exact h
  | cons b bs ih => intro m off h; exact ih (Memory.wf_store h off b)

/-- The memories after reset have the canonical form. -/
theorem State.reset_wf : State.reset.inBuf.wf ∧ State.reset.outBuf.wf := by decide

/-! ### Bytes of the buffers -/

variable (s : State)

theorem State.inByte_congr {t : State} (h : t.inBuf = s.inBuf) (he : t.epoch = s.epoch) (a : Nat) :
    t.inByte a = s.inByte a := by
  simp [State.inByte, h, he]

theorem State.outByte_congr {t : State} (h : t.outBuf = s.outBuf) (he : t.epoch = s.epoch) (a : Nat) :
    t.outByte a = s.outByte a := by
  simp [State.outByte, h, he]

/-- What OUT_BUF holds after `BufWrite(OUT, off, bs)`. -/
theorem State.outByte_writeOut (off : Nat) (bs : List Byte) (a : Nat) :
    (s.writeOut off bs).outByte a =
      if off ≤ a ∧ a < off + bs.length then bs.getD (a - off) (s.outByte a) else s.outByte a := by
  simp only [State.outByte, State.writeOut_outBuf, State.writeOut_epoch, Memory.lookup_storeBytes]
  split
  · next h =>
    have : a - off < bs.length := by omega
    simp [this]
  · rfl

/-- What IN_BUF holds after a host write. -/
theorem State.inByte_writeIn (off : Nat) (bs : List Byte) (a : Nat) :
    (s.writeIn off bs).inByte a =
      if off ≤ a ∧ a < off + bs.length then bs.getD (a - off) (s.inByte a) else s.inByte a := by
  simp only [State.inByte, State.writeIn_inBuf, State.writeIn_epoch, Memory.lookup_storeBytes]
  split
  · next h =>
    have : a - off < bs.length := by omega
    simp [this]
  · rfl

theorem State.readIn_length (off n : Nat) : (s.readIn off n).length = n := by simp [State.readIn]

end Sys2Proof.Machine
end

