-- ==== Sys2Proof/Laws/Numeric.lean ====
section
/-! SUPPORT. What the integer helpers compute: each is the mathematical function the rules name. -/

namespace Sys2Proof.Machine

/-- bitlen(v) is the least k with v < 2^k (00_scope.md R11). -/
theorem bitlen_le_iff (v k : Nat) : bitlen v ≤ k ↔ v < 2 ^ k := by
  unfold bitlen
  split
  · next h => simp [h]
  · next h => rw [← Nat.log2_lt h]; omega

theorem lt_two_pow_bitlen (v : Nat) : v < 2 ^ bitlen v := (bitlen_le_iff v _).1 le_rfl

theorem bitlen_pos {v : Nat} (h : v ≠ 0) : 0 < bitlen v := by
  simp [bitlen, h]

/-! ### Modular exponentiation -/

theorem powModLoop_eq (m bits : Nat) :
    ∀ sq e acc, e < 2 ^ bits → acc % m = acc → powModLoop m bits sq e acc = acc * sq ^ e % m := by
  induction bits with
  | zero =>
    intro sq e acc he hacc
    have h0 : e = 0 := by simpa using he
    simp [powModLoop, h0, hacc]
  | succ bits ih =>
    intro sq e acc he hacc
    have hlt : e / 2 < 2 ^ bits := by rw [pow_succ] at he; omega
    have hsq : sq ^ e = (sq * sq) ^ (e / 2) * sq ^ (e % 2) := by
      conv_lhs => rw [← Nat.div_add_mod e 2]
      rw [pow_add, pow_mul, pow_two]
    unfold powModLoop
    split
    · next h1 =>
      rw [ih _ _ _ hlt (Nat.mod_mod _ _), hsq, h1, pow_one, Nat.mul_mod, Nat.mod_mod, ← Nat.pow_mod, ← Nat.mul_mod]
      congr 1
      ring
    · next h1 =>
      have h0 : e % 2 = 0 := by omega
      rw [ih _ _ _ hlt hacc, hsq, h0, pow_zero, mul_one, Nat.mul_mod, ← Nat.pow_mod, ← Nat.mul_mod]

/-- The square-and-multiply value is (a ^ e) mod m (42_numtheory.md R142, R143). -/
theorem powMod_eq (a e m : Nat) : powMod a e m = a ^ e % m := by
  rw [powMod, powModLoop_eq m _ _ _ _ (lt_two_pow_bitlen e) (Nat.mod_mod _ _), Nat.mul_mod, Nat.mod_mod,
    ← Nat.pow_mod, ← Nat.mul_mod, one_mul]

/-! ### The modular inverse -/

/-- Each pair of extended Euclid is a multiple of a modulo m, and the loop ends at the gcd. -/
theorem inverseLoop_spec (a m : Nat) (hm : 0 < m) (fuel : Nat) :
    ∀ r0 t0 r1 t1, r1 < fuel → t0 < m → (r1 ≠ 0 → t1 < m) →
      a * t0 ≡ r0 [MOD m] → a * t1 ≡ r1 [MOD m] →
      inverseLoop m fuel r0 t0 r1 t1 < m ∧
        a * inverseLoop m fuel r0 t0 r1 t1 ≡ Nat.gcd r0 r1 [MOD m] := by
  induction fuel with
  | zero => intro r0 t0 r1 t1 h; omega
  | succ fuel ih =>
    intro r0 t0 r1 t1 hf ht0 ht1 h0 h1
    unfold inverseLoop
    split
    · next hz => subst hz; simpa using ⟨ht0, h0⟩
    · next hz =>
      have hr : r0 % r1 < r1 := Nat.mod_lt _ (Nat.pos_of_ne_zero hz)
      have hg : Nat.gcd r0 r1 = Nat.gcd r1 (r0 % r1) := by
        rw [Nat.gcd_comm r0, Nat.gcd_rec r1 r0, Nat.gcd_comm]
      rw [hg]
      refine ih r1 t1 (r0 % r1) _ (by omega) (ht1 hz) (fun _ => Nat.mod_lt _ hm) h1 ?_
      have hle : r0 / r1 * t1 % m ≤ m := (Nat.mod_lt _ hm).le
      have hq : a * (t0 + (m - r0 / r1 * t1 % m)) + a * (r0 / r1 * t1 % m) ≡ a * t0 [MOD m] := by
        have : a * (t0 + (m - r0 / r1 * t1 % m)) + a * (r0 / r1 * t1 % m) = a * t0 + a * m := by
          rw [← Nat.mul_add, ← Nat.mul_add]; congr 1; omega
        rw [this]
        simp [Nat.ModEq]
      have hq2 : a * (r0 / r1 * t1 % m) ≡ r0 / r1 * r1 [MOD m] := by
        calc a * (r0 / r1 * t1 % m) ≡ a * (r0 / r1 * t1) [MOD m] := (Nat.mod_modEq _ _).mul_left a
          _ = r0 / r1 * (a * t1) := by ring
          _ ≡ r0 / r1 * r1 [MOD m] := h1.mul_left _
      have hr0 : r0 % r1 + r0 / r1 * r1 = r0 := by
        rw [Nat.mul_comm]; exact Nat.mod_add_div r0 r1
      have hfin : a * (t0 + (m - r0 / r1 * t1 % m)) + r0 / r1 * r1 ≡ r0 % r1 + r0 / r1 * r1 [MOD m] := by
        rw [hr0]
        exact ((Nat.ModEq.add_left _ hq2.symm).trans hq).trans h0
      exact ((Nat.mod_modEq _ _).mul_left a).trans (Nat.ModEq.add_right_cancel' _ hfin)

/-- For m ≥ 1 and gcd(a, m) = 1 the result is the inverse in [0, m) (42_numtheory.md R141). -/
theorem modInverse_spec (a m : Nat) (hm : 0 < m) (hg : Nat.gcd (a % m) m = 1) :
    modInverse a m < m ∧ a * modInverse a m % m = 1 % m := by
  have hlt := Nat.mod_lt a hm
  obtain ⟨h1, h2⟩ := inverseLoop_spec a m hm (m + 1) m 0 (a % m) 1 (by omega) hm
    (fun h => by
      rcases Nat.lt_or_ge 1 m with h' | h'
      · exact h'
      · exact absurd (by omega : a % m = 0) h)
    (by simp [Nat.ModEq]) (by simp [Nat.ModEq])
  rw [Nat.gcd_comm, hg] at h2
  exact ⟨h1, h2⟩

/-! ### Byte strings -/

theorem intToBe_length (v len : Nat) : (intToBe v len).length = len := by
  induction len generalizing v with
  | zero => rfl
  | succ n ih => simp [intToBe, ih]

theorem beToInt_append_singleton (s : List Byte) (b : Byte) : beToInt (s ++ [b]) = beToInt s * 256 + b.toNat := by
  simp [beToInt]

/-- be_to_int(int_to_be(v, L)) = v for v < 2^(8L) (00_scope.md R11). -/
theorem beToInt_intToBe (v len : Nat) (h : v < 2 ^ (8 * len)) : beToInt (intToBe v len) = v := by
  induction len generalizing v with
  | zero => simp at h; simp [intToBe, beToInt, h]
  | succ n ih =>
    have hv : v / 256 < 2 ^ (8 * n) := by
      rw [Nat.div_lt_iff_lt_mul (by norm_num)]
      calc v < 2 ^ (8 * (n + 1)) := h
        _ = 2 ^ (8 * n) * 256 := by rw [Nat.mul_succ, pow_add]; norm_num
    rw [intToBe, beToInt_append_singleton, ih _ hv, BitVec.toNat_ofNat]
    omega

theorem beToInt_lt (s : List Byte) : beToInt s < 2 ^ (8 * s.length) := by
  induction s using List.reverseRecOn with
  | nil => simp [beToInt]
  | append_singleton s b ih =>
    have hb := b.isLt
    have he : 2 ^ (8 * (s.length + 1)) = 2 ^ (8 * s.length) * 256 := by rw [Nat.mul_succ, pow_add]; norm_num
    rw [beToInt_append_singleton, List.length_append, List.length_singleton, he]
    omega

theorem strip0_length_le (s : List Byte) : (strip0 s).length ≤ s.length :=
  (List.dropWhile_suffix _).length_le

/-- A block is exactly its declared width in pad mode and no longer in legacy mode (44_codec.md R181). -/
theorem encodeBlock_length {v len : Nat} {mode : Mode} {bs : List Byte} (h : encodeBlock v len mode = some bs) :
    bs.length ≤ len ∧ (mode = .pad → bs.length = len) := by
  unfold encodeBlock at h
  split at h
  · cases mode with
    | pad =>
      have := intToBe_length v len
      simp only [Option.some.injEq] at h
      subst h
      omega
    | legacy =>
      have := (strip0_length_le (intToBe v len)).trans_eq (intToBe_length v len)
      simp only [Option.some.injEq] at h
      subst h
      simpa using this
  · cases h

theorem encodeBlock_isSome (v len : Nat) (mode : Mode) : (encodeBlock v len mode).isSome ↔ v < 2 ^ (8 * len) := by
  unfold encodeBlock
  split
  · next h => cases mode <;> simp [h]
  · next h => simpa using h

end Sys2Proof.Machine
end

