-- ==== Sys2Proof/Laws/Ops.lean ====
section
/-! SUPPORT. For each shared operation, once, everything it can do. -/

namespace Sys2Proof.Machine

variable (s : State)

/-! ### Abort points -/

theorem State.abortHere_of_not {s : State} (h : s.abortReq = false) : s.abortHere = false := by
  simp [State.abortHere, h]

theorem State.passAbort_of_not {s : State} (h : s.abortReq = false) : s.passAbort = s := by
  simp [State.passAbort, h]

/-- Passing an abort point changes at most the index of abort choices. -/
theorem State.passAbort_eq : ∃ k, s.passAbort = s.setChoices k := by
  unfold State.passAbort
  split
  · exact ⟨s.choices + 1, rfl⟩
  · exact ⟨s.choices, rfl⟩

theorem State.abortReq_of_abortHere {s : State} (h : s.abortHere = true) : s.abortReq = true := by
  simp only [State.abortHere, Bool.and_eq_true] at h
  exact h.1

/-! ### The end of a command -/

/-- A command's end either is an abort, and then one was requested and nothing was written, or is the write and
normal completion. -/
theorem State.commit_cases (w : State → State) :
    (s.abortReq = true ∧ s.commit w = s.passAbort.complete (some .aborted)) ∨
      s.commit w = (w s.passAbort).complete none := by
  unfold State.commit
  split
  · next h => exact .inl ⟨State.abortReq_of_abortHere h, rfl⟩
  · exact .inr rfl

/-- With no abort requested, the end of a command is its write. -/
theorem State.commit_of_not {s : State} (h : s.abortReq = false) (w : State → State) :
    s.commit w = (w s).complete none := by
  simp [State.commit, State.abortHere_of_not h, State.passAbort_of_not h]

theorem State.writeBack_of_not {s : State} (h : s.abortReq = false) (rd : Reg) (v : Nat) :
    s.writeBack rd v = (s.setReg rd v).complete none :=
  State.commit_of_not h _

theorem State.writeBack_cases (rd : Reg) (v : Nat) :
    (s.abortReq = true ∧ s.writeBack rd v = s.passAbort.complete (some .aborted)) ∨
      s.writeBack rd v = (s.passAbort.setReg rd v).complete none :=
  State.commit_cases s _

/-- A result that may not fit: OVERFLOW, or its write. -/
theorem State.writeBounded_cases (rd : Reg) (v : Nat) :
    (2 ^ s.width ≤ v ∧ s.writeBounded rd v = s.complete (some .overflow)) ∨
      (v < 2 ^ s.width ∧ s.writeBounded rd v = s.writeBack rd v) := by
  unfold State.writeBounded
  split
  · next h => exact .inl ⟨h, rfl⟩
  · next h => exact .inr ⟨by omega, rfl⟩

/-- A difference: UNDERFLOW, or its write. -/
theorem State.writeDifference_cases (rd : Reg) (a b : Nat) :
    (a < b ∧ s.writeDifference rd a b = s.complete (some .underflow)) ∨
      (b ≤ a ∧ s.writeDifference rd a b = s.writeBack rd (a - b)) := by
  unfold State.writeDifference
  split
  · next h => exact .inl ⟨h, rfl⟩
  · next h => exact .inr ⟨by omega, rfl⟩

/-! ### Operands -/

theorem State.withSource_of_valid {s : State} {r : Reg} (h : s.isValid r = true) (k : Nat → State) :
    s.withSource r k = k (s.reg r) := by
  simp [State.withSource, h]

theorem State.withSource_of_not {s : State} {r : Reg} (h : s.isValid r = false) (k : Nat → State) :
    s.withSource r k = s.complete (some .unwritten) := by
  simp [State.withSource, h]

theorem State.withSources_of_valid {s : State} {r1 r2 : Reg} (h1 : s.isValid r1 = true) (h2 : s.isValid r2 = true)
    (k : Nat → Nat → State) : s.withSources r1 r2 k = k (s.reg r1) (s.reg r2) := by
  simp [State.withSources, State.withSource, h1, h2]

/-- Two sources: UNWRITTEN when one is, else both values. -/
theorem State.withSources_cases (r1 r2 : Reg) (k : Nat → Nat → State) :
    s.withSources r1 r2 k = s.complete (some .unwritten) ∨
      s.withSources r1 r2 k = k (s.reg r1) (s.reg r2) := by
  unfold State.withSources State.withSource
  split
  · split
    · exact .inr rfl
    · exact .inl rfl
  · exact .inl rfl

/-- One source: UNWRITTEN, or its value. -/
theorem State.withSource_cases (r : Reg) (k : Nat → State) :
    s.withSource r k = s.complete (some .unwritten) ∨ s.withSource r k = k (s.reg r) := by
  unfold State.withSource
  split
  · exact .inr rfl
  · exact .inl rfl

theorem State.withModulus_of_pos {s : State} {m : Nat} (h : m ≠ 0) (k : State) : s.withModulus m k = k := by
  simp [State.withModulus, h]

/-- A modulus: ZERO_MODULUS for 0, else on. -/
theorem State.withModulus_cases (m : Nat) (k : State) :
    (m = 0 ∧ s.withModulus m k = s.complete (some .zeroModulus)) ∨ (m ≠ 0 ∧ s.withModulus m k = k) := by
  unfold State.withModulus
  split
  · next h => exact .inl ⟨h, rfl⟩
  · next h => exact .inr ⟨h, rfl⟩

/-! ### Free values -/

/-- A draw lies in its range (10_state.md R43). -/
theorem State.drawn_mem {lo hi : Nat} (h : lo ≤ hi) : lo ≤ s.drawn lo hi ∧ s.drawn lo hi ≤ hi := by
  have := Nat.mod_lt (Config.entropy s.draws) (by omega : 0 < hi - lo + 1)
  unfold State.drawn
  omega

/-! ### Frames as relations between two states -/

theorem SameRegs.of_eq {s t : State} (h1 : t.regs = s.regs) (h2 : t.valid = s.valid) : SameRegs s t :=
  fun r => ⟨State.reg_congr s h1 r, State.isValid_congr s h2 r⟩

theorem SameRegs.but {s t : State} (h : SameRegs s t) (rd : Reg) : SameRegsBut rd s t := fun r _ => h r

theorem SameRegs.trans {s t u : State} (h1 : SameRegs s t) (h2 : SameRegs t u) : SameRegs s u :=
  fun r => ⟨(h2 r).1.trans (h1 r).1, (h2 r).2.trans (h1 r).2⟩

theorem SameInputs.trans {s t u : State} (h1 : SameInputs s t) (h2 : SameInputs t u) : SameInputs s u := by
  obtain ⟨a1, b1, c1, d1, e1, f1, g1, i1, j1, k1, l1, m1, n1⟩ := h1
  obtain ⟨a2, b2, c2, d2, e2, f2, g2, i2, j2, k2, l2, m2, n2⟩ := h2
  exact ⟨fun a => (a2 a).trans (a1 a), b2.trans b1, c2.trans c1, d2.trans d1, e2.trans e1, f2.trans f1,
    g2.trans g1, i2.trans i1, j2.trans j1, k2.trans k1, l2.trans l1, m2.trans m1, n2.trans n1⟩

theorem SameOutput.trans {s t u : State} (h1 : SameOutput s t) (h2 : SameOutput t u) : SameOutput s u :=
  ⟨fun a => (h2.1 a).trans (h1.1 a), h2.2.1.trans h1.2.1, h2.2.2.1.trans h1.2.2.1, h2.2.2.2.trans h1.2.2.2⟩

/-- Completion alone writes STATUS and clears the abort request (60_exceptions.md R210). -/
theorem State.endedWith_complete (c : ErrorCode) : EndedWith s (s.complete (some c)) c :=
  ⟨fun _ => ⟨rfl, rfl⟩, ⟨fun _ => rfl, rfl, rfl, rfl⟩,
    ⟨fun _ => rfl, rfl, rfl, rfl, rfl, rfl, rfl, rfl, rfl, rfl, rfl, rfl, rfl⟩, ⟨rfl, rfl, rfl, rfl, rfl⟩⟩

/-- Passing an abort point and then ending with an error writes nothing either. -/
theorem State.endedWith_passAbort (c : ErrorCode) : EndedWith s (s.passAbort.complete (some c)) c := by
  obtain ⟨k, hk⟩ := State.passAbort_eq s
  rw [hk]
  exact State.endedWith_complete (s.setChoices k) c

/-- The write of a register and normal completion. -/
theorem State.wroteReg_setReg (rd : Reg) (v : Nat) : WroteReg s ((s.setReg rd v).complete none) rd v :=
  ⟨State.reg_setReg_self s rd v, State.isValid_setReg_self s rd v,
    fun _ h => ⟨State.reg_setReg_of_ne s h v, State.isValid_setReg_of_ne s h v⟩, ⟨fun _ => rfl, rfl, rfl, rfl⟩,
    ⟨fun _ => rfl, rfl, rfl, rfl, rfl, rfl, rfl, rfl, rfl, rfl, rfl, rfl, rfl⟩, ⟨rfl, rfl, rfl, rfl, rfl⟩⟩

/-- A register result either is written, or an abort was requested and the command wrote nothing. -/
theorem State.writeBack_wrote (rd : Reg) (v : Nat) :
    (s.abortReq = true ∧ EndedWith s (s.writeBack rd v) .aborted) ∨ WroteReg s (s.writeBack rd v) rd v := by
  rcases State.writeBack_cases s rd v with ⟨h, e⟩ | e
  · exact .inl ⟨h, e ▸ State.endedWith_passAbort s .aborted⟩
  · obtain ⟨k, hk⟩ := State.passAbort_eq s
    rw [e, hk]
    exact .inr (State.wroteReg_setReg (s.setChoices k) rd v)

end Sys2Proof.Machine
end

