-- ==== Sys2Proof/Laws/Exec.lean ====
section
/-! SUPPORT. For each register command, once, everything it can do: it writes its result to its destination, or ends
with an error and writes nothing. -/

namespace Sys2Proof.Machine

/-- A register command's end: no field but these four and the completion's changed; and it wrote some v with Q v to
Nd, or it ended with an error, which is ABORTED only when an abort was requested and otherwise one of `errors`. -/
def RegOutcome (s : State) (rd : Reg) (Q : Nat → Prop) (errors : List ErrorCode) (t : State) : Prop :=
  (∃ g b d k e, t = ({ s with regs := g, valid := b, draws := d, choices := k } : State).complete e) ∧
  ((∃ v, Q v ∧ WroteReg s t rd v) ∨
    ∃ c, EndedWith s t c ∧ ((c = .aborted ∧ s.abortReq = true) ∨ c ∈ errors))

variable {s : State} {rd : Reg} {Q : Nat → Prop} {errors : List ErrorCode}

theorem RegOutcome.raise {c : ErrorCode} (h : c ∈ errors) : RegOutcome s rd Q errors (s.raise c) :=
  ⟨⟨s.regs, s.valid, s.draws, s.choices, some c, rfl⟩, .inr ⟨c, State.endedWith_complete s c, .inr h⟩⟩

theorem RegOutcome.writeBack {v : Nat} (h : Q v) : RegOutcome s rd Q errors (s.writeBack rd v) := by
  refine ⟨?_, ?_⟩
  · rcases State.commit_cases s (fun t => t.setReg rd v) with ⟨_, e⟩ | e
    · obtain ⟨k, hk⟩ := State.passAbort_eq s
      exact ⟨s.regs, s.valid, s.draws, k, some .aborted, e.trans (by rw [hk]; rfl)⟩
    · obtain ⟨k, hk⟩ := State.passAbort_eq s
      exact ⟨_, _, s.draws, k, _, e.trans (by rw [hk]; rfl)⟩
  rcases State.writeBack_wrote s rd v with ⟨ha, he⟩ | hw
  · exact .inr ⟨_, he, .inl ⟨rfl, ha⟩⟩
  · exact .inl ⟨v, h, hw⟩

theorem RegOutcome.writeBounded {v : Nat} (h : v < 2 ^ s.width → Q v) (he : ErrorCode.overflow ∈ errors) :
    RegOutcome s rd Q errors (s.writeBounded rd v) := by
  rcases State.writeBounded_cases s rd v with ⟨_, e⟩ | ⟨hv, e⟩
  · exact e ▸ RegOutcome.raise he
  · exact e ▸ RegOutcome.writeBack (h hv)

theorem RegOutcome.writeDifference {a b : Nat} (h : b ≤ a → Q (a - b)) (he : ErrorCode.underflow ∈ errors) :
    RegOutcome s rd Q errors (s.writeDifference rd a b) := by
  rcases State.writeDifference_cases s rd a b with ⟨_, e⟩ | ⟨hv, e⟩
  · exact e ▸ RegOutcome.raise he
  · exact e ▸ RegOutcome.writeBack (h hv)

theorem RegOutcome.withSource {r : Reg} {k : Nat → State} (he : ErrorCode.unwritten ∈ errors)
    (h : RegOutcome s rd Q errors (k (s.reg r))) : RegOutcome s rd Q errors (s.withSource r k) := by
  rcases State.withSource_cases s r k with e | e
  · exact e ▸ RegOutcome.raise he
  · exact e ▸ h

theorem RegOutcome.withSources {r1 r2 : Reg} {k : Nat → Nat → State} (he : ErrorCode.unwritten ∈ errors)
    (h : RegOutcome s rd Q errors (k (s.reg r1) (s.reg r2))) : RegOutcome s rd Q errors (s.withSources r1 r2 k) := by
  rcases State.withSources_cases s r1 r2 k with e | e
  · exact e ▸ RegOutcome.raise he
  · exact e ▸ h

theorem RegOutcome.withModulus {m : Nat} {k : State} (he : ErrorCode.zeroModulus ∈ errors)
    (h : m ≠ 0 → RegOutcome s rd Q errors k) : RegOutcome s rd Q errors (s.withModulus m k) := by
  rcases State.withModulus_cases s m k with ⟨_, e⟩ | ⟨hm, e⟩ <;> rw [e]
  · exact RegOutcome.raise he
  · exact h hm

/-- Free values taken on the way show nowhere but in the index. -/
theorem RegOutcome.of_draws {t : State} (n k : Nat)
    (h : RegOutcome { s with draws := n, choices := k } rd Q errors t) : RegOutcome s rd Q errors t := h

variable (s rd) (ra rb rc : Reg) (imm : Nat)

theorem execNop_cases : ∃ t, execNop s = .next t ∧
    ((s.abortReq = true ∧ EndedWith s t .aborted) ∨
      (SameRegs s t ∧ SameOutput s t ∧ SameInputs s t ∧ CompletedWith t none)) := by
  refine ⟨_, rfl, ?_⟩
  rcases State.commit_cases s id with ⟨h, e⟩ | e
  · exact .inl ⟨h, e ▸ State.endedWith_passAbort s .aborted⟩
  · refine .inr (e ▸ ?_)
    unfold State.passAbort
    split <;> exact ⟨fun _ => ⟨rfl, rfl⟩, ⟨fun _ => rfl, rfl, rfl, rfl⟩,
      ⟨fun _ => rfl, rfl, rfl, rfl, rfl, rfl, rfl, rfl, rfl, rfl, rfl, rfl, rfl⟩, ⟨rfl, rfl, rfl, rfl, rfl⟩⟩

theorem execLdi_cases : ∃ t, execLdi rd imm s = .next t ∧ RegOutcome s rd (· = imm) [] t :=
  ⟨_, rfl, .writeBack rfl⟩

theorem execMov_cases : ∃ t, execMov rd ra s = .next t ∧ RegOutcome s rd (· = s.reg ra) [.unwritten] t :=
  ⟨_, rfl, .withSource (by simp) (.writeBack rfl)⟩

theorem execAdd_cases : ∃ t, execAdd rd ra rb s = .next t ∧
    RegOutcome s rd (fun v => v = s.reg ra + s.reg rb ∧ v < 2 ^ s.width) [.unwritten, .overflow] t :=
  ⟨_, rfl, .withSources (by simp) (.writeBounded (fun h => ⟨rfl, h⟩) (by simp))⟩

theorem execAddi_cases : ∃ t, execAddi rd ra imm s = .next t ∧
    RegOutcome s rd (fun v => v = s.reg ra + imm ∧ v < 2 ^ s.width) [.unwritten, .overflow] t :=
  ⟨_, rfl, .withSource (by simp) (.writeBounded (fun h => ⟨rfl, h⟩) (by simp))⟩

theorem execSub_cases : ∃ t, execSub rd ra rb s = .next t ∧
    RegOutcome s rd (fun v => v + s.reg rb = s.reg ra) [.unwritten, .underflow] t :=
  ⟨_, rfl, .withSources (by simp) (.writeDifference (fun h => Nat.sub_add_cancel h) (by simp))⟩

theorem execSubi_cases : ∃ t, execSubi rd ra imm s = .next t ∧
    RegOutcome s rd (fun v => v + imm = s.reg ra) [.unwritten, .underflow] t :=
  ⟨_, rfl, .withSource (by simp) (.writeDifference (fun h => Nat.sub_add_cancel h) (by simp))⟩

theorem execCmp_cases : ∃ t, execCmp rd ra rb s = .next t ∧
    RegOutcome s rd (fun v => v = if s.reg ra < s.reg rb then 0 else if s.reg ra = s.reg rb then 1 else 2)
      [.unwritten] t :=
  ⟨_, rfl, .withSources (by simp) (.writeBack rfl)⟩

theorem execBitlen_cases : ∃ t, execBitlen rd ra s = .next t ∧
    RegOutcome s rd (· = bitlen (s.reg ra)) [.unwritten] t :=
  ⟨_, rfl, .withSource (by simp) (.writeBack rfl)⟩

theorem execMul_cases : ∃ t, execMul rd ra rb s = .next t ∧
    RegOutcome s rd (fun v => v = s.reg ra * s.reg rb ∧ v < 2 ^ s.width) [.unwritten, .overflow] t :=
  ⟨_, rfl, .withSources (by simp) (.writeBounded (fun h => ⟨rfl, h⟩) (by simp))⟩

theorem execMod_cases : ∃ t, execMod rd ra rc s = .next t ∧
    RegOutcome s rd (fun v => s.reg rc ≠ 0 ∧ v = s.reg ra % s.reg rc) [.unwritten, .zeroModulus] t :=
  ⟨_, rfl, .withSources (by simp) (.withModulus (by simp) fun h => .writeBack ⟨h, rfl⟩)⟩

theorem execModmul_cases : ∃ t, execModmul rd ra rb rc s = .next t ∧
    RegOutcome s rd (fun v => s.reg rc ≠ 0 ∧ v = s.reg ra * s.reg rb % s.reg rc) [.unwritten, .zeroModulus] t :=
  ⟨_, rfl, .withSources (by simp) (.withSource (by simp) (.withModulus (by simp) fun h => .writeBack ⟨h, rfl⟩))⟩

theorem execGcd_cases : ∃ t, execGcd rd ra rb s = .next t ∧
    RegOutcome s rd (· = Nat.gcd (s.reg ra) (s.reg rb)) [.unwritten] t :=
  ⟨_, rfl, .withSources (by simp) (.writeBack rfl)⟩

theorem execModinv_cases : ∃ t, execModinv rd ra rc s = .next t ∧
    RegOutcome s rd (fun v => v < s.reg rc ∧ s.reg ra * v % s.reg rc = 1 % s.reg rc)
      [.unwritten, .zeroModulus, .noInverse] t := by
  refine ⟨_, rfl, .withSources (by simp) (.withModulus (by simp) fun h => ?_)⟩
  split
  · exact .raise (by simp)
  · next hg => exact .writeBack (modInverse_spec _ _ (Nat.pos_of_ne_zero h) (not_not.1 hg))

theorem execModpow_cases : ∃ t, execModpow rd ra rb rc s = .next t ∧
    RegOutcome s rd (fun v => s.reg rc ≠ 0 ∧ v = s.reg ra ^ s.reg rb % s.reg rc) [.unwritten, .zeroModulus] t :=
  ⟨_, rfl, .withSources (by simp) (.withSource (by simp) (.withModulus (by simp) fun h =>
    .writeBack ⟨h, powMod_eq _ _ _⟩))⟩

theorem execRandb_cases : ∃ t, execRandb rd imm s = .next t ∧
    RegOutcome s rd (fun v => imm ≤ s.width ∧ v < 2 ^ imm) [.invalidInput] t := by
  refine ⟨_, rfl, ?_⟩
  split
  · exact .raise (by simp)
  · next h =>
    have hd := (State.drawn_mem s (Nat.zero_le (2 ^ imm - 1))).2
    have hp := Nat.two_pow_pos imm
    exact .of_draws (s.draws + 1) s.choices (.writeBack ⟨by omega, by omega⟩)

theorem execRandc_cases : ∃ t, execRandc rd imm s = .next t ∧
    RegOutcome s rd (fun v => 1 ≤ imm ∧ imm ≤ s.width ∧ ∃ r, r < 2 ^ imm ∧ v = r ||| 2 ^ (imm - 1) ||| 1)
      [.invalidInput] t := by
  refine ⟨_, rfl, ?_⟩
  split
  · exact .raise (by simp)
  · next h =>
    have hd := (State.drawn_mem s (Nat.zero_le (2 ^ imm - 1))).2
    have hp := Nat.two_pow_pos imm
    exact .of_draws (s.draws + 1) s.choices (.writeBack ⟨by omega, by omega, _, by omega, rfl⟩)

theorem execTrialdiv_cases : ∃ t, execTrialdiv rd ra s = .next t ∧
    RegOutcome s rd (fun v => v = match smallestSmallDivisor (s.reg ra) with
      | none => 2
      | some p => if s.reg ra = p then 1 else 0) [.unwritten] t := by
  refine ⟨_, rfl, .withSource (by simp) ?_⟩
  cases smallestSmallDivisor (s.reg ra) <;> exact .writeBack rfl

theorem execMrround_cases : ∃ t, execMrround rd ra rb s = .next t ∧
    RegOutcome s rd (fun v => 5 ≤ s.reg ra ∧ s.reg ra % 2 = 1 ∧ 2 ≤ s.reg rb ∧ s.reg rb ≤ s.reg ra - 2 ∧
      v = sprp (s.reg ra) (s.reg rb)) [.unwritten, .invalidInput] t := by
  refine ⟨_, rfl, .withSources (by simp) ?_⟩
  split
  · exact .raise (by simp)
  · split
    · exact .raise (by simp)
    · exact .writeBack ⟨by omega, by omega, by omega, by omega, rfl⟩

/-- The j-th draw after one more is draw j + 1. -/
theorem State.drawn_tick_skipDraws (c j lo hi : Nat) :
    ((s.setChoices c).tick.skipDraws j).drawn lo hi = (s.skipDraws (j + 1)).drawn lo hi := by
  show lo + Config.entropy (s.draws + 1 + j) % _ = lo + Config.entropy (s.draws + (j + 1)) % _
  rw [Nat.add_assoc, Nat.add_comm 1 j]

/-- What the rounds of PRIMETEST can do: they take one draw a round, and stop for an abort that was requested or at the
first witness whose round fails. -/
theorem rounds_cases (n : Nat) (k : Nat) : ∀ s : State,
    ∃ d c, (rounds n k s).2 = (s.skipDraws d).setChoices c ∧
      ((rounds n k s).1 = .aborted → s.abortReq = true) ∧
      ((rounds n k s).1 = .probablyPrime → d = k ∧
        ∀ j, j < k → sprp n ((s.skipDraws j).drawn 2 (n - 2)) ≠ 0) ∧
      ((rounds n k s).1 = .composite → ∃ j, j < k ∧ d = j + 1 ∧
        sprp n ((s.skipDraws j).drawn 2 (n - 2)) = 0) := by
  induction k with
  | zero => intro s; exact ⟨0, s.choices, rfl, by simp [rounds], by simp [rounds], by simp [rounds]⟩
  | succ k ih =>
    intro s
    obtain ⟨c, hc⟩ := State.passAbort_eq s
    unfold rounds
    split
    · next h => exact ⟨0, c, hc, fun _ => State.abortReq_of_abortHere h, by simp, by simp⟩
    · split
      · next h =>
        rw [hc] at h ⊢
        exact ⟨1, c, rfl, by simp, by simp, fun _ => ⟨0, by omega, rfl, h⟩⟩
      · next h =>
        rw [hc] at h ⊢
        obtain ⟨d, c', h1, h2, h3, h4⟩ := ih (s.setChoices c).tick
        refine ⟨d + 1, c', ?_, h2, fun hv => ?_, fun hv => ?_⟩
        · rw [h1]
          simp only [State.skipDraws, State.setChoices, State.tick, Nat.add_assoc, Nat.add_comm 1 d]
        · obtain ⟨rfl, hall⟩ := h3 hv
          refine ⟨rfl, fun j hj => ?_⟩
          cases j with
          | zero => exact h
          | succ j => exact State.drawn_tick_skipDraws s c j _ _ ▸ hall j (by omega)
        · obtain ⟨j, hj, rfl, hf⟩ := h4 hv
          exact ⟨j + 1, by omega, rfl, State.drawn_tick_skipDraws s c j _ _ ▸ hf⟩

theorem execPrimetest_cases : ∃ t, execPrimetest rd ra s = .next t ∧
    RegOutcome s rd (fun v => v = 0 ∨ v = 1) [.unwritten] t := by
  refine ⟨_, rfl, .withSource (by simp) ?_⟩
  split
  · exact .writeBack (by split <;> simp)
  · split
    · exact .writeBack (.inr rfl)
    · split
      · exact .writeBack (.inl rfl)
      · obtain ⟨d, c, hd, ha, _⟩ := rounds_cases (s.reg ra) s.mrk.toNat s
        split
        · next t e =>
          rw [e] at hd ha
          subst hd
          exact .of_draws (s.draws + d) c ⟨⟨s.regs, s.valid, s.draws + d, c, _, rfl⟩,
            .inr ⟨_, State.endedWith_complete _ _, .inl ⟨rfl, ha rfl⟩⟩⟩
        · next t e =>
          rw [e] at hd
          subst hd
          exact .of_draws (s.draws + d) c (.writeBack (.inl rfl))
        · next t e =>
          rw [e] at hd
          subst hd
          exact .of_draws (s.draws + d) c (.writeBack (.inr rfl))

theorem execLdb_cases : ∃ t, execLdb rd s = .next t ∧
    RegOutcome s rd (fun v => s.arg0.toNat + s.arg1.toNat ≤ s.bufsz ∧ 8 * s.arg1.toNat ≤ s.width ∧
      v = beToInt (s.readIn s.arg0.toNat s.arg1.toNat)) [.bufRange, .invalidInput] t := by
  refine ⟨_, rfl, ?_⟩
  split
  · exact .raise (by simp)
  · split
    · exact .raise (by simp)
    · exact .writeBack ⟨by omega, by omega, rfl⟩

/-! ### The converters and the codec -/

/-- What STB can do: write the encoded bytes and XLEN, or end with an error and write nothing (44_codec.md R183). -/
theorem execStb_cases (mode : Mode) : ∃ t, execStb ra mode s = .next t ∧
    ((∃ bs, encodeBlock (s.reg ra) s.arg1.toNat mode = some bs ∧ s.arg0.toNat + s.arg1.toNat ≤ s.bufsz ∧
        ∃ c, t = ({ (s.writeOut s.arg0.toNat bs).setXLen bs.length with choices := c }).complete none) ∨
      ∃ c, EndedWith s t c ∧
        ((c = .aborted ∧ s.abortReq = true) ∨ c ∈ [ErrorCode.unwritten, .bufRange, .encodeOverflow])) := by
  refine ⟨_, rfl, ?_⟩
  rcases State.withSource_cases s ra _ with e | e <;> rw [e]
  · exact .inr ⟨_, State.endedWith_complete s _, .inr (by simp)⟩
  · split
    · exact .inr ⟨_, State.endedWith_complete s _, .inr (by simp)⟩
    · next h =>
      split
      · exact .inr ⟨_, State.endedWith_complete s _, .inr (by simp)⟩
      · next bs hb =>
        rcases State.commit_cases s _ with ⟨ha, e⟩ | e <;> rw [e]
        · exact .inr ⟨_, State.endedWith_passAbort s _, .inl ⟨rfl, ha⟩⟩
        · obtain ⟨c, hc⟩ := State.passAbort_eq s
          exact .inl ⟨bs, hb, by omega, c, by rw [hc]; rfl⟩

/-- The state with another OUT_BUF, OUTLEN, progress and index of abort choices: all that the block loop writes. -/
def State.withOutput (s : State) (m : Memory) (n : Word) (p : Progress) (k : Nat) : State :=
  { s with outBuf := m, outLen := n, progress := p, choices := k }

theorem State.withOutput_self : s.withOutput s.outBuf s.outLen s.progress s.choices = s := rfl

theorem State.setChoices_eq_withOutput (k : Nat) :
    s.setChoices k = s.withOutput s.outBuf s.outLen s.progress k := rfl

theorem State.withOutput_setChoices (m : Memory) (n : Word) (p : Progress) (k k' : Nat) :
    (s.withOutput m n p k).setChoices k' = s.withOutput m n p k' := rfl

theorem State.putBlock_withOutput (i o : Nat) (bs : List Byte) (m : Memory) (n : Word) (p : Progress) (k k' : Nat) :
    ((s.setChoices k).putBlock i o bs).withOutput m n p k' = s.withOutput m n p k' := by
  simp only [State.withOutput, State.putBlock, State.setProgress, State.setOutLen, State.writeOut, State.setChoices]

/-- What the block loop leaves alone: everything but OUT_BUF, OUTLEN, progress and the index of abort choices, and it
ends with ABORTED only when an abort was requested. -/
theorem blockLoop_frame (j : BlockJob) (fuel : Nat) : ∀ s : State,
    (∃ m n p k, (blockLoop j fuel s).2 = s.withOutput m n p k) ∧
    (∀ c, (blockLoop j fuel s).1 = some c →
      (c = .aborted ∧ s.abortReq = true) ∨ c = .encodeOverflow ∨ c = .bufRange) := by
  induction fuel with
  | zero => intro s; exact ⟨⟨_, _, _, _, s.withOutput_self.symm⟩, by simp [blockLoop]⟩
  | succ fuel ih =>
    intro s
    obtain ⟨k, hk⟩ := State.passAbort_eq s
    unfold blockLoop
    split
    · rw [hk]
      split
      · next h =>
        refine ⟨⟨_, _, _, k, s.setChoices_eq_withOutput k⟩, fun c hc => .inl ?_⟩
        cases hc
        exact ⟨rfl, State.abortReq_of_abortHere h⟩
      · dsimp only
        split
        · refine ⟨⟨_, _, _, k, s.setChoices_eq_withOutput k⟩, fun c hc => .inr (.inl ?_)⟩
          cases hc
          rfl
        · split
          · refine ⟨⟨_, _, _, k, s.setChoices_eq_withOutput k⟩, fun c hc => .inr (.inr ?_)⟩
            cases hc
            rfl
          · obtain ⟨⟨m, n, p, k', h1⟩, h2⟩ := ih (State.putBlock _ _ _ _)
            exact ⟨⟨m, n, p, k', h1.trans (State.putBlock_withOutput _ _ _ _ _ _ _ _ _)⟩, h2⟩
    · exact ⟨⟨_, _, _, _, s.withOutput_self.symm⟩, by simp⟩

/-- What BENC and BDEC can do (44_codec.md R185): fail a check and write nothing, or run the block loop to an error or
to normal completion, writing nothing but OUT_BUF, OUTLEN and progress. -/
theorem runBlocks_cases (job : Nat → Nat → BlockJob) :
    (∃ c, EndedWith s (s.runBlocks ra rc job) c ∧ c ∈ [ErrorCode.unwritten, .bufRange, .invalidInput]) ∨
    ∃ m n p k e, s.runBlocks ra rc job = (s.withOutput m n p k).complete e ∧
      (e = none ∨ (e = some .aborted ∧ s.abortReq = true) ∨ e = some .encodeOverflow ∨ e = some .bufRange) := by
  unfold State.runBlocks
  rcases State.withSources_cases s ra rc _ with e | e <;> rw [e]
  · exact .inl ⟨_, State.endedWith_complete s _, by simp⟩
  · split
    · exact .inl ⟨_, State.endedWith_complete s _, by simp⟩
    · split
      · exact .inl ⟨_, State.endedWith_complete s _, by simp⟩
      · right
        obtain ⟨⟨m, n, p, k, h1⟩, h2⟩ :=
          blockLoop_frame (job (s.reg ra) (s.reg rc)) s.inLen.toNat ((s.setOutLen 0).setProgress 0 0)
        replace h1 : _ = s.withOutput m n p k := h1
        split
        · next c t ht =>
          rw [ht] at h1 h2
          subst h1
          refine ⟨m, n, p, k, some c, rfl, .inr ?_⟩
          rcases h2 c rfl with ⟨rfl, ha⟩ | rfl | rfl
          · exact .inl ⟨rfl, ha⟩
          · exact .inr (.inl rfl)
          · exact .inr (.inr rfl)
        · next t ht =>
          rw [ht] at h1
          subst h1
          obtain ⟨k', hk⟩ := State.passAbort_eq (s.withOutput m n p k)
          rcases State.commit_cases (s.withOutput m n p k) id with ⟨ha, e⟩ | e
          · exact ⟨m, n, p, k', some .aborted, by rw [e, hk]; rfl, .inr (.inl ⟨rfl, ha⟩)⟩
          · exact ⟨m, n, p, k', none, by rw [e, hk]; rfl, .inl rfl⟩

end Sys2Proof.Machine
end

