-- ==== Sys2Proof/Laws/Abort.lean ====
section
/-! SUPPORT. A pending request that no abort point takes changes nothing but the index of abort choices. -/

namespace Sys2Proof.Machine

/-- The same state with no abort requested. -/
def State.noAbort (s : State) : State := { s with abortReq := false }

/-- t is how a command ended: with ABORTED, or as u but for the index of abort choices. -/
def AbortedOrAs (t u : State) : Prop := t.errCode = some .aborted ∨ ∃ k, t = u.setChoices k

variable (s : State)

theorem State.noAbort_abortHere : s.noAbort.abortHere = false := State.abortHere_of_not rfl

theorem State.noAbort_passAbort : s.noAbort.passAbort = s.noAbort := State.passAbort_of_not rfl

theorem AbortedOrAs.raise (c : ErrorCode) : AbortedOrAs (s.raise c) (s.noAbort.raise c) := .inr ⟨s.choices, rfl⟩

theorem AbortedOrAs.commit_at (c : Nat) {w : State → State}
    (hw : ∀ k, ∃ k', (w (s.setChoices k)).complete none =
      ((w (s.noAbort.setChoices c)).complete none).setChoices k') :
    AbortedOrAs (s.commit w) ((s.noAbort.setChoices c).commit w) := by
  obtain ⟨k, hk⟩ := State.passAbort_eq s
  rcases State.commit_cases s w with ⟨_, e⟩ | e
  · exact .inl (e ▸ rfl)
  · rw [e, hk, State.commit_of_not (s := s.noAbort.setChoices c) rfl]
    exact .inr (hw k)

theorem AbortedOrAs.commit {w : State → State}
    (hw : ∀ k, ∃ k', (w (s.setChoices k)).complete none = ((w s.noAbort).complete none).setChoices k') :
    AbortedOrAs (s.commit w) (s.noAbort.commit w) := .commit_at s s.choices hw

theorem AbortedOrAs.writeBack_at (c : Nat) (rd : Reg) (v : Nat) :
    AbortedOrAs (s.writeBack rd v) ((s.noAbort.setChoices c).writeBack rd v) :=
  .commit_at s c fun k => ⟨k, rfl⟩

theorem AbortedOrAs.writeBack (rd : Reg) (v : Nat) : AbortedOrAs (s.writeBack rd v) (s.noAbort.writeBack rd v) :=
  .writeBack_at s s.choices rd v

theorem AbortedOrAs.writeBounded (rd : Reg) (v : Nat) :
    AbortedOrAs (s.writeBounded rd v) (s.noAbort.writeBounded rd v) := by
  have h : s.noAbort.width = s.width := rfl
  unfold State.writeBounded
  rw [h]
  split
  · exact .raise s _
  · exact .writeBack s rd v

theorem AbortedOrAs.writeDifference (rd : Reg) (a b : Nat) :
    AbortedOrAs (s.writeDifference rd a b) (s.noAbort.writeDifference rd a b) := by
  unfold State.writeDifference
  split
  · exact .raise s _
  · exact .writeBack s rd _

theorem AbortedOrAs.withSource {r : Reg} {k k' : Nat → State} (h : ∀ v, AbortedOrAs (k v) (k' v)) :
    AbortedOrAs (s.withSource r k) (s.noAbort.withSource r k') := by
  have h1 : s.noAbort.isValid r = s.isValid r := rfl
  unfold State.withSource
  rw [h1]
  split
  · exact h _
  · exact .raise s _

theorem AbortedOrAs.withSources {r1 r2 : Reg} {k k' : Nat → Nat → State}
    (h : ∀ a b, AbortedOrAs (k a b) (k' a b)) :
    AbortedOrAs (s.withSources r1 r2 k) (s.noAbort.withSources r1 r2 k') :=
  .withSource s fun _ => .withSource s fun _ => h _ _

theorem AbortedOrAs.withModulus {m : Nat} {k k' : State} (h : AbortedOrAs k k') :
    AbortedOrAs (s.withModulus m k) (s.noAbort.withModulus m k') := by
  unfold State.withModulus
  split
  · exact .raise s _
  · exact h

theorem rounds_noAbort (n k : Nat) : ∀ (s : State) (c : Nat), (rounds n k s).1 ≠ .aborted →
    ∃ c', (rounds n k s) = ((rounds n k (s.noAbort.setChoices c)).1,
      { (rounds n k (s.noAbort.setChoices c)).2 with abortReq := s.abortReq, choices := c' }) := by
  induction k with
  | zero => exact fun s c _ => ⟨s.choices, rfl⟩
  | succ k ih =>
    intro s c h
    obtain ⟨c1, hc⟩ := State.passAbort_eq s
    have e1 : (s.noAbort.setChoices c).abortHere = false := State.abortHere_of_not rfl
    have e2 : (s.noAbort.setChoices c).passAbort = s.noAbort.setChoices c := State.passAbort_of_not rfl
    have e3 : ∀ lo hi, (s.setChoices c1).drawn lo hi = (s.noAbort.setChoices c).drawn lo hi := fun _ _ => rfl
    unfold rounds at h ⊢
    rw [e1, e2]
    split at h
    · exact absurd rfl h
    · next ha =>
      rw [if_neg ha, if_neg Bool.false_ne_true]
      rw [hc, e3] at h ⊢
      split
      · exact ⟨c1, rfl⟩
      · next hs =>
        rw [if_neg hs] at h
        exact ih (s.setChoices c1).tick c h

theorem blockLoop_noAbort (j : BlockJob) (fuel : Nat) : ∀ (s : State) (c : Nat),
    (blockLoop j fuel s).1 ≠ some .aborted →
    ∃ c', (blockLoop j fuel s) = ((blockLoop j fuel (s.noAbort.setChoices c)).1,
      { (blockLoop j fuel (s.noAbort.setChoices c)).2 with abortReq := s.abortReq, choices := c' }) := by
  induction fuel with
  | zero => exact fun s c _ => ⟨s.choices, rfl⟩
  | succ fuel ih =>
    intro s c h
    obtain ⟨c1, hc⟩ := State.passAbort_eq s
    have e1 : (s.noAbort.setChoices c).abortHere = false := State.abortHere_of_not rfl
    have e2 : (s.noAbort.setChoices c).passAbort = s.noAbort.setChoices c := State.passAbort_of_not rfl
    have e4 : (s.noAbort.setChoices c).progress = s.progress := rfl
    have e5 : (s.noAbort.setChoices c).inLen = s.inLen := rfl
    have e6 : (s.noAbort.setChoices c).bufsz = s.bufsz := rfl
    have e7 : ∀ i k, j.value (s.noAbort.setChoices c) i k = j.value s i k := fun _ _ => rfl
    have e8 : ∀ i k, j.value (s.setChoices c1) i k = j.value s i k := fun _ _ => rfl
    have e9 : (s.setChoices c1).bufsz = s.bufsz := rfl
    unfold blockLoop at h ⊢
    simp only [e1, e2, e4, e5, e6, e7, hc, e8, e9, State.setChoices_progress, State.setChoices_inLen,
      Bool.false_eq_true, if_false] at h ⊢
    split at h
    · next hl =>
      simp only [if_pos hl]
      split at h
      · exact absurd rfl h
      · next ha =>
        simp only [if_neg ha]
        generalize encodeBlock _ _ _ = eb at h ⊢
        cases eb with
        | none => exact ⟨c1, rfl⟩
        | some bs =>
          dsimp only at h ⊢
          by_cases hb : s.progress.written + bs.length > s.bufsz
          · rw [if_pos hb, if_pos hb]
            exact ⟨c1, rfl⟩
          · rw [if_neg hb] at h
            rw [if_neg hb, if_neg hb]
            exact ih ((s.setChoices c1).putBlock _ _ _) c h
    · next hl =>
      simp only [if_neg hl]
      exact ⟨s.choices, rfl⟩

/-- BENC and BDEC. -/
theorem AbortedOrAs.runBlocks (ra rc : Reg) (job : Nat → Nat → BlockJob) :
    AbortedOrAs (s.runBlocks ra rc job) (s.noAbort.runBlocks ra rc job) := by
  unfold State.runBlocks
  refine .withSources s fun e n => ?_
  have h1 : s.noAbort.inLen = s.inLen := rfl
  have h2 : s.noAbort.bufsz = s.bufsz := rfl
  rw [h1, h2]
  split
  · exact .raise s _
  · split
    · exact .raise s _
    · have ha := blockLoop_frame (job e n) s.inLen.toNat ((s.noAbort.setOutLen 0).setProgress 0 0)
      have h := blockLoop_noAbort (job e n) s.inLen.toNat ((s.setOutLen 0).setProgress 0 0) s.choices
      replace h : _ → ∃ c', _ = ((blockLoop (job e n) s.inLen.toNat ((s.noAbort.setOutLen 0).setProgress 0 0)).1,
        { (blockLoop (job e n) s.inLen.toNat ((s.noAbort.setOutLen 0).setProgress 0 0)).2 with
          abortReq := s.abortReq, choices := c' }) := h
      generalize blockLoop (job e n) s.inLen.toNat ((s.setOutLen 0).setProgress 0 0) = r at h ⊢
      generalize blockLoop (job e n) s.inLen.toNat ((s.noAbort.setOutLen 0).setProgress 0 0) = q at h ha ⊢
      obtain ⟨r1, r2⟩ := r
      obtain ⟨q1, q2⟩ := q
      by_cases hr : r1 = some .aborted
      · subst hr
        exact .inl rfl
      · obtain ⟨c', h'⟩ := h hr
        obtain ⟨rfl, rfl⟩ := Prod.mk.inj h'
        obtain ⟨⟨m, o, p, k, hq⟩, _⟩ := ha
        replace hq : q2 = (s.withOutput m o p c').noAbort.setChoices k := hq
        have hs : ({ q2 with abortReq := s.abortReq, choices := c' } : State) = s.withOutput m o p c' := by
          rw [hq]
          rfl
        rw [hs, hq]
        cases r1 with
        | some c => exact .inr ⟨c', rfl⟩
        | none => exact .commit_at (s.withOutput m o p c') k fun k => ⟨k, rfl⟩

/-- Whatever the command: it ended with ABORTED, or it did what it does without a request. -/
theorem exec_noAbort (i : Instr) : ∃ t u, exec i s = .next t ∧ exec i s.noAbort = .next u ∧ AbortedOrAs t u := by
  cases i with
  | nop => exact ⟨_, _, rfl, rfl, .commit s fun k => ⟨k, rfl⟩⟩
  | ldi rd imm => exact ⟨_, _, rfl, rfl, .writeBack s rd imm⟩
  | mov rd ra => exact ⟨_, _, rfl, rfl, .withSource s fun _ => .writeBack s rd _⟩
  | add rd ra rb => exact ⟨_, _, rfl, rfl, .withSources s fun _ _ => .writeBounded s rd _⟩
  | addi rd ra imm => exact ⟨_, _, rfl, rfl, .withSource s fun _ => .writeBounded s rd _⟩
  | sub rd ra rb => exact ⟨_, _, rfl, rfl, .withSources s fun _ _ => .writeDifference s rd _ _⟩
  | subi rd ra imm => exact ⟨_, _, rfl, rfl, .withSource s fun _ => .writeDifference s rd _ _⟩
  | cmp rd ra rb => exact ⟨_, _, rfl, rfl, .withSources s fun _ _ => .writeBack s rd _⟩
  | bitlen rd ra => exact ⟨_, _, rfl, rfl, .withSource s fun _ => .writeBack s rd _⟩
  | mul rd ra rb => exact ⟨_, _, rfl, rfl, .withSources s fun _ _ => .writeBounded s rd _⟩
  | mod rd ra rc => exact ⟨_, _, rfl, rfl, .withSources s fun _ _ => .withModulus s (.writeBack s rd _)⟩
  | modmul rd ra rb rc =>
    exact ⟨_, _, rfl, rfl, .withSources s fun _ _ => .withSource s fun _ => .withModulus s (.writeBack s rd _)⟩
  | gcd rd ra rb => exact ⟨_, _, rfl, rfl, .withSources s fun _ _ => .writeBack s rd _⟩
  | modinv rd ra rc =>
    refine ⟨_, _, rfl, rfl, .withSources s fun _ _ => .withModulus s ?_⟩
    split
    · exact .raise s _
    · exact .writeBack s rd _
  | modpow rd ra rb rc =>
    exact ⟨_, _, rfl, rfl, .withSources s fun _ _ => .withSource s fun _ => .withModulus s (.writeBack s rd _)⟩
  | randb rd n =>
    refine ⟨_, _, rfl, rfl, ?_⟩
    have h : s.noAbort.width = s.width := rfl
    rw [h]
    split
    · exact .raise s _
    · exact .writeBack s.tick rd _
  | randc rd n =>
    refine ⟨_, _, rfl, rfl, ?_⟩
    have h : s.noAbort.width = s.width := rfl
    rw [h]
    split
    · exact .raise s _
    · exact .writeBack s.tick rd _
  | trialdiv rd ra =>
    refine ⟨_, _, rfl, rfl, .withSource s fun n => ?_⟩
    cases smallestSmallDivisor n <;> exact .writeBack s rd _
  | mrround rd ra rb =>
    refine ⟨_, _, rfl, rfl, .withSources s fun n a => ?_⟩
    split
    · exact .raise s _
    · split
      · exact .raise s _
      · exact .writeBack s rd _
  | primetest rd ra =>
    refine ⟨_, _, rfl, rfl, .withSource s fun n => ?_⟩
    cases smallestSmallDivisor n with
    | some p => exact .writeBack s rd _
    | none =>
      dsimp only
      split
      · exact .writeBack s rd _
      · split
        · exact .writeBack s rd _
        · have h := rounds_noAbort n s.mrk.toNat s s.choices
          obtain ⟨d, c, hq, _⟩ := rounds_cases n s.mrk.toNat s.noAbort
          replace h : _ → ∃ c', _ = ((rounds n s.mrk.toNat s.noAbort).1,
            { (rounds n s.mrk.toNat s.noAbort).2 with abortReq := s.abortReq, choices := c' }) := h
          have hm : s.noAbort.mrk = s.mrk := rfl
          rw [hm]
          generalize rounds n s.mrk.toNat s = r at h ⊢
          generalize rounds n s.mrk.toNat s.noAbort = q at h hq ⊢
          obtain ⟨r1, r2⟩ := r
          obtain ⟨q1, q2⟩ := q
          by_cases hr : r1 = .aborted
          · subst hr
            exact .inl rfl
          · obtain ⟨c', h'⟩ := h hr
            obtain ⟨rfl, rfl⟩ := Prod.mk.inj h'
            dsimp only at hq
            subst hq
            cases r1 with
            | aborted => exact absurd rfl hr
            | composite => exact .writeBack_at ((s.skipDraws d).setChoices c') c rd 0
            | probablyPrime => exact .writeBack_at ((s.skipDraws d).setChoices c') c rd 1
  | ldb rd =>
    refine ⟨_, _, rfl, rfl, ?_⟩
    have h1 : s.noAbort.arg0 = s.arg0 := rfl
    have h2 : s.noAbort.arg1 = s.arg1 := rfl
    have h3 : s.noAbort.bufsz = s.bufsz := rfl
    have h4 : s.noAbort.width = s.width := rfl
    rw [h1, h2, h3, h4]
    split
    · exact .raise s _
    · split
      · exact .raise s _
      · exact .writeBack s rd _
  | stb ra mode =>
    refine ⟨_, _, rfl, rfl, .withSource s fun v => ?_⟩
    have h1 : s.noAbort.arg0 = s.arg0 := rfl
    have h2 : s.noAbort.arg1 = s.arg1 := rfl
    have h3 : s.noAbort.bufsz = s.bufsz := rfl
    rw [h1, h2, h3]
    split
    · exact .raise s _
    · cases encodeBlock v s.arg1.toNat mode with
      | none => exact .raise s _
      | some bs => exact .commit s fun k => ⟨k, rfl⟩
  | benc ra rc mode => exact ⟨_, _, rfl, rfl, .runBlocks s ra rc _⟩
  | bdec ra rc mode => exact ⟨_, _, rfl, rfl, .runBlocks s ra rc _⟩

end Sys2Proof.Machine
end

