-- ==== Sys2Proof/Laws/Codec.lean ====
section
/-! SUPPORT. The block loop of BENC and BDEC against the function on byte strings of Safety.lean. -/

namespace Sys2Proof.Machine

variable (s : State)

/-! ### Byte strings of IN_BUF, and writes one after another -/

theorem State.readIn_add (off a b : Nat) : s.readIn off (a + b) = s.readIn off a ++ s.readIn (off + a) b := by
  simp [State.readIn, List.range_add, Nat.add_assoc]

theorem Memory.storeBytes_append (bs cs : List Byte) : ∀ (m : Memory) (off : Nat),
    m.storeBytes off (bs ++ cs) = (m.storeBytes off bs).storeBytes (off + bs.length) cs := by
  induction bs with
  | nil => intro m off; rfl
  | cons b bs ih =>
    intro m off
    have h : off + (b :: bs).length = off + 1 + bs.length := by
      rw [List.length_cons]
      omega
    rw [List.cons_append, h]
    exact ih _ _

/-! ### The function on byte strings -/

section
variable {chunk width e n : Nat} {mode : Mode}

@[simp] theorem codecBytes_nil (fuel : Nat) : codecBytes chunk width e n mode fuel [] = some [] := by
  cases fuel <;> rfl

/-- The fuel does not matter when it reaches the length of the input. -/
theorem codecBytes_fuel (hc : 0 < chunk) : ∀ (fuel : Nat) (input : List Byte), input.length ≤ fuel →
    codecBytes chunk width e n mode fuel input = codecBytes chunk width e n mode input.length input := by
  intro fuel
  induction fuel using Nat.strong_induction_on with
  | _ fuel ih =>
    intro input h
    cases input with
    | nil => rw [codecBytes_nil, codecBytes_nil]
    | cons b bs =>
      cases fuel with
      | zero => simp at h
      | succ fuel =>
        have hl : ((b :: bs).drop chunk).length ≤ bs.length := by
          rw [List.length_drop, List.length_cons]
          omega
        have hf : bs.length ≤ fuel := by simpa using h
        rw [List.length_cons]
        unfold codecBytes
        rw [ih fuel (by omega) _ (by omega), ← ih bs.length (by omega) _ hl]

/-- One block and the rest. -/
theorem codecBytes_append (hc : 0 < chunk) {first rest block more : List Byte} (hf : first ≠ [])
    (hl : first.length = chunk ∨ (first.length ≤ chunk ∧ rest = []))
    (hb : encodeBlock (beToInt first ^ e % n) width mode = some block)
    (hm : codecBytes chunk width e n mode rest.length rest = some more) :
    codecBytes chunk width e n mode (first ++ rest).length (first ++ rest) = some (block ++ more) := by
  have ht : (first ++ rest).take chunk = first ∧ (first ++ rest).drop chunk = rest := by
    rcases hl with rfl | ⟨h, rfl⟩
    · exact ⟨List.take_left .., List.drop_left ..⟩
    · simp [List.take_of_length_le h, List.drop_of_length_le h]
  obtain ⟨b, bs, rfl⟩ := List.exists_cons_of_ne_nil hf
  rw [List.cons_append, List.length_cons] at *
  unfold codecBytes
  rw [ht.1, ht.2, hb, codecBytes_fuel hc _ rest (by rw [List.length_append]; omega), hm]

end

/-! ### The block loop -/

/-- Nothing written and nothing consumed: the state is as it was, but for the index of abort choices. -/
theorem State.putBlock_nil (hw : s.progress.written = s.outLen.toNat) :
    s.putBlock s.progress.consumed s.progress.written [] = s := by
  have h : BitVec.ofNat 32 s.progress.written = s.outLen := by rw [hw, BitVec.ofNat_toNat, BitVec.setWidth_eq]
  simp only [State.putBlock, State.writeOut, State.setOutLen, State.setProgress, Memory.storeBytes, List.length_nil,
    Nat.add_zero, h]

/-- Two blocks put one after another are one. -/
theorem State.putBlock_putBlock (i i' o : Nat) (bs cs : List Byte) :
    (s.putBlock i o bs).putBlock i' (o + bs.length) cs = s.putBlock i' o (bs ++ cs) := by
  simp only [State.putBlock, State.writeOut, State.setOutLen, State.setProgress, Memory.storeBytes_append,
    List.length_append, Nat.add_assoc]

/-- Why a loop ended is a question about what putting a block leaves alone. -/
theorem LoopEnded.putBlock_iff {k i o : Nat} {bs : List Byte} {e : Option ErrorCode} {i' o' c w x n : Nat} {m : Mode} :
    LoopEnded ((s.setChoices k).putBlock i o bs) e i' o' c w x n m ↔ LoopEnded s e i' o' c w x n m := by
  have h1 : ((s.setChoices k).putBlock i o bs).readIn = s.readIn := rfl
  have h2 : ((s.setChoices k).putBlock i o bs).inLen = s.inLen := rfl
  have h3 : ((s.setChoices k).putBlock i o bs).bufsz = s.bufsz := rfl
  have h4 : ((s.setChoices k).putBlock i o bs).abortReq = s.abortReq := rfl
  simp only [LoopEnded, h1, h2, h3, h4]

theorem LoopEnded.start_iff {e : Option ErrorCode} {i o c w x n : Nat} {m : Mode} :
    LoopEnded ((s.setOutLen 0).setProgress 0 0) e i o c w x n m ↔ LoopEnded s e i o c w x n m := by
  have h1 : ((s.setOutLen 0).setProgress 0 0).readIn = s.readIn := rfl
  have h2 : ((s.setOutLen 0).setProgress 0 0).bufsz = s.bufsz := rfl
  simp only [LoopEnded, h1, h2, State.setProgress_inLen, State.setOutLen_inLen, State.setProgress_abortReq,
    State.setOutLen_abortReq]

/-- All that the block loop does: it consumes d bytes in whole chunks, puts their blocks from where it stood, and ends
for one of the reasons of `LoopEnded`. -/
theorem blockLoop_spec (j : BlockJob) (hc : 0 < j.chunk) (fuel : Nat) : ∀ s : State, s.bufsz < 2 ^ 32 →
    s.progress.written = s.outLen.toNat → s.progress.written ≤ s.bufsz →
    s.progress.consumed ≤ s.inLen.toNat → s.inLen.toNat - s.progress.consumed ≤ fuel →
    ∃ k d out, s.progress.consumed + d ≤ s.inLen.toNat ∧
      (d % j.chunk = 0 ∨ s.progress.consumed + d = s.inLen.toNat) ∧
      codecBytes j.chunk j.width j.exponent j.modulus j.mode d (s.readIn s.progress.consumed d) = some out ∧
      s.progress.written + out.length ≤ s.bufsz ∧
      (blockLoop j fuel s).2 = (s.putBlock (s.progress.consumed + d) s.progress.written out).setChoices k ∧
      LoopEnded s (blockLoop j fuel s).1 (s.progress.consumed + d) (s.progress.written + out.length)
        j.chunk j.width j.exponent j.modulus j.mode := by
  have stop : ∀ (s : State) (k : Nat) (r : Option ErrorCode × State), s.progress.written = s.outLen.toNat →
      s.progress.written ≤ s.bufsz → s.progress.consumed ≤ s.inLen.toNat → r.2 = s.setChoices k →
      LoopEnded s r.1 s.progress.consumed s.progress.written j.chunk j.width j.exponent j.modulus j.mode →
      ∃ k d out, s.progress.consumed + d ≤ s.inLen.toNat ∧
        (d % j.chunk = 0 ∨ s.progress.consumed + d = s.inLen.toNat) ∧
        codecBytes j.chunk j.width j.exponent j.modulus j.mode d (s.readIn s.progress.consumed d) = some out ∧
        s.progress.written + out.length ≤ s.bufsz ∧
        r.2 = (s.putBlock (s.progress.consumed + d) s.progress.written out).setChoices k ∧
        LoopEnded s r.1 (s.progress.consumed + d) (s.progress.written + out.length)
          j.chunk j.width j.exponent j.modulus j.mode := by
    intro s k r hw hle hi hr hl
    refine ⟨k, 0, [], hi, .inl (Nat.zero_mod _), rfl, hle, ?_, hl⟩
    rw [hr, Nat.add_zero, State.putBlock_nil s hw]
  induction fuel with
  | zero =>
    intro s _ hw hle hi hf
    exact stop s s.choices _ hw hle hi rfl (by simp only [blockLoop, LoopEnded]; omega)
  | succ fuel ih =>
    intro s hb hw hle hi hf
    obtain ⟨k, hk⟩ := State.passAbort_eq s
    generalize hr : blockLoop j (fuel + 1) s = r
    unfold blockLoop at hr
    split at hr
    · next hlt =>
      split at hr
      · next h =>
        subst hr
        exact stop s k _ hw hle hi hk (State.abortReq_of_abortHere h)
      · rw [hk] at hr
        dsimp only at hr
        have hv : j.value (s.setChoices k) s.progress.consumed (min j.chunk (s.inLen.toNat - s.progress.consumed)) =
            beToInt (s.readIn s.progress.consumed (min j.chunk (s.inLen.toNat - s.progress.consumed))) ^
              j.exponent % j.modulus := powMod_eq _ _ _
        simp only [State.setChoices_progress, State.setChoices_inLen, hv] at hr
        split at hr
        · next hn =>
          subst hr
          refine stop s k _ hw hle hi rfl ⟨hlt, ?_⟩
          by_contra hlt'
          have := (encodeBlock_isSome _ j.width j.mode).2 (Nat.lt_of_not_le hlt')
          rw [hn] at this
          cases this
        · next bs hbs =>
          generalize hm : min j.chunk (s.inLen.toNat - s.progress.consumed) = m at hbs hv hr
          replace hr : (if s.progress.written + bs.length > s.bufsz then (some .bufRange, s.setChoices k)
            else blockLoop j fuel ((s.setChoices k).putBlock (s.progress.consumed + m) s.progress.written bs)) = r := hr
          split at hr
          · next hgt =>
            subst hm
            subst hr
            exact stop s k _ hw hle hi rfl ⟨hlt, bs, hbs, hgt⟩
          · next hgt =>
            subst hr
            have hfit : s.progress.written + bs.length ≤ s.bufsz := Nat.le_of_not_gt hgt
            have ih' := ih ((s.setChoices k).putBlock (s.progress.consumed + m) s.progress.written bs) hb
              (by
                show s.progress.written + bs.length = (BitVec.ofNat 32 (s.progress.written + bs.length)).toNat
                rw [BitVec.toNat_ofNat, Nat.mod_eq_of_lt (by omega)])
              hfit (by show s.progress.consumed + m ≤ s.inLen.toNat; omega)
              (by show s.inLen.toNat - (s.progress.consumed + m) ≤ fuel; omega)
            obtain ⟨k', d, out, h1, h2, h3, h4, h5, h6⟩ := ih'
            replace h1 : s.progress.consumed + m + d ≤ s.inLen.toNat := h1
            replace h2 : d % j.chunk = 0 ∨ s.progress.consumed + m + d = s.inLen.toNat := h2
            replace h3 : codecBytes j.chunk j.width j.exponent j.modulus j.mode d
              (s.readIn (s.progress.consumed + m) d) = some out := h3
            replace h4 : s.progress.written + bs.length + out.length ≤ s.bufsz := h4
            have hl : (s.readIn s.progress.consumed m).length = m := State.readIn_length s _ _
            have hd : (s.readIn s.progress.consumed m ++ s.readIn (s.progress.consumed + m) d).length = m + d := by
              simp [State.readIn_length]
            refine ⟨k', m + d, bs ++ out, by omega, ?_, ?_, by rw [List.length_append]; omega, ?_, ?_⟩
            · rcases Nat.lt_or_ge m j.chunk with hlt' | hge
              · exact .inr (by omega)
              · rcases h2 with h2 | h2
                · exact .inl (by rw [show m = j.chunk by omega, Nat.add_mod_left]; exact h2)
                · exact .inr (by omega)
            · rw [State.readIn_add, ← hd]
              refine codecBytes_append hc ?_ ?_ hbs (by rw [State.readIn_length]; exact h3)
              · intro h
                rw [h] at hl
                simp at hl
                omega
              · rcases Nat.lt_or_ge m j.chunk with hlt' | hge
                · have : d = 0 := by omega
                  subst this
                  exact .inr ⟨by omega, rfl⟩
                · exact .inl (by omega)
            · rw [h5, ← Nat.add_assoc]
              have h := congrArg (State.setChoices · k')
                (State.putBlock_putBlock (s.setChoices k) (s.progress.consumed + m) (s.progress.consumed + m + d)
                  s.progress.written bs out)
              exact h
            · rw [List.length_append, ← Nat.add_assoc, ← Nat.add_assoc]
              exact (LoopEnded.putBlock_iff s).1 h6
    · next hge =>
      subst hr
      exact stop s s.choices _ hw hle hi rfl (by simp only [LoopEnded]; omega)

/-- All that BENC and BDEC do once their checks have passed: they put the blocks of d bytes from the start of both
buffers, and end for one of the reasons of `LoopEnded`. -/
theorem runBlocks_spec {ra rc : Reg} {job : Nat → Nat → BlockJob} {j : BlockJob}
    (hj : job (s.reg ra) (s.reg rc) = j) (h1 : s.isValid ra = true) (h2 : s.isValid rc = true)
    (hi : s.inLen.toNat ≤ s.bufsz) (hm : 8 ≤ bitlen (s.reg rc)) (hc : 0 < j.chunk) (hb : s.bufsz < 2 ^ 32) :
    ∃ d out k e, d ≤ s.inLen.toNat ∧ (d % j.chunk = 0 ∨ d = s.inLen.toNat) ∧
      codecBytes j.chunk j.width j.exponent j.modulus j.mode d (s.readIn 0 d) = some out ∧ out.length ≤ s.bufsz ∧
      s.runBlocks ra rc job = ((s.putBlock d 0 out).setChoices k).complete e ∧
      LoopEnded s e d out.length j.chunk j.width j.exponent j.modulus j.mode := by
  unfold State.runBlocks
  rw [State.withSources_of_valid h1 h2, if_neg (by omega), if_neg (by omega), hj]
  obtain ⟨k, d, out, g1, g2, g3, g4, g5, g6⟩ := blockLoop_spec j hc s.inLen.toNat ((s.setOutLen 0).setProgress 0 0) hb
    rfl (Nat.zero_le _) (Nat.zero_le _) (Nat.sub_le _ _)
  have hp : ((s.setOutLen 0).setProgress 0 0).progress = { consumed := 0, written := 0 } := rfl
  rw [hp] at g1 g2 g3 g4 g5 g6
  simp only [Nat.zero_add] at g1 g2 g3 g4 g5 g6
  replace g5 : _ = (s.putBlock d 0 out).setChoices k := g5
  replace g6 : LoopEnded s _ d out.length _ _ _ _ _ := (LoopEnded.start_iff s).1 g6
  refine ⟨d, out, ?_⟩
  generalize blockLoop j s.inLen.toNat ((s.setOutLen 0).setProgress 0 0) = r at g5 g6 ⊢
  obtain ⟨r1, r2⟩ := r
  dsimp only at g5
  subst g5
  cases r1 with
  | some c => exact ⟨k, some c, g1, g2, g3, g4, rfl, g6⟩
  | none =>
    obtain ⟨k', hk⟩ := State.passAbort_eq ((s.putBlock d 0 out).setChoices k)
    rcases State.commit_cases ((s.putBlock d 0 out).setChoices k) id with ⟨ha, e⟩ | e
    · exact ⟨k', some .aborted, g1, g2, g3, g4, by simp only [e, hk]; rfl, ha⟩
    · exact ⟨k', none, g1, g2, g3, g4, by simp only [e, hk]; rfl, g6⟩

end Sys2Proof.Machine
end

