-- ==== Sys2Proof/Laws/Encoding.lean ====
section
/-! SUPPORT. Masks as arithmetic: what (w AND mask) = match says about the fields of a word, for each mask of
30_encoding.md R95, and the fields of an encoded word. -/

namespace Sys2Proof

/-- AND splits at any bit. -/
theorem land_split (n k a b : Nat) (ha : a < 2 ^ k) :
    n &&& (2 ^ k * b + a) = 2 ^ k * (n / 2 ^ k &&& b) + (n % 2 ^ k &&& a) := by
  have hlt : n % 2 ^ k &&& a < 2 ^ k := Nat.and_lt_two_pow _ ha
  apply Nat.eq_of_testBit_eq
  intro j
  rw [Nat.testBit_and, Nat.testBit_two_pow_mul_add _ ha, Nat.testBit_two_pow_mul_add _ hlt, Nat.testBit_and,
    Nat.testBit_and]
  split
  · next h => simp [Nat.testBit_mod_two_pow, h]
  · next h =>
    have : j - k + k = j := by omega
    simp [Nat.testBit_div_two_pow, this]

theorem land_ones (n k : Nat) : n &&& (2 ^ k - 1) = n % 2 ^ k := Nat.and_two_pow_sub_one_eq_mod n k

/-- AND with zero, ones, k unmasked bits and an upper mask. -/
theorem land_zero_ones (n k len : Nat) : n &&& (2 ^ k * (2 ^ len - 1)) = 2 ^ k * (n / 2 ^ k % 2 ^ len) := by
  have := land_split n k 0 (2 ^ len - 1) (Nat.two_pow_pos k)
  simpa [land_ones] using this

/-- The masked word as a number. -/
theorem and_eq_iff (w mask pattern : Word) : w &&& mask = pattern ↔ w.toNat &&& mask.toNat = pattern.toNat := by
  rw [← BitVec.toNat_inj, BitVec.toNat_and]

theorem and_FFFFFFFF (w : Word) (op : Nat) :
    w.toNat &&& 0xFFFFFFFF = op ↔ w.toNat = op := by
  have h := land_ones w.toNat 32
  have := w.isLt
  norm_num at h
  rw [h]
  omega

theorem and_000000FF (w : Word) (op : Nat) : w.toNat &&& 0x000000FF = op ↔ w.toNat % 256 = op := by
  have h := land_ones w.toNat 8
  norm_num at h
  rw [h]

theorem and_0000F0FF (w : Word) (op : Nat) (ho : op < 256) :
    w.toNat &&& 0x0000F0FF = op ↔ w.toNat % 256 = op ∧ w.toNat / 4096 % 16 = 0 := by
  have h := land_split w.toNat 12 0xFF 0xF (by norm_num)
  have h1 := land_ones (w.toNat / 2 ^ 12) 4
  have h2 := land_ones (w.toNat % 2 ^ 12) 8
  norm_num at h h1 h2
  rw [h, h1, h2]
  omega

theorem and_FFFF00FF (w : Word) (op : Nat) (ho : op < 256) :
    w.toNat &&& 0xFFFF00FF = op ↔ w.toNat % 256 = op ∧ w.toNat / 65536 = 0 := by
  have h := land_split w.toNat 16 0xFF 0xFFFF (by norm_num)
  have h1 := land_ones (w.toNat / 2 ^ 16) 16
  have h2 := land_ones (w.toNat % 2 ^ 16) 8
  have := w.isLt
  norm_num at h h1 h2
  rw [h, h1, h2]
  omega

theorem and_FFF000FF (w : Word) (op : Nat) (ho : op < 256) :
    w.toNat &&& 0xFFF000FF = op ↔ w.toNat % 256 = op ∧ w.toNat / 1048576 = 0 := by
  have h := land_split w.toNat 20 0xFF 0xFFF (by norm_num)
  have h1 := land_ones (w.toNat / 2 ^ 20) 12
  have h2 := land_ones (w.toNat % 2 ^ 20) 8
  have := w.isLt
  norm_num at h h1 h2
  rw [h, h1, h2]
  omega

theorem and_FF0000FF (w : Word) (op : Nat) (ho : op < 256) :
    w.toNat &&& 0xFF0000FF = op ↔ w.toNat % 256 = op ∧ w.toNat / 16777216 = 0 := by
  have h := land_split w.toNat 24 0xFF 0xFF (by norm_num)
  have h1 := land_ones (w.toNat / 2 ^ 24) 8
  have h2 := land_ones (w.toNat % 2 ^ 24) 8
  have := w.isLt
  norm_num at h h1 h2
  rw [h, h1, h2]
  omega

theorem and_FF0F00FF (w : Word) (op : Nat) (ho : op < 256) :
    w.toNat &&& 0xFF0F00FF = op ↔
      w.toNat % 256 = op ∧ w.toNat / 65536 % 16 = 0 ∧ w.toNat / 16777216 = 0 := by
  have h := land_split w.toNat 24 0x0F00FF 0xFF (by norm_num)
  have h0 := land_split (w.toNat % 2 ^ 24) 16 0xFF 0xF (by norm_num)
  have h1 := land_ones (w.toNat / 2 ^ 24) 8
  have h2 := land_ones (w.toNat % 2 ^ 24 / 2 ^ 16) 4
  have h3 := land_ones (w.toNat % 2 ^ 24 % 2 ^ 16) 8
  have := w.isLt
  norm_num at h h0 h1 h2 h3
  rw [h, h0, h1, h2, h3]
  omega

theorem and_FFFFF0FF (w : Word) (op : Nat) (ho : op < 256) :
    w.toNat &&& 0xFFFFF0FF = op ↔ w.toNat % 256 = op ∧ w.toNat / 4096 = 0 := by
  have h := land_split w.toNat 12 0xFF 0xFFFFF (by norm_num)
  have h1 := land_ones (w.toNat / 2 ^ 12) 20
  have h2 := land_ones (w.toNat % 2 ^ 12) 8
  have := w.isLt
  norm_num at h h1 h2
  rw [h, h1, h2]
  omega

theorem and_FEFF0FFF (w : Word) (op : Nat) (ho : op < 256) :
    w.toNat &&& 0xFEFF0FFF = op ↔
      w.toNat % 4096 = op ∧ w.toNat / 65536 % 256 = 0 ∧ w.toNat / 33554432 = 0 := by
  have h := land_split w.toNat 25 0xFF0FFF 0x7F (by norm_num)
  have h0 := land_split (w.toNat % 2 ^ 25) 16 0xFFF 0xFF (by norm_num)
  have h1 := land_ones (w.toNat / 2 ^ 25) 7
  have h2 := land_ones (w.toNat % 2 ^ 25 / 2 ^ 16) 8
  have h3 := land_ones (w.toNat % 2 ^ 25 % 2 ^ 16) 12
  have := w.isLt
  norm_num at h h0 h1 h2 h3
  rw [h, h0, h1, h2, h3]
  omega

theorem and_FE0F0FFF (w : Word) (op : Nat) (ho : op < 256) :
    w.toNat &&& 0xFE0F0FFF = op ↔
      w.toNat % 4096 = op ∧ w.toNat / 65536 % 16 = 0 ∧ w.toNat / 33554432 = 0 := by
  have h := land_split w.toNat 25 0x0F0FFF 0x7F (by norm_num)
  have h0 := land_split (w.toNat % 2 ^ 25) 16 0xFFF 0xF (by norm_num)
  have h1 := land_ones (w.toNat / 2 ^ 25) 7
  have h2 := land_ones (w.toNat % 2 ^ 25 / 2 ^ 16) 4
  have h3 := land_ones (w.toNat % 2 ^ 25 % 2 ^ 16) 12
  have := w.isLt
  norm_num at h h0 h1 h2 h3
  rw [h, h0, h1, h2, h3]
  omega

/-- A format R word as a number. -/
theorem formatR_toNat (op l : Nat) (rd ra rb rc : Reg) (ho : op < 256) (hl : l < 2) :
    (formatR op rd ra rb rc l).toNat =
      op + rd.val * 256 + ra.val * 4096 + rb.val * 65536 + rc.val * 1048576 + l * 16777216 := by
  rw [formatR, BitVec.toNat_ofNat]
  omega

/-- A format I word as a number. -/
theorem formatI_toNat (op imm : Nat) (rd ra : Reg) (ho : op < 256) (hi : imm < 65536) :
    (formatI op rd ra imm).toNat = op + rd.val * 256 + ra.val * 4096 + imm * 65536 := by
  rw [formatI, BitVec.toNat_ofNat]
  omega

theorem Mode.bit_lt (m : Mode) : m.bit < 2 := by cases m <;> decide

end Sys2Proof
end

