-- ==== Sys2Proof/Laws/PerInstr.lean ====
section
/-! SUPPORT. The family RowMatch, made per instruction: the encoding of a well-formed instruction matches its own row
of 30_encoding.md R95. -/

namespace Sys2Proof.Laws.RowMatch

/-- The encoding of i, ANDed with its row's mask, is its row's match. -/
def Statement (i : Instr) : Prop := i.wellFormed = true → encode i &&& maskOf i = patternOf i

theorem immOk_lt {imm : Nat} (h : immOk imm = true) : imm < 65536 := of_decide_eq_true h

theorem nop : Statement .nop := fun _ => by decide

theorem ldi (rd : Reg) (imm : Nat) : Statement (.ldi rd imm) := by
  intro h
  have e : (encode (.ldi rd imm)).toNat = _ := formatI_toNat 0x01 imm rd 0 (by norm_num) (immOk_lt h)
  have hrd := rd.isLt
  refine (and_eq_iff _ _ _).2 ((and_0000F0FF _ 0x01 (by decide)).2 ?_)
  rw [e]
  omega

theorem mov (rd ra : Reg) : Statement (.mov rd ra) := by
  intro _
  have e : (encode (.mov rd ra)).toNat = _ := formatR_toNat 0x02 0 rd ra 0 0 (by norm_num) (by norm_num)
  have hrd := rd.isLt
  have hra := ra.isLt
  refine (and_eq_iff _ _ _).2 ((and_FFFF00FF _ 0x02 (by decide)).2 ?_)
  rw [e]
  omega

theorem add (rd ra rb : Reg) : Statement (.add rd ra rb) := by
  intro _
  have e : (encode (.add rd ra rb)).toNat = _ := formatR_toNat 0x03 0 rd ra rb 0 (by norm_num) (by norm_num)
  have hrd := rd.isLt
  have hra := ra.isLt
  have hrb := rb.isLt
  refine (and_eq_iff _ _ _).2 ((and_FFF000FF _ 0x03 (by decide)).2 ?_)
  rw [e]
  omega

theorem addi (rd ra : Reg) (imm : Nat) : Statement (.addi rd ra imm) := by
  intro h
  have e : (encode (.addi rd ra imm)).toNat = _ := formatI_toNat 0x04 imm rd ra (by norm_num) (immOk_lt h)
  have hrd := rd.isLt
  have hra := ra.isLt
  refine (and_eq_iff _ _ _).2 ((and_000000FF _ 0x04).2 ?_)
  rw [e]
  omega

theorem sub (rd ra rb : Reg) : Statement (.sub rd ra rb) := by
  intro _
  have e : (encode (.sub rd ra rb)).toNat = _ := formatR_toNat 0x05 0 rd ra rb 0 (by norm_num) (by norm_num)
  have hrd := rd.isLt
  have hra := ra.isLt
  have hrb := rb.isLt
  refine (and_eq_iff _ _ _).2 ((and_FFF000FF _ 0x05 (by decide)).2 ?_)
  rw [e]
  omega

theorem subi (rd ra : Reg) (imm : Nat) : Statement (.subi rd ra imm) := by
  intro h
  have e : (encode (.subi rd ra imm)).toNat = _ := formatI_toNat 0x06 imm rd ra (by norm_num) (immOk_lt h)
  have hrd := rd.isLt
  have hra := ra.isLt
  refine (and_eq_iff _ _ _).2 ((and_000000FF _ 0x06).2 ?_)
  rw [e]
  omega

theorem cmp (rd ra rb : Reg) : Statement (.cmp rd ra rb) := by
  intro _
  have e : (encode (.cmp rd ra rb)).toNat = _ := formatR_toNat 0x07 0 rd ra rb 0 (by norm_num) (by norm_num)
  have hrd := rd.isLt
  have hra := ra.isLt
  have hrb := rb.isLt
  refine (and_eq_iff _ _ _).2 ((and_FFF000FF _ 0x07 (by decide)).2 ?_)
  rw [e]
  omega

theorem bitlen (rd ra : Reg) : Statement (.bitlen rd ra) := by
  intro _
  have e : (encode (.bitlen rd ra)).toNat = _ := formatR_toNat 0x08 0 rd ra 0 0 (by norm_num) (by norm_num)
  have hrd := rd.isLt
  have hra := ra.isLt
  refine (and_eq_iff _ _ _).2 ((and_FFFF00FF _ 0x08 (by decide)).2 ?_)
  rw [e]
  omega

theorem mul (rd ra rb : Reg) : Statement (.mul rd ra rb) := by
  intro _
  have e : (encode (.mul rd ra rb)).toNat = _ := formatR_toNat 0x10 0 rd ra rb 0 (by norm_num) (by norm_num)
  have hrd := rd.isLt
  have hra := ra.isLt
  have hrb := rb.isLt
  refine (and_eq_iff _ _ _).2 ((and_FFF000FF _ 0x10 (by decide)).2 ?_)
  rw [e]
  omega

theorem mod (rd ra rc : Reg) : Statement (.mod rd ra rc) := by
  intro _
  have e : (encode (.mod rd ra rc)).toNat = _ := formatR_toNat 0x11 0 rd ra 0 rc (by norm_num) (by norm_num)
  have hrd := rd.isLt
  have hra := ra.isLt
  have hrc := rc.isLt
  refine (and_eq_iff _ _ _).2 ((and_FF0F00FF _ 0x11 (by decide)).2 ?_)
  rw [e]
  omega

theorem modmul (rd ra rb rc : Reg) : Statement (.modmul rd ra rb rc) := by
  intro _
  have e : (encode (.modmul rd ra rb rc)).toNat = _ := formatR_toNat 0x12 0 rd ra rb rc (by norm_num) (by norm_num)
  have hrd := rd.isLt
  have hra := ra.isLt
  have hrb := rb.isLt
  have hrc := rc.isLt
  refine (and_eq_iff _ _ _).2 ((and_FF0000FF _ 0x12 (by decide)).2 ?_)
  rw [e]
  omega

theorem gcd (rd ra rb : Reg) : Statement (.gcd rd ra rb) := by
  intro _
  have e : (encode (.gcd rd ra rb)).toNat = _ := formatR_toNat 0x20 0 rd ra rb 0 (by norm_num) (by norm_num)
  have hrd := rd.isLt
  have hra := ra.isLt
  have hrb := rb.isLt
  refine (and_eq_iff _ _ _).2 ((and_FFF000FF _ 0x20 (by decide)).2 ?_)
  rw [e]
  omega

theorem modinv (rd ra rc : Reg) : Statement (.modinv rd ra rc) := by
  intro _
  have e : (encode (.modinv rd ra rc)).toNat = _ := formatR_toNat 0x21 0 rd ra 0 rc (by norm_num) (by norm_num)
  have hrd := rd.isLt
  have hra := ra.isLt
  have hrc := rc.isLt
  refine (and_eq_iff _ _ _).2 ((and_FF0F00FF _ 0x21 (by decide)).2 ?_)
  rw [e]
  omega

theorem modpow (rd ra rb rc : Reg) : Statement (.modpow rd ra rb rc) := by
  intro _
  have e : (encode (.modpow rd ra rb rc)).toNat = _ := formatR_toNat 0x22 0 rd ra rb rc (by norm_num) (by norm_num)
  have hrd := rd.isLt
  have hra := ra.isLt
  have hrb := rb.isLt
  have hrc := rc.isLt
  refine (and_eq_iff _ _ _).2 ((and_FF0000FF _ 0x22 (by decide)).2 ?_)
  rw [e]
  omega

theorem randb (rd : Reg) (imm : Nat) : Statement (.randb rd imm) := by
  intro h
  have e : (encode (.randb rd imm)).toNat = _ := formatI_toNat 0x28 imm rd 0 (by norm_num) (immOk_lt h)
  have hrd := rd.isLt
  refine (and_eq_iff _ _ _).2 ((and_0000F0FF _ 0x28 (by decide)).2 ?_)
  rw [e]
  omega

theorem randc (rd : Reg) (imm : Nat) : Statement (.randc rd imm) := by
  intro h
  have e : (encode (.randc rd imm)).toNat = _ := formatI_toNat 0x29 imm rd 0 (by norm_num) (immOk_lt h)
  have hrd := rd.isLt
  refine (and_eq_iff _ _ _).2 ((and_0000F0FF _ 0x29 (by decide)).2 ?_)
  rw [e]
  omega

theorem trialdiv (rd ra : Reg) : Statement (.trialdiv rd ra) := by
  intro _
  have e : (encode (.trialdiv rd ra)).toNat = _ := formatR_toNat 0x30 0 rd ra 0 0 (by norm_num) (by norm_num)
  have hrd := rd.isLt
  have hra := ra.isLt
  refine (and_eq_iff _ _ _).2 ((and_FFFF00FF _ 0x30 (by decide)).2 ?_)
  rw [e]
  omega

theorem mrround (rd ra rb : Reg) : Statement (.mrround rd ra rb) := by
  intro _
  have e : (encode (.mrround rd ra rb)).toNat = _ := formatR_toNat 0x31 0 rd ra rb 0 (by norm_num) (by norm_num)
  have hrd := rd.isLt
  have hra := ra.isLt
  have hrb := rb.isLt
  refine (and_eq_iff _ _ _).2 ((and_FFF000FF _ 0x31 (by decide)).2 ?_)
  rw [e]
  omega

theorem primetest (rd ra : Reg) : Statement (.primetest rd ra) := by
  intro _
  have e : (encode (.primetest rd ra)).toNat = _ := formatR_toNat 0x32 0 rd ra 0 0 (by norm_num) (by norm_num)
  have hrd := rd.isLt
  have hra := ra.isLt
  refine (and_eq_iff _ _ _).2 ((and_FFFF00FF _ 0x32 (by decide)).2 ?_)
  rw [e]
  omega

theorem ldb (rd : Reg) : Statement (.ldb rd) := by
  intro _
  have e : (encode (.ldb rd)).toNat = _ := formatR_toNat 0x40 0 rd 0 0 0 (by norm_num) (by norm_num)
  have hrd := rd.isLt
  refine (and_eq_iff _ _ _).2 ((and_FFFFF0FF _ 0x40 (by decide)).2 ?_)
  rw [e]
  omega

theorem stb (ra : Reg) (mode : Mode) : Statement (.stb ra mode) := by
  intro _
  have e : (encode (.stb ra mode)).toNat = _ := formatR_toNat 0x41 mode.bit 0 ra 0 0 (by norm_num) mode.bit_lt
  have hra := ra.isLt
  have hm := mode.bit_lt
  refine (and_eq_iff _ _ _).2 ((and_FEFF0FFF _ 0x41 (by decide)).2 ?_)
  rw [e]
  omega

theorem benc (ra rc : Reg) (mode : Mode) : Statement (.benc ra rc mode) := by
  intro _
  have e : (encode (.benc ra rc mode)).toNat = _ := formatR_toNat 0x48 mode.bit 0 ra 0 rc (by norm_num) mode.bit_lt
  have hra := ra.isLt
  have hrc := rc.isLt
  have hm := mode.bit_lt
  refine (and_eq_iff _ _ _).2 ((and_FE0F0FFF _ 0x48 (by decide)).2 ?_)
  rw [e]
  omega

theorem bdec (ra rc : Reg) (mode : Mode) : Statement (.bdec ra rc mode) := by
  intro _
  have e : (encode (.bdec ra rc mode)).toNat = _ := formatR_toNat 0x49 mode.bit 0 ra 0 rc (by norm_num) mode.bit_lt
  have hra := ra.isLt
  have hrc := rc.isLt
  have hm := mode.bit_lt
  refine (and_eq_iff _ _ _).2 ((and_FE0F0FFF _ 0x49 (by decide)).2 ?_)
  rw [e]
  omega

end Sys2Proof.Laws.RowMatch
end

