-- ==== Sys2Proof/Laws/Step.lean ====
section
/-! SUPPORT. What a step can do: the engine runs the command, an input arrives, or nothing moves; and what an access
to the window does. -/

namespace Sys2Proof.Machine

variable (s : State)

theorem step_of_engine {s : State} (h : s.nextMove = .engine) {i : Instr} (hd : decode s.cmd = .ok i) :
    step s = exec i s := by
  have hd' : s.fetch = .ok i := hd
  simp [step, h, hd']

theorem step_of_illegal {s : State} (h : s.nextMove = .engine) {r : Reject} (hd : decode s.cmd = .error r) :
    step s = .next (s.complete (some .illegal)) := by
  have hd' : s.fetch = .error r := hd
  simp [step, h, hd']

theorem step_of_input {s : State} {i : Input} {left : List Input} (h : s.nextMove = .input i left) :
    step s = (s.dequeue left).serve i := by
  simp [step, h]

/-- A step is one of these four. -/
theorem step_cases {t : State} (h : step s = .next t) :
    (s.nextMove = .engine ∧ ∃ i, decode s.cmd = .ok i ∧ exec i s = .next t) ∨
    (s.nextMove = .engine ∧ (∃ r, decode s.cmd = .error r) ∧ t = s.complete (some .illegal)) ∨
    (∃ i left, s.nextMove = .input i left ∧ (s.dequeue left).serve i = .next t) ∨
    (s.nextMove = .quiet ∧ t = s) := by
  unfold step at h
  split at h
  · next hm =>
    split at h
    · next i hi => exact .inl ⟨hm, i, hi, h⟩
    · next r hr =>
      cases h
      exact .inr (.inl ⟨hm, ⟨r, hr⟩, rfl⟩)
  · next i left hm => exact .inr (.inr (.inl ⟨i, left, hm, h⟩))
  · next hm =>
    cases h
    exact .inr (.inr (.inr ⟨hm, rfl⟩))

theorem nextMove_engine_busy {s : State} (h : s.nextMove = .engine) : s.phase = .busy := by
  unfold State.nextMove at h
  split at h <;> first | assumption | simp at h

/-- While an input arrives, the engine is idle or has inputs left to wait for. -/
theorem nextMove_input {s : State} {i : Input} {left : List Input} (h : s.nextMove = .input i left) :
    s.inputs = i :: left ∧ (s.phase = .busy → s.wait ≠ 0 ∧ i ≠ .pause) := by
  unfold State.nextMove at h
  split at h <;> simp_all
  split at h <;> simp_all

theorem nextMove_of_idle {s : State} (h : s.phase = .idle) {i : Input} {left : List Input}
    (hi : s.inputs = i :: left) : s.nextMove = .input i left := by
  simp [State.nextMove, h, hi]

theorem nextMove_of_busy {s : State} (h : s.phase = .busy) (hw : s.wait ≠ 0) {i : Input} {left : List Input}
    (hi : s.inputs = i :: left) (hp : i ≠ .pause) : s.nextMove = .input i left := by
  cases i <;> simp_all [State.nextMove]

/-- Placing a command gives the engine the next move. -/
theorem nextMove_placeCommand (v : Word) : (s.placeCommand v).nextMove = .engine := by
  have h1 : (s.placeCommand v).phase = .busy := rfl
  have h2 : (s.placeCommand v).wait = 0 := rfl
  unfold State.nextMove
  rw [h1, h2]
  cases (s.placeCommand v).inputs with
  | nil => rfl
  | cons i l => cases i <;> rfl

theorem State.offset_base {off : Nat} (h : off < 0x10000) : s.offset (s.params.base + off) = some off := by
  simp [State.offset, h]

theorem State.offset_eq_some {addr off : Nat} (h : s.offset addr = some off) :
    addr = s.params.base + off ∧ off < 0x10000 := by
  unfold State.offset at h
  split at h
  · cases h; omega
  · cases h

@[simp] theorem State.offset_dequeue (l : List Input) (addr : Nat) :
    (s.dequeue l).offset addr = s.offset addr := rfl

/-- A read at an offset of the window, as a step. -/
theorem step_read {s : State} {off : Nat} {z : AccessSize} {left : List Input} (hr : s.rst = false)
    (ho : off < 0x10000) (h : s.nextMove = .input (.read (s.params.base + off) z) left) :
    step s = .next ((s.dequeue left).hostRead off z) := by
  rw [step_of_input h]
  simp [State.serve, State.access, hr, State.offset_base s ho]

/-- A write at an offset of the window, as a step. -/
theorem step_write {s : State} {off : Nat} {z : AccessSize} {v : Word} {left : List Input} (hr : s.rst = false)
    (ho : off < 0x10000) (h : s.nextMove = .input (.write (s.params.base + off) z v) left) :
    step s = .next ((s.dequeue left).hostWrite off z v) := by
  rw [step_of_input h]
  simp [State.serve, State.access, hr, State.offset_base s ho]

/-- A read changes the port's answer and at most the free value index (20_memory.md R69). -/
theorem State.hostRead_cases (off : Nat) (z : AccessSize) :
    ∃ b d n, s.hostRead off z = ({ s with draws := n }).respond b d := by
  unfold State.hostRead
  split
  · exact ⟨_, _, s.draws, rfl⟩
  · split
    · exact ⟨_, _, s.draws + 1, rfl⟩
    · exact ⟨_, _, s.draws, rfl⟩

/-- A write is refused by the bus, lost, or takes effect (20_memory.md R63, R68). -/
theorem State.hostWrite_cases (off : Nat) (z : AccessSize) (v : Word) :
    (accessOk off z = false ∧ s.hostWrite off z v = s.respond .error 0) ∨
    (accessOk off z = true ∧ s.isBusy = true ∧ s.isLocked off = true ∧
      s.hostWrite off z v = s.setOvr.respond .okay 0) ∨
    (accessOk off z = true ∧ (s.isBusy && s.isLocked off) = false ∧
      s.hostWrite off z v = (s.writeOffset off z v).respond .okay 0) := by
  unfold State.hostWrite
  cases h1 : accessOk off z
  · exact .inl ⟨rfl, rfl⟩
  · cases h2 : (s.isBusy && s.isLocked off)
    · exact .inr (.inr ⟨rfl, rfl, rfl⟩)
    · rw [Bool.and_eq_true] at h2
      exact .inr (.inl ⟨rfl, h2.1, h2.2, rfl⟩)

@[simp] theorem State.architectural_respond (b : BusStatus) (d : Word) :
    (s.respond b d).architectural = s.architectural := rfl

@[simp] theorem State.architectural_dequeue (l : List Input) :
    (s.dequeue l).architectural = s.architectural := rfl

@[simp] theorem State.architectural_tick : s.tick.architectural = s.architectural := rfl

@[simp] theorem State.isBusy_dequeue (l : List Input) : (s.dequeue l).isBusy = s.isBusy := rfl

@[simp] theorem State.isLocked_dequeue (l : List Input) (off : Nat) :
    (s.dequeue l).isLocked off = s.isLocked off := rfl

end Sys2Proof.Machine
end

