-- ==== Sys2Proof/Tests/Slice0.lean ====
section
/-! SUPPORT. The model's own tests. Expected values come from spec/95_test_vectors.md (its vector's name stands beside
each) or from the examples of the rules. -/

namespace Sys2Proof.Tests

open Sys2Proof.Machine

set_option Elab.async false

/-! ### Well-formedness: an ill-formed term for each check is refused -/

theorem test_wf_ldi : (Instr.ldi 4 0xFFFF).wellFormed = true ∧ (Instr.ldi 4 0x10000).wellFormed = false := by decide

theorem test_wf_addi :
    (Instr.addi 1 0 0xFFFF).wellFormed = true ∧ (Instr.addi 1 0 0x10000).wellFormed = false := by decide

theorem test_wf_subi :
    (Instr.subi 1 0 0xFFFF).wellFormed = true ∧ (Instr.subi 1 0 0x10000).wellFormed = false := by decide

theorem test_wf_randb : (Instr.randb 1 0xFFFF).wellFormed = true ∧ (Instr.randb 1 0x10000).wellFormed = false := by
  decide

theorem test_wf_randc : (Instr.randc 1 0xFFFF).wellFormed = true ∧ (Instr.randc 1 0x10000).wellFormed = false := by
  decide

/-! ### Decoding: every constructor by a word of 30_encoding.md or 95_test_vectors.md -/

/-- E1, E3, and the words of P5, P1 and the rules' examples. -/
theorem test_decode_arith :
    decode 0x00000000 = .ok .nop ∧ decode 0x12340401 = .ok (.ldi 4 0x1234) ∧
    decode 0x00001502 = .ok (.mov 5 1) ∧ decode 0x00021303 = .ok (.add 3 1 2) ∧
    decode 0xFFFF0104 = .ok (.addi 1 0 0xFFFF) ∧ decode 0x00010605 = .ok (.sub 6 0 1) ∧
    decode 0x00011706 = .ok (.subi 7 1 1) ∧ decode 0x00054607 = .ok (.cmp 6 4 5) ∧
    decode 0x00003408 = .ok (.bitlen 4 3) := by decide

theorem test_decode_multiplier :
    decode 0x00065210 = .ok (.mul 2 5 6) ∧ decode 0x00201311 = .ok (.mod 3 1 2) ∧
    decode 0x00321412 = .ok (.modmul 4 1 2 3) := by decide

theorem test_decode_numtheory :
    decode 0x0009AB20 = .ok (.gcd 11 10 9) ∧ decode 0x0090AC21 = .ok (.modinv 12 10 9) ∧
    decode 0x00210322 = .ok (.modpow 3 0 1 2) ∧ decode 0x00100128 = .ok (.randb 1 16) ∧
    decode 0x00090129 = .ok (.randc 1 9) := by decide

theorem test_decode_primality :
    decode 0x00001230 = .ok (.trialdiv 2 1) ∧ decode 0x000FC031 = .ok (.mrround 0 12 15) ∧
    decode 0x00001D32 = .ok (.primetest 13 1) := by decide

theorem test_decode_codec :
    decode 0x00000140 = .ok (.ldb 1) ∧ decode 0x01001041 = .ok (.stb 1 .legacy) ∧
    decode 0x00002041 = .ok (.stb 2 .pad) ∧ decode 0x01201048 = .ok (.benc 1 2 .legacy) ∧
    decode 0x00203049 = .ok (.bdec 3 2 .pad) := by decide

/-- E2, E4, E7, E8, E9, E12, E13, E15: a nonzero unused field, and E10, E11: a reserved opcode. -/
theorem test_decode_illegal :
    decode 0x00000100 = .error (.unusedFieldNonzero 0x00) ∧ decode 0x12341401 = .error (.unusedFieldNonzero 0x01) ∧
    decode 0x00201148 = .error (.unusedFieldNonzero 0x48) ∧ decode 0x02201048 = .error (.unusedFieldNonzero 0x48) ∧
    decode 0x10021303 = .error (.unusedFieldNonzero 0x03) ∧ decode 0x00211321 = .error (.unusedFieldNonzero 0x21) ∧
    decode 0x00001040 = .error (.unusedFieldNonzero 0x40) ∧ decode 0x01001040 = .error (.unusedFieldNonzero 0x40) ∧
    decode 0x00000013 = .error (.reservedOpcode 0x13) ∧ decode 0x000000FF = .error (.reservedOpcode 0xFF) := by decide

/-- R98: a command is four bytes, lowest address first. -/
theorem test_decode_bytes :
    decodeBytes [0x22, 0x03, 0x21, 0x00, 0x7F] = .ok (.modpow 3 0 1 2, [0x7F]) ∧
    decodeBytes [0x22, 0x03, 0x21] = .error (.length 3) ∧
    decodeTableWord 32 0x00210322 = some (.modpow 3 0 1 2) := by decide

/-! ### A small machine: W = 64, BUFSZ = 16 -/

/-- The parameters of the small machine. -/
def small : Params := { nbits := 64, bufsz := 16, base := 0x40000000, kReset := 20 }

/-- The small machine after reset, with these registers written. -/
def machine (rs : List (Reg × Nat)) : State := rs.foldl (fun s c => s.setReg c.1 c.2) (State.initial small)

/-- With IN_BUF holding these bytes from index 0 on and INLEN counting them. -/
def withInput (s : State) (bs : List Byte) : State :=
  { s.writeIn 0 bs with inLen := BitVec.ofNat 32 bs.length }

/-- With ARG0 and ARG1. -/
def withArgs (s : State) (a0 a1 : Word) : State := { s with arg0 := a0, arg1 := a1 }

/-- What a command left in a register, and its error code. -/
def result (o : Host.Outcome State Fault Refusal) (r : Reg) : Option (Nat × Bool × Byte) :=
  match o with
  | .next t => some (t.reg r, t.isValid r, t.errByte)
  | _ => none

/-- OUTLEN, the first n bytes of OUT_BUF written since reset, and the error code. -/
def output (o : Host.Outcome State Fault Refusal) (n : Nat) : Option (Word × List (Option Byte) × Byte) :=
  match o with
  | .next t => some (t.outLen, (List.range n).map t.outBuf.lookup, t.errByte)
  | _ => none

/-- XLEN, the first n bytes of OUT_BUF written since reset, and the error code. -/
def stored (o : Host.Outcome State Fault Refusal) (n : Nat) : Option (Word × List (Option Byte) × Byte) :=
  match o with
  | .next t => some (t.xLen, (List.range n).map t.outBuf.lookup, t.errByte)
  | _ => none

/-! ### Arithmetic, multiplier and reduction (section 2.2) -/

theorem test_nop : result (exec .nop (machine [(1, 7)])) 1 = some (7, true, 0x00) := by decide

/-- A1. -/
theorem test_ldi : result (exec (.ldi 4 0x1234) (machine [])) 4 = some (0x1234, true, 0x00) := by decide

/-- A3. -/
theorem test_mov : result (exec (.mov 2 1) (machine [(1, 7)])) 2 = some (7, true, 0x00) := by decide

/-- A4. -/
theorem test_mov_unwritten : result (exec (.mov 2 1) (machine [])) 2 = some (0, false, 0x02) := by decide

/-- A6. -/
theorem test_add : result (exec (.add 3 1 2) (machine [(1, 2 ^ 64 - 1), (2, 0)])) 3 =
    some (2 ^ 64 - 1, true, 0x00) := by decide

/-- A7. -/
theorem test_add_overflow : result (exec (.add 3 1 2) (machine [(1, 2 ^ 64 - 1), (2, 1)])) 3 =
    some (0, false, 0x06) := by decide

/-- A8. -/
theorem test_addi : result (exec (.addi 1 1 1) (machine [(1, 0xFFFF)])) 1 = some (0x10000, true, 0x00) := by decide

/-- A9. -/
theorem test_addi_overflow : result (exec (.addi 1 1 1) (machine [(1, 2 ^ 64 - 1)])) 1 =
    some (2 ^ 64 - 1, true, 0x06) := by decide

/-- A10. -/
theorem test_sub : result (exec (.sub 3 1 2) (machine [(1, 509), (2, 1)])) 3 = some (508, true, 0x00) := by decide

/-- A12. -/
theorem test_sub_underflow : result (exec (.sub 3 1 2) (machine [(1, 0), (2, 1)])) 3 = some (0, false, 0x05) := by
  decide

/-- A13. -/
theorem test_subi : result (exec (.subi 6 5 2) (machine [(5, 127759)])) 6 = some (127757, true, 0x00) := by decide

/-- A14. -/
theorem test_subi_underflow : result (exec (.subi 6 5 1) (machine [(5, 0)])) 6 = some (0, false, 0x05) := by decide

/-- A15, A16, A17. -/
theorem test_cmp :
    result (exec (.cmp 0 1 2) (machine [(1, 3), (2, 10)])) 0 = some (0, true, 0x00) ∧
    result (exec (.cmp 0 1 2) (machine [(1, 10), (2, 10)])) 0 = some (1, true, 0x00) ∧
    result (exec (.cmp 0 1 2) (machine [(1, 17), (2, 16)])) 0 = some (2, true, 0x00) := by decide

/-- A18. -/
theorem test_bitlen : [0, 1, 255, 256, 127759, 2 ^ 4096 - 1].map bitlen = [0, 1, 8, 9, 17, 4096] := by
  decide +kernel

/-- A21. -/
theorem test_mul : result (exec (.mul 3 1 2) (machine [(1, 2 ^ 32 - 1), (2, 2 ^ 32 - 1)])) 3 =
    some (0xFFFFFFFE00000001, true, 0x00) := by decide

/-- A22. -/
theorem test_mul_overflow : result (exec (.mul 3 1 2) (machine [(1, 2 ^ 32), (2, 2 ^ 32)])) 3 =
    some (0, false, 0x06) := by decide

/-- A23, A25. -/
theorem test_mod :
    result (exec (.mod 3 1 2) (machine [(1, 1000), (2, 7)])) 3 = some (6, true, 0x00) ∧
    result (exec (.mod 3 1 2) (machine [(1, 12345), (2, 1)])) 3 = some (0, true, 0x00) := by decide

/-- A26. -/
theorem test_mod_zero : result (exec (.mod 3 1 2) (machine [(1, 5), (2, 0)])) 3 = some (0, false, 0x03) := by decide

/-- A28, A29. -/
theorem test_modmul :
    result (exec (.modmul 4 1 2 3) (machine [(1, 508), (2, 250), (3, 127759)])) 4 = some (127000, true, 0x00) ∧
    result (exec (.modmul 4 1 2 3) (machine [(1, 3), (2, 4), (3, 1)])) 4 = some (0, true, 0x00) := by decide

/-- A31: UNWRITTEN comes before ZERO_MODULUS. -/
theorem test_modmul_priority : result (exec (.modmul 4 1 2 3) (machine [(2, 4), (3, 0)])) 4 =
    some (0, false, 0x02) := by decide

/-! ### Number theory and random commands (section 2.3) -/

/-- G1, G4, G5. -/
theorem test_gcd :
    result (exec (.gcd 3 1 2) (machine [(1, 12), (2, 15)])) 3 = some (3, true, 0x00) ∧
    result (exec (.gcd 3 1 2) (machine [(1, 0), (2, 0)])) 3 = some (0, true, 0x00) ∧
    result (exec (.gcd 3 1 2) (machine [(1, 32770), (2, 127000)])) 3 = some (10, true, 0x00) := by decide +kernel

/-- I1, I3, I5. -/
theorem test_modinv :
    result (exec (.modinv 3 1 2) (machine [(1, 32771), (2, 127000)])) 3 = some (5131, true, 0x00) ∧
    result (exec (.modinv 3 1 2) (machine [(1, 10), (2, 7)])) 3 = some (5, true, 0x00) ∧
    result (exec (.modinv 3 1 2) (machine [(1, 5), (2, 1)])) 3 = some (0, true, 0x00) := by decide +kernel

/-- I7, X16. -/
theorem test_modinv_errors :
    result (exec (.modinv 3 1 2) (machine [(1, 6), (2, 9)])) 3 = some (0, false, 0x04) ∧
    result (exec (.modinv 3 1 2) (machine [(1, 0), (2, 0)])) 3 = some (0, false, 0x03) := by decide +kernel

/-- P1v, P9v. -/
theorem test_modpow :
    result (exec (.modpow 3 0 1 2) (machine [(0, 65), (1, 32771), (2, 127759)])) 3 = some (0x50CD, true, 0x00) ∧
    result (exec (.modpow 3 0 1 2) (machine [(0, 2), (1, 127758), (2, 127759)])) 3 =
      some (116720, true, 0x00) := by decide +kernel

/-- P4v, P5v, P6v. -/
theorem test_modpow_corners :
    result (exec (.modpow 3 0 1 2) (machine [(0, 0), (1, 0), (2, 5)])) 3 = some (1, true, 0x00) ∧
    result (exec (.modpow 3 0 1 2) (machine [(0, 0), (1, 0), (2, 1)])) 3 = some (0, true, 0x00) ∧
    result (exec (.modpow 3 0 1 2) (machine [(0, 0), (1, 7), (2, 5)])) 3 = some (0, true, 0x00) := by decide +kernel

/-- B1, and B4 at this width. -/
theorem test_randb :
    result (exec (.randb 1 0) (machine [])) 1 = some (0, true, 0x00) ∧
    result (exec (.randb 1 65) (machine [])) 1 = some (0, false, 0x07) := by
  refine ⟨?_, by decide⟩
  show some (0 + Config.entropy 0 % 1, _, _) = _
  rw [Nat.mod_one]
  rfl

/-- C6r, and C7r at this width. -/
theorem test_randc :
    result (exec (.randc 1 0) (machine [])) 1 = some (0, false, 0x07) ∧
    result (exec (.randc 1 65) (machine [])) 1 = some (0, false, 0x07) := by decide

/-! ### Primality (section 2.4) -/

/-- The table of TRIALDIV. -/
theorem test_trialdiv :
    [0, 1, 2, 3, 4, 541, 547, 551, 557, 2047, 304679, 1373653, 3215031751].map
      (fun n => (result (exec (.trialdiv 2 1) (machine [(1, n)])) 2).map Prod.fst) =
    [0, 2, 1, 1, 0, 1, 2, 0, 2, 0, 2, 2, 0].map some := by decide +kernel

/-- The table of MRROUND. -/
theorem test_mrround :
    [(5, 2), (5, 3), (9, 2), (25, 7), (127759, 2), (2047, 2), (2047, 3), (561, 2), (1373653, 3), (1373653, 5),
      (25326001, 7), (3215031751, 2)].map
      (fun c => (result (exec (.mrround 4 1 3) (machine [(1, c.1), (3, c.2)])) 4).map Prod.fst) =
    [1, 1, 0, 1, 0, 1, 0, 0, 1, 0, 0, 1].map some := by decide +kernel

/-- The refusals of MRROUND. -/
theorem test_mrround_refusals :
    [(3, 2), (4, 2), (5, 1), (5, 4), (9, 8)].map
      (fun c => result (exec (.mrround 4 1 3) (machine [(1, c.1), (3, c.2)])) 4) =
    List.replicate 5 (some (0, false, 0x07)) := by decide +kernel

/-- The rows of PRIMETEST that use no draw. -/
theorem test_primetest :
    [0, 1, 2, 3, 5, 541, 9, 561, 2047, 6601, 8911].map
      (fun n => (result (exec (.primetest 2 1) (machine [(1, n)])) 2).map Prod.fst) =
    [0, 0, 1, 1, 1, 1, 0, 0, 0, 0, 0].map some := by decide +kernel

/-- 25326001 with MRK.K = 0 runs no round. -/
theorem test_primetest_no_round :
    result (exec (.primetest 2 1) { machine [(1, 25326001)] with mrk := 0 }) 2 = some (1, true, 0x00) := by
  decide +kernel

/-! ### Converters and codec (section 2.5) -/

/-- C1, C3. -/
theorem test_ldb :
    result (exec (.ldb 1) (withArgs (withInput (machine []) [0x12, 0x34, 0x56, 0x78]) 1 2)) 1 =
      some (0x3456, true, 0x00) ∧
    result (exec (.ldb 1) (withArgs (machine []) 16 0)) 1 = some (0, true, 0x00) := by decide +kernel

/-- C5, C6, at this width. -/
theorem test_ldb_errors :
    result (exec (.ldb 1) (withArgs (machine []) 16 1)) 1 = some (0, false, 0x08) ∧
    result (exec (.ldb 1) (withArgs (machine []) 0 9)) 1 = some (0, false, 0x07) := by decide +kernel

/-- C8, C9, C11. -/
theorem test_stb :
    stored (exec (.stb 2 .pad) (withArgs (machine [(2, 0x3457)]) 0 4)) 5 =
      some (4, [some 0x00, some 0x00, some 0x34, some 0x57, none], 0x00) ∧
    stored (exec (.stb 2 .legacy) (withArgs (machine [(2, 0x3457)]) 0 4)) 3 =
      some (2, [some 0x34, some 0x57, none], 0x00) ∧
    stored (exec (.stb 2 .legacy) (withArgs (machine [(2, 0)]) 0 4)) 1 = some (0, [none], 0x00) := by decide +kernel

/-- C10, C14 and C15 at this width. -/
theorem test_stb_errors :
    stored (exec (.stb 2 .pad) (withArgs (machine [(2, 0x3457)]) 0 1)) 1 = some (0, [none], 0x09) ∧
    stored (exec (.stb 2 .legacy) (withArgs (machine [(2, 1)]) 13 4)) 16 =
      some (0, List.replicate 16 none, 0x08) ∧
    stored (exec (.stb 2 .pad) (withArgs (machine []) 13 4)) 1 = some (0, [none], 0x02) := by decide +kernel

/-- The key K17 in N1 = e, N3 = d, N2 = n. -/
def k17 : State := machine [(1, 32771), (2, 127759), (3, 5131)]

/-- C27, C29, C32. -/
theorem test_benc :
    output (exec (.benc 1 2 .pad) (withInput k17 [0x41, 0x42, 0x43])) 6 =
      some (6, [0x01, 0x0F, 0x49, 0x00, 0x73, 0x90].map some, 0x00) ∧
    output (exec (.benc 1 2 .legacy) (withInput k17 [0x41, 0x42, 0x43])) 5 =
      some (5, [0x01, 0x0F, 0x49, 0x73, 0x90].map some, 0x00) ∧
    output (exec (.benc 1 2 .legacy) (withInput k17 [0x00, 0x00])) 1 = some (0, [none], 0x00) := by decide +kernel

/-- C44: the finished blocks stay when the sixth does not fit. -/
theorem test_benc_partial :
    output (exec (.benc 1 2 .pad) (withInput k17 (List.replicate 16 0x00))) 16 =
      some (15, List.replicate 15 (some 0x00) ++ [none], 0x08) := by decide +kernel

/-- C28, C30. -/
theorem test_bdec :
    output (exec (.bdec 3 2 .pad) (withInput k17 [0x01, 0x0F, 0x49, 0x00, 0x73, 0x90])) 4 =
      some (4, [0x41, 0x42, 0x00, 0x43].map some, 0x00) ∧
    output (exec (.bdec 3 2 .legacy) (withInput k17 [0x01, 0x0F, 0x49, 0x73, 0x90])) 3 =
      some (3, [0x41, 0x42, 0x43].map some, 0x00) := by decide +kernel

/-- C37: legacy mode lost the block alignment. -/
theorem test_bdec_overflow :
    output (exec (.bdec 3 2 .legacy) (withInput k17 [0xA4, 0xE7, 0x50, 0xCD])) 1 = some (0, [none], 0x09) := by
  decide +kernel

/-! ### Host accesses, the lifecycle and reset (section 2.6) -/

/-- The idle small machine with this input next. -/
def idleWith (i : Input) : State := { State.initial small with inputs := [i] }

/-- The small machine running NOP, with this input arriving before the command completes. -/
def busyWith (i : Input) : State := { (State.initial small).latch 0 with inputs := [i], wait := 1 }

/-- The port's answer to the access a state serves next. -/
def answer (s : State) : Option Response :=
  match step s with
  | .next t => t.response
  | _ => none

/-- Something of the state after a step. -/
def after {α : Type} (s : State) (f : State → α) : Option α :=
  match step s with
  | .next t => some (f t)
  | _ => none

/-- X1, X2 for this machine, X6, X7. -/
theorem test_reads :
    answer (idleWith (.read 0x40000000 .word)) = some { status := .okay, data := 0x52534145 } ∧
    answer (idleWith (.read 0x40000004 .word)) = some { status := .okay, data := 64 } ∧
    answer (idleWith (.read 0x40005000 .word)) = some { status := .okay, data := 0 } ∧
    answer (idleWith (.read 0x40001008 .word)) = some { status := .okay, data := 0 } := by decide

/-- X3, X4. -/
theorem test_bad_access :
    answer (idleWith (.read 0x40000001 .byte)) = some { status := .error, data := 0 } ∧
    answer (idleWith (.write 0x40008001 .half 0x1234)) = some { status := .error, data := 0 } ∧
    after (idleWith (.write 0x40008001 .half 0x1234)) (·.inBuf) = some [] := by decide

/-- X5 and the byte order of 20_memory.md R71. -/
theorem test_buffer_write :
    after (idleWith (.write 0x40008001 .byte 0x12)) (·.inBuf) = some [(1, 0x12)] ∧
    after (idleWith (.write 0x40008000 .word 0x44434241)) (·.inBuf) =
      some [(0, 0x41), (1, 0x42), (2, 0x43), (3, 0x44)] ∧
    after (idleWith (.write 0x40008010 .word 0x44434241)) (·.inBuf) = some [] := by decide

/-- X9, X10. -/
theorem test_window_write :
    after (idleWith (.write 0x40001000 .word 7)) (fun t => (t.reg 0, t.regValidWord)) = some (7, 1) ∧
    after { machine [(0, 7)] with inputs := [.write 0x40000034 .word 1] }
      (fun t => (t.reg 0, t.regValidWord)) = some (7, 0) := by decide

/-- X14, X15. -/
theorem test_busy_writes :
    after (busyWith (.write 0x40000018 .word 0x12340401)) (fun t => (t.cmd, t.statusWord)) = some (0, 0x9) ∧
    after (busyWith (.write 0x40000010 .word 0x5)) (fun t => (t.ie, t.phase)) = some (false, .idle) := by decide

/-- X11, X12. -/
theorem test_irq :
    after { State.initial small with ie := true, phase := .busy } State.irq = some true ∧
    after { State.initial small with ie := true, done := true, inputs := [.write 0x40000014 .word 0x2] } State.irq =
      some false := by decide

/-- The command P1 starts with, run by the first step after a placed fetch, and acceptance of a CMD write. -/
theorem test_placed_command :
    after (State.reset.withFetchWord 32 0x01FD0501) (fun t => (t.reg 5, t.isValid 5, t.statusWord)) =
      some (509, true, 0x2) ∧
    after (idleWith (.write 0x40000018 .word 0x01FD0501)) (fun t => (t.cmd, t.statusWord, t.reg 5)) =
      some (0x01FD0501, 0x1, 0) ∧
    after (State.reset.withFetchWord 32 0x00000013) State.statusWord = some 0x106 := by decide +kernel

/-! ### Witnesses: concrete states and operands that meet the hypotheses of each statement, clause by clause -/

/-- The small machine about to run this command word. -/
def running (rs : List (Reg × Nat)) (w : Word) : State := (machine rs).placeCommand w

/-- The small machine with an abort requested while it runs a command. -/
def aborting (rs : List (Reg × Nat)) : State := { running rs 0 with abortReq := true }

theorem witness_DecodeInvertsEncode :
    (Instr.benc 15 15 .legacy).wellFormed = true ∧ (Instr.addi 15 15 0xFFFF).wellFormed = true := by decide

theorem witness_EncodeInvertsDecode :
    decode 0x01F0F049 = .ok (.bdec 15 15 .legacy) ∧ decode 0xFFFFFF06 = .ok (.subi 15 15 0xFFFF) := by decide

theorem witness_DecoderIsTotalAndUnambiguous :
    ((0xFE0F0FFF, 0x00000049) : Word × Word) ∈ commandRows ∧ (0x01F0F049 : Word) &&& 0xFE0F0FFF = 0x00000049 ∧
    decode 0x01F0F049 = .ok (.bdec 15 15 .legacy) := by decide

theorem witness_IllegalWordWritesOnlyStatus :
    (∀ row ∈ commandRows, (running [] 0x00000013).cmd &&& row.1 ≠ row.2) ∧
    (∀ row ∈ commandRows, (running [] 0x00000100).cmd &&& row.1 ≠ row.2) ∧
    (running [] 0x00000013).nextMove = .engine ∧ (running [] 0x00000100).nextMove = .engine := by
  have h1 : (running [] 0x00000013).cmd = 0x00000013 := rfl
  have h2 : (running [] 0x00000100).cmd = 0x00000100 := rfl
  rw [h1, h2]
  exact ⟨by simp [commandRows], by simp [commandRows], by decide, by decide⟩

theorem witness_StepRunsTheDecodedCommand :
    ((State.initial small).phase = .idle ∧ (State.initial small).inputs = []) ∧
    ((running [] 0x12340401).nextMove = .engine ∧ decode (running [] 0x12340401).cmd = .ok (.ldi 4 0x1234)) ∧
    decode (BitVec.ofNat 32 (0x12340401 % 2 ^ 32)) = .ok (.ldi 4 0x1234) := by decide

theorem witness_CmdWriteStartsACommand :
    ((idleWith (.write 0x40000018 .word 0x12340401)).phase = .idle ∧
      (idleWith (.write 0x40000018 .word 0x12340401)).rst = false ∧
      (idleWith (.write 0x40000018 .word 0x12340401)).inputs = .write (small.base + 0x18) .word 0x12340401 :: []) ∧
    ((busyWith (.write 0x40000018 .word 0)).phase = .busy ∧ (busyWith (.write 0x40000018 .word 0)).wait ≠ 0 ∧
      (busyWith (.write 0x40000018 .word 0)).rst = false ∧
      (busyWith (.write 0x40000018 .word 0)).inputs = .write (small.base + 0x18) .word 0 :: []) ∧
    ((busyWith (.read 0x40000018 .word)).rst = false ∧
      (busyWith (.read 0x40000018 .word)).nextMove = .input (.read (small.base + 0x18) .word) []) := by decide

theorem witness_BusyEndsWithinItsWait :
    (running [] 0).phase = .busy ∧
    ∃ t, Host.Core.run Sys2Proof.core ((running [] 0).wait + 1) (running [] 0) = .next t := ⟨by decide, _, rfl⟩

/-- The invariant holds of a busy state, not only after reset. -/
theorem witness_Inv : (running [(1, 2 ^ 64 - 1)] 0x00000013).Inv where
  params_wf := by decide
  regs_lt := by decide
  inBuf_wf := by decide
  outBuf_wf := by decide
  lens_le := by decide
  progress_eq := by decide
  busy_clear := by decide
  idle_abort := by decide
  err_code := by decide
  rst_idle := by decide

theorem witness_StepKeepsTheInvariant :
    (∃ t, step (running [(1, 2 ^ 64 - 1)] 0x00000013) = .next t) ∧ (running [(1, 2 ^ 64 - 1)] 0x00000013).Inv :=
  ⟨⟨_, rfl⟩, witness_Inv⟩

theorem witness_ResetHasTheInvariant :
    small.wf ∧ Params.standard.wf ∧
    ({ nbits := 8192, bufsz := 16384, base := 0xFFFF0000, kReset := 255 } : Params).wf := by decide

theorem witness_SoftResetGivesTheResetState :
    ((idleWith (.write 0x40000010 .word 0x4)).rst = false ∧ (0x4 : Word).getLsbD 2 = true ∧
      (idleWith (.write 0x40000010 .word 0x4)).nextMove = .input (.write (small.base + 0x10) .word 0x4) []) ∧
    ((busyWith (.write 0x40000010 .word 0x7)).rst = false ∧ (0x7 : Word).getLsbD 2 = true ∧
      (busyWith (.write 0x40000010 .word 0x7)).nextMove = .input (.write (small.base + 0x10) .word 0x7) []) := by
  decide

theorem witness_HardResetHoldsTheResetState :
    (busyWith (.rst true)).nextMove = .input (.rst true) [] ∧
    (({ idleWith (.read 0x40000000 .word) with rst := true }).rst = true ∧
      ({ idleWith (.read 0x40000000 .word) with rst := true }).nextMove = .input (.read 0x40000000 .word) []) ∧
    ({ idleWith (.write 0x40000018 .word 0) with rst := true }).nextMove = .input (.write 0x40000018 .word 0) [] ∧
    ({ idleWith (.rst false) with rst := true }).nextMove = .input (.rst false) [] := by decide

theorem witness_ReadsHaveNoSideEffect :
    (busyWith (.read 0x40001000 .word)).nextMove = .input (.read 0x40001000 .word) [] ∧
    (∃ t, step (busyWith (.read 0x40001000 .word)) = .next t) ∧
    (idleWith (.read 0x40000014 .word)).nextMove = .input (.read 0x40000014 .word) [] ∧
    (∃ t, step (idleWith (.read 0x40000014 .word)) = .next t) :=
  ⟨by decide, ⟨_, rfl⟩, by decide, ⟨_, rfl⟩⟩

/-- The boundary offsets 0x7FFE (register side) and 0x8001, 0xFFFE (buffer side), and the addresses just outside. -/
theorem witness_BadAccessGetsError :
    ((idleWith (.read 0x40007FFE .word)).rst = false ∧
      (0x7FFE < 0x8000 ∧ ((AccessSize.word ≠ .word) ∨ 0x7FFE % 4 ≠ 0)) ∧
      (idleWith (.read 0x40007FFE .word)).nextMove = .input (.read (small.base + 0x7FFE) .word) []) ∧
    ((0x8000 ≤ 0x8001 ∧ 0x8001 % AccessSize.half.bytes ≠ 0) ∧
      (busyWith (.write 0x40008001 .half 1)).nextMove = .input (.write (small.base + 0x8001) .half 1) []) ∧
    ((0x8000 ≤ 0xFFFE ∧ 0xFFFE < 0x10000 ∧ 0xFFFE % AccessSize.word.bytes ≠ 0) ∧
      (idleWith (.read 0x4000FFFE .word)).nextMove = .input (.read (small.base + 0xFFFE) .word) []) ∧
    (0x3FFFFFFC < small.base ∧ (idleWith (.read 0x3FFFFFFC .word)).nextMove = .input (.read 0x3FFFFFFC .word) []) ∧
    (small.base + 0x10000 ≤ 0x40010000 ∧
      (idleWith (.write 0x40010000 .byte 1)).nextMove = .input (.write 0x40010000 .byte 1) []) := by decide

/-- The control registers' ends, a window's first and last word, and the last buffer bytes; then the ways OVR falls. -/
theorem witness_LockedWritesAreLostWithOvr :
    (∀ off ∈ [0x18, 0x34, 0x1000, 0x4FFC, 0x8000, 0xC00C],
      (busyWith (.write (small.base + off) .word 1)).rst = false ∧
      (busyWith (.write (small.base + off) .word 1)).phase = .busy ∧
      (busyWith (.write (small.base + off) .word 1)).nextMove = .input (.write (small.base + off) .word 1) [] ∧
      off < 0x10000 ∧ accessOk off .word = true ∧
      (off ∈ [0x18, 0x1C, 0x20, 0x24, 0x28, 0x34] ∨ (0x1000 ≤ off ∧ off < 0x5000) ∨
        (0x8000 ≤ off ∧ off < 0xC000 ∧ off - 0x8000 < 16) ∨ (0xC000 ≤ off ∧ off - 0xC000 < 16))) ∧
    (∃ t, step { idleWith (.write 0x40000014 .word 0x8) with ovr := true } = .next t ∧ t.ovr = false) ∧
    (∃ t, step { idleWith (.write 0x40000010 .word 0x4) with ovr := true } = .next t ∧ t.ovr = false) ∧
    (∃ t, step { busyWith (.rst true) with ovr := true } = .next t ∧ t.ovr = false) ∧
    (∃ t, step (busyWith (.write 0x4000001C .word 1)) = .next t ∧
      (busyWith (.write 0x4000001C .word 1)).ovr = false ∧ t.ovr = true) :=
  ⟨by decide, ⟨_, rfl, rfl⟩, ⟨_, rfl, rfl⟩, ⟨_, rfl, rfl⟩, ⟨_, rfl, rfl, rfl⟩⟩

theorem witness_IdentificationIsConstant :
    ∀ off ∈ [0x0000, 0x0004, 0x0008],
      (busyWith (.read (small.base + off) .word)).rst = false ∧
      (busyWith (.read (small.base + off) .word)).nextMove = .input (.read (small.base + off) .word) [] ∧
      (idleWith (.write (small.base + off) .word 1)).rst = false ∧
      (idleWith (.write (small.base + off) .word 1)).nextMove = .input (.write (small.base + off) .word 1) [] := by
  decide

theorem witness_StatusReadsAndClears :
    ((busyWith (.read 0x40000014 .word)).rst = false ∧
      (busyWith (.read 0x40000014 .word)).nextMove = .input (.read (small.base + 0x14) .word) []) ∧
    ((busyWith (.write 0x40000014 .word 0xE)).rst = false ∧
      (busyWith (.write 0x40000014 .word 0xE)).nextMove = .input (.write (small.base + 0x14) .word 0xE) []) ∧
    ((State.initial small).errCode = none ∧
      ∀ c ∈ [ErrorCode.illegal, .unwritten, .zeroModulus, .noInverse, .underflow, .overflow, .invalidInput, .bufRange,
        .encodeOverflow, .aborted], ((machine []).raise c).errCode = some c) := by decide

theorem witness_CtrlWriteSetsIeAndAbort :
    ((busyWith (.write 0x40000010 .word 0x3)).rst = false ∧ (0x3 : Word).getLsbD 2 = false ∧
      (busyWith (.write 0x40000010 .word 0x3)).nextMove = .input (.write (small.base + 0x10) .word 0x3) []) ∧
    ((idleWith (.write 0x40000010 .word 0x3)).rst = false ∧
      (idleWith (.write 0x40000010 .word 0x3)).nextMove = .input (.write (small.base + 0x10) .word 0x3) []) ∧
    ((busyWith (.read 0x40000010 .word)).rst = false ∧
      (busyWith (.read 0x40000010 .word)).nextMove = .input (.read (small.base + 0x10) .word) []) := by decide

theorem witness_ParameterRegistersStoreTheirValue :
    ∀ off ∈ [0x1C, 0x20, 0x24, 0x28],
      ((idleWith (.write (small.base + off) .word 0xFFFFFFFF)).rst = false ∧
        (idleWith (.write (small.base + off) .word 0xFFFFFFFF)).phase = .idle ∧
        (idleWith (.write (small.base + off) .word 0xFFFFFFFF)).inputs =
          .write (small.base + off) .word 0xFFFFFFFF :: []) ∧
      (busyWith (.read (small.base + off) .word)).nextMove = .input (.read (small.base + off) .word) [] := by decide

/-- The reserved offsets at the ends of their ranges, and both length registers read while idle. -/
theorem witness_ReadOnlyAndReservedIgnoreWrites :
    (∀ off ∈ [0x0C, 0x2C, 0x30, 0x38, 0xFFC, 0x5000, 0x7FFC],
      (busyWith (.write (small.base + off) .word 1)).rst = false ∧ off % 4 = 0 ∧
      (off ∈ [0x0C, 0x2C, 0x30] ∨ (0x38 ≤ off ∧ off < 0x1000) ∨ (0x5000 ≤ off ∧ off < 0x8000)) ∧
      (busyWith (.write (small.base + off) .word 1)).nextMove = .input (.write (small.base + off) .word 1) []) ∧
    (∀ off ∈ [0x0C, 0x38, 0xFFC, 0x5000, 0x7FFC],
      (busyWith (.read (small.base + off) .word)).rst = false ∧ off % 4 = 0 ∧
      (off = 0x0C ∨ (0x38 ≤ off ∧ off < 0x1000) ∨ (0x5000 ≤ off ∧ off < 0x8000)) ∧
      (busyWith (.read (small.base + off) .word)).nextMove = .input (.read (small.base + off) .word) []) ∧
    (∀ off ∈ [0x2C, 0x30],
      (idleWith (.read (small.base + off) .word)).rst = false ∧
      (idleWith (.read (small.base + off) .word)).phase = .idle ∧
      (idleWith (.read (small.base + off) .word)).inputs = .read (small.base + off) .word :: []) := by decide

theorem witness_RegValidWriteClearsBits :
    ((idleWith (.write 0x40000034 .word 0xFFFF)).rst = false ∧
      (idleWith (.write 0x40000034 .word 0xFFFF)).phase = .idle ∧
      (idleWith (.write 0x40000034 .word 0xFFFF)).inputs = .write (small.base + 0x34) .word 0xFFFF :: []) ∧
    ((busyWith (.write 0x40000034 .word 1)).rst = false ∧ (busyWith (.write 0x40000034 .word 1)).phase = .busy ∧
      (busyWith (.write 0x40000034 .word 1)).wait ≠ 0 ∧
      (busyWith (.write 0x40000034 .word 1)).inputs = .write (small.base + 0x34) .word 1 :: []) ∧
    ((idleWith (.read 0x40000034 .word)).rst = false ∧ (idleWith (.read 0x40000034 .word)).phase = .idle ∧
      (idleWith (.read 0x40000034 .word)).inputs = .read (small.base + 0x34) .word :: []) := by decide

/-- The last word of N15 of the small machine (j = 1), idle and busy. -/
theorem witness_WindowWriteSetsOneWord :
    (1 < 256 ∧ 1 < (idleWith (.write 0x40004C04 .word 5)).width / 32 ∧
      (idleWith (.write 0x40004C04 .word 5)).rst = false ∧ (idleWith (.write 0x40004C04 .word 5)).phase = .idle ∧
      (idleWith (.write 0x40004C04 .word 5)).inputs =
        .write (small.base + (0x1000 + 0x400 * (15 : Reg).val + 4 * 1)) .word 5 :: []) ∧
    ((busyWith (.write 0x40004C04 .word 5)).rst = false ∧ (busyWith (.write 0x40004C04 .word 5)).phase = .busy ∧
      (busyWith (.write 0x40004C04 .word 5)).wait ≠ 0 ∧
      (busyWith (.write 0x40004C04 .word 5)).inputs =
        .write (small.base + (0x1000 + 0x400 * (15 : Reg).val + 4 * 1)) .word 5 :: []) := by decide

/-- The last word below W/32, the first from it on, and the last of the window. -/
theorem witness_WindowReadGivesOneWord :
    (∀ j ∈ [1, 2, 255], j < 256 ∧
      (idleWith (.read (small.base + (0x1000 + 0x400 * (15 : Reg).val + 4 * j)) .word)).phase = .idle ∧
      (idleWith (.read (small.base + (0x1000 + 0x400 * (15 : Reg).val + 4 * j)) .word)).rst = false ∧
      (idleWith (.read (small.base + (0x1000 + 0x400 * (15 : Reg).val + 4 * j)) .word)).inputs =
        .read (small.base + (0x1000 + 0x400 * (15 : Reg).val + 4 * j)) .word :: []) ∧
    (1 < small.nbits / 32 ∧ small.nbits / 32 ≤ 2) ∧
    (∀ j ∈ [2, 255], j < 256 ∧
      (idleWith (.write (small.base + (0x1000 + 0x400 * (15 : Reg).val + 4 * j)) .word 5)).width / 32 ≤ j ∧
      (idleWith (.write (small.base + (0x1000 + 0x400 * (15 : Reg).val + 4 * j)) .word 5)).phase = .idle ∧
      (idleWith (.write (small.base + (0x1000 + 0x400 * (15 : Reg).val + 4 * j)) .word 5)).rst = false ∧
      (idleWith (.write (small.base + (0x1000 + 0x400 * (15 : Reg).val + 4 * j)) .word 5)).inputs =
        .write (small.base + (0x1000 + 0x400 * (15 : Reg).val + 4 * j)) .word 5 :: []) := by decide

/-- Both buffers, at 0, at the last halfword below BUFSZ and at the first offset from BUFSZ on. -/
theorem witness_BufferWriteStoresItsBytes :
    ∀ off ∈ [0, 14, 16],
      small.wf ∧ off < 0x4000 ∧ off % AccessSize.half.bytes = 0 ∧
      (idleWith (.write (small.base + (0x8000 + off)) .half 0x1234)).rst = false ∧
      (idleWith (.write (small.base + (0x8000 + off)) .half 0x1234)).phase = .idle ∧
      (idleWith (.write (small.base + (0x8000 + off)) .half 0x1234)).inputs =
        .write (small.base + (0x8000 + off)) .half 0x1234 :: [] ∧
      (idleWith (.write (small.base + (0xC000 + off)) .half 0x1234)).inputs =
        .write (small.base + (0xC000 + off)) .half 0x1234 :: [] := by decide

theorem witness_BufferReadGivesItsBytes :
    ∀ off ∈ [0, 12, 16, 0x3FFC],
      off < 0x4000 ∧ off % AccessSize.word.bytes = 0 ∧
      (idleWith (.read (small.base + (0x8000 + off)) .word)).rst = false ∧
      (idleWith (.read (small.base + (0x8000 + off)) .word)).phase = .idle ∧
      (idleWith (.read (small.base + (0x8000 + off)) .word)).inputs =
        .read (small.base + (0x8000 + off)) .word :: [] ∧
      (idleWith (.read (small.base + (0xC000 + off)) .word)).inputs =
        .read (small.base + (0xC000 + off)) .word :: [] := by decide

theorem witness_IrqIsIeAndDone :
    (∃ t, exec .nop (machine []) = .next t) ∧ (0x2 : Word).getLsbD 1 = true ∧ (0x0 : Word).getLsbD 0 = false :=
  ⟨⟨_, rfl⟩, by decide, by decide⟩

/-- The two ways IRQ rises: a completion, and IE set while DONE = 1. -/
theorem witness_IrqIsIeAndDone_rises :
    ∀ s ∈ [{ running [] 0 with ie := true }, { idleWith (.write 0x40000010 .word 0x1) with done := true }],
      s.irq = false ∧ after s State.irq = some true := by decide

/-- The ways it falls: a 1 written to DONE, IE cleared, SRST, an acceptance, and `rst`. -/
theorem witness_IrqIsIeAndDone_falls :
    ∀ i ∈ [Input.write 0x40000014 .word 0x2, .write 0x40000010 .word 0x0, .write 0x40000010 .word 0x5,
      .write 0x40000018 .word 0x0, .rst true],
      { idleWith i with ie := true, done := true }.irq = true ∧
      after { idleWith i with ie := true, done := true } State.irq = some false := by decide

/-- For NoCommandWritesItsInputs, OnlyTheDestinationIsWritten and OnlyTheCodecWritesOutput. -/
theorem witness_frames :
    (∃ t, exec (.add 3 1 2) (machine [(1, 1), (2, 2)]) = .next t) ∧ destOf (.add 3 1 2) ≠ some 4 ∧
    writesOutBuf (.add 3 1 2) = false ∧ isCodec (.stb 1 .pad) = false ∧ isCodec (.benc 1 2 .pad) = true ∧
    (∃ t, exec (.benc 1 2 .pad) (machine []) = .next t) :=
  ⟨⟨_, rfl⟩, by decide, rfl, rfl, rfl, ⟨_, rfl⟩⟩

theorem witness_ErrorsArePrecise :
    (∃ t, exec (.sub 3 1 2) (machine [(1, 0), (2, 1)]) = .next t ∧ t.errCode = some .underflow) ∧
    isCodec (.sub 3 1 2) = false :=
  ⟨⟨_, rfl, rfl⟩, rfl⟩

/-- With an abort requested a command may end with ABORTED or normally, as the free choice of log 9 falls. -/
theorem witness_AbortOnlyWhenRequested :
    (machine []).abortReq = false ∧
    (Config.abortTaken 0 = true → ∃ t, exec .nop (aborting []) = .next t ∧ t.errCode = some .aborted) ∧
    (Config.abortTaken 0 = false → ∃ t, exec .nop (aborting []) = .next t ∧ t.errCode ≠ some .aborted) := by
  refine ⟨rfl, fun h => ⟨(aborting []).passAbort.raise .aborted, ?_, rfl⟩,
    fun h => ⟨(aborting []).passAbort.complete none, ?_, nofun⟩⟩ <;>
  · show Host.Outcome.next ((aborting []).commit id) = _
    have h1 : (aborting []).abortHere = _ := h
    rw [State.commit, h1]
    rfl

theorem witness_UnwrittenOperandsAreRefused :
    ∃ r ∈ sourcesOf (.modmul 4 1 2 3), (machine [(1, 3), (2, 4)]).isValid r = false := by decide

theorem witness_NopLdiAndMovWriteTheirValue :
    (machine [(15, 7)]).abortReq = false ∧ (machine [(15, 7)]).isValid 15 = true := by decide

/-- The last sum that fits and the first that does not. -/
theorem witness_AddAndAddiWriteTheSum :
    (∀ r ∈ [1, 2, 3], (machine [(1, 2 ^ 64 - 2), (2, 1), (3, 2)]).isValid r = true) ∧
    (machine [(1, 2 ^ 64 - 2), (2, 1), (3, 2)]).abortReq = false ∧
    (machine [(1, 2 ^ 64 - 2), (2, 1), (3, 2)]).reg 1 + (machine [(1, 2 ^ 64 - 2), (2, 1), (3, 2)]).reg 2 <
      2 ^ (machine [(1, 2 ^ 64 - 2), (2, 1), (3, 2)]).width ∧
    (machine [(1, 2 ^ 64 - 2), (2, 1), (3, 2)]).reg 1 + 1 < 2 ^ (machine [(1, 2 ^ 64 - 2), (2, 1), (3, 2)]).width ∧
    2 ^ (machine [(1, 2 ^ 64 - 2), (2, 1), (3, 2)]).width ≤
      (machine [(1, 2 ^ 64 - 2), (2, 1), (3, 2)]).reg 1 + (machine [(1, 2 ^ 64 - 2), (2, 1), (3, 2)]).reg 3 ∧
    2 ^ (machine [(1, 2 ^ 64 - 2), (2, 1), (3, 2)]).width ≤ (machine [(1, 2 ^ 64 - 2), (2, 1), (3, 2)]).reg 1 + 2 := by
  decide

/-- The least difference that is not negative and the greatest that is. -/
theorem witness_SubAndSubiWriteTheDifference :
    (∀ r ∈ [1, 2], (machine [(1, 5), (2, 6)]).isValid r = true) ∧ (machine [(1, 5), (2, 6)]).abortReq = false ∧
    (machine [(1, 5), (2, 6)]).reg 1 ≤ (machine [(1, 5), (2, 6)]).reg 1 ∧ 5 ≤ (machine [(1, 5), (2, 6)]).reg 1 ∧
    (machine [(1, 5), (2, 6)]).reg 1 < (machine [(1, 5), (2, 6)]).reg 2 ∧ (machine [(1, 5), (2, 6)]).reg 1 < 6 := by
  decide

theorem witness_CmpWritesTheOrder :
    (∀ r ∈ [1, 2], (machine [(1, 5), (2, 6)]).isValid r = true) ∧ (machine [(1, 5), (2, 6)]).abortReq = false ∧
    (machine [(1, 5), (2, 6)]).reg 1 < (machine [(1, 5), (2, 6)]).reg 2 ∧
    (machine [(1, 5), (2, 6)]).reg 1 = (machine [(1, 5), (2, 6)]).reg 1 := by decide

theorem witness_BitlenWritesTheLeastWidth :
    (machine [(1, 2 ^ 64 - 1)]).abortReq = false ∧ (machine [(1, 2 ^ 64 - 1)]).isValid 1 = true ∧
    (machine [(1, 2 ^ 64 - 1)]).reg 1 < 2 ^ (machine [(1, 2 ^ 64 - 1)]).width := by decide

theorem witness_MulWritesTheProduct :
    (∀ r ∈ [1, 2], (machine [(1, 2 ^ 32), (2, 2 ^ 32 - 1)]).isValid r = true) ∧
    (machine [(1, 2 ^ 32), (2, 2 ^ 32 - 1)]).abortReq = false ∧
    (machine [(1, 2 ^ 32), (2, 2 ^ 32 - 1)]).reg 1 * (machine [(1, 2 ^ 32), (2, 2 ^ 32 - 1)]).reg 2 <
      2 ^ (machine [(1, 2 ^ 32), (2, 2 ^ 32 - 1)]).width ∧
    2 ^ (machine [(1, 2 ^ 32), (2, 2 ^ 32 - 1)]).width ≤
      (machine [(1, 2 ^ 32), (2, 2 ^ 32 - 1)]).reg 1 * (machine [(1, 2 ^ 32), (2, 2 ^ 32 - 1)]).reg 1 := by decide

/-- For ModAndModmulReduce, ZeroModulusIsRefused and ModpowWritesThePower: a modulus of 1 and one of 0. -/
theorem witness_moduli :
    (∀ r ∈ [1, 2, 3, 4], (machine [(1, 5), (2, 6), (3, 1), (4, 0)]).isValid r = true) ∧
    (machine [(1, 5), (2, 6), (3, 1), (4, 0)]).abortReq = false ∧
    (machine [(1, 5), (2, 6), (3, 1), (4, 0)]).reg 3 ≠ 0 ∧ (machine [(1, 5), (2, 6), (3, 1), (4, 0)]).reg 4 = 0 := by
  decide

theorem witness_GcdWritesTheGreatestDivisor :
    (machine [(1, 0), (2, 0)]).abortReq = false ∧ ∀ r ∈ [1, 2], (machine [(1, 0), (2, 0)]).isValid r = true := by
  decide

/-- I1 and I7. -/
theorem witness_ModinvWritesTheInverse :
    (∀ r ∈ [1, 2, 3, 4], (machine [(1, 32771), (2, 127000), (3, 6), (4, 9)]).isValid r = true) ∧
    (machine [(1, 32771), (2, 127000), (3, 6), (4, 9)]).abortReq = false ∧
    ((machine [(1, 32771), (2, 127000), (3, 6), (4, 9)]).reg 2 ≠ 0 ∧ Nat.gcd 32771 127000 = 1 ∧
      (machine [(1, 32771), (2, 127000), (3, 6), (4, 9)]).reg 1 = 32771 ∧
      (machine [(1, 32771), (2, 127000), (3, 6), (4, 9)]).reg 2 = 127000) ∧
    ((machine [(1, 32771), (2, 127000), (3, 6), (4, 9)]).reg 4 ≠ 0 ∧
      Nat.gcd ((machine [(1, 32771), (2, 127000), (3, 6), (4, 9)]).reg 3)
        ((machine [(1, 32771), (2, 127000), (3, 6), (4, 9)]).reg 4) ≠ 1) := by decide +kernel

/-- For RandbWritesABoundedDraw and RandcWritesAnOddCandidate: the bounds 0, 1, W and W + 1. -/
theorem witness_random :
    (machine []).abortReq = false ∧ 0 ≤ (machine []).width ∧ 64 ≤ (machine []).width ∧ (machine []).width < 65 ∧
    (1 ≤ 1 ∧ 1 ≤ (machine []).width) := by decide

/-- For TrialdivClassifies, PrimetestAnswersEveryNumber and PrimetestFactsForEveryDraw: a table prime, a composite with
a small factor, 1, and a number no table prime divides with MRK.K = 0. -/
theorem witness_primality :
    (∀ r ∈ [1, 2, 3, 4], (machine [(1, 541), (2, 551), (3, 1), (4, 25326001)]).isValid r = true) ∧
    (machine [(1, 541), (2, 551), (3, 1), (4, 25326001)]).abortReq = false ∧
    541 ∈ smallPrimes ∧ 551 ∉ smallPrimes ∧ (∃ p ∈ smallPrimes, p ∣ 551) ∧
    (machine [(1, 541), (2, 551), (3, 1), (4, 25326001)]).reg 3 ≤ 1 ∧
    (∀ p ∈ smallPrimes, ¬ p ∣ 25326001) ∧
    { machine [(1, 541), (2, 551), (3, 1), (4, 25326001)] with mrk := 0 }.mrk = 0 := by decide +kernel

/-- 25326001 is no 1 and has no prime factor up to 541, so PRIMETEST with MRK.K = 20 draws witnesses for it. -/
theorem witness_PrimetestAnswersEveryNumber :
    (∀ p, p.Prime → p ≤ 541 → ¬ p ∣ (machine [(1, 25326001)]).reg 1) ∧ (machine [(1, 25326001)]).reg 1 ≠ 1 ∧
    (machine [(1, 25326001)]).mrk.toNat = 20 := by
  refine ⟨fun p hp hle hd => ?_, by decide, by decide⟩
  have h : ∀ q < 542, 2 ≤ q → 25326001 % q ≠ 0 := by decide +kernel
  exact h p (by omega) hp.two_le (Nat.mod_eq_zero_of_dvd hd)

/-- A prime operand, for PRIMETEST's first fact. -/
theorem witness_primality_prime : Nat.Prime ((machine [(1, 541)]).reg 1) := by
  have h : (machine [(1, 541)]).reg 1 = 541 := by decide
  rw [h]
  norm_num

/-- The smallest n with both its witnesses, and each of the four refusals. -/
theorem witness_MrroundRunsOneRound :
    (∀ r ∈ [1, 2, 3, 4, 5, 6], (machine [(1, 5), (2, 2), (3, 3), (4, 4), (5, 1), (6, 9)]).isValid r = true) ∧
    (machine [(1, 5), (2, 2), (3, 3), (4, 4), (5, 1), (6, 9)]).abortReq = false ∧
    (5 ≤ 5 ∧ 5 % 2 = 1 ∧ 2 ≤ 2 ∧ 3 ≤ 5 - 2) ∧ (3 < 5 ∧ 4 % 2 = 0 ∧ 1 < 2 ∧ 5 - 2 < 4) := by decide

/-- C4 and C5 at this width, and the first length over W bits. -/
theorem witness_LdbLoadsABigEndianInteger :
    ((withArgs (machine []) 16 0).abortReq = false ∧
      (withArgs (machine []) 16 0).arg0.toNat + (withArgs (machine []) 16 0).arg1.toNat ≤
        (withArgs (machine []) 16 0).bufsz ∧
      8 * (withArgs (machine []) 0 8).arg1.toNat ≤ (withArgs (machine []) 0 8).width ∧
      (withArgs (machine []) 0 8).arg0.toNat + (withArgs (machine []) 0 8).arg1.toNat ≤
        (withArgs (machine []) 0 8).bufsz) ∧
    (withArgs (machine []) 16 1).bufsz <
      (withArgs (machine []) 16 1).arg0.toNat + (withArgs (machine []) 16 1).arg1.toNat ∧
    ((withArgs (machine []) 7 9).arg0.toNat + (withArgs (machine []) 7 9).arg1.toNat ≤
      (withArgs (machine []) 7 9).bufsz ∧
      (withArgs (machine []) 7 9).width < 8 * (withArgs (machine []) 7 9).arg1.toNat) := by decide

/-- A value that just fits its declared width at the end of OUT_BUF, the first region past the end, and the first
value that does not fit. -/
theorem witness_StbStoresBigEndianBytes :
    ((withArgs (machine [(2, 0xFFFF)]) 14 2).abortReq = false ∧
      (withArgs (machine [(2, 0xFFFF)]) 14 2).isValid 2 = true ∧
      (withArgs (machine [(2, 0xFFFF)]) 14 2).arg0.toNat + (withArgs (machine [(2, 0xFFFF)]) 14 2).arg1.toNat ≤
        (withArgs (machine [(2, 0xFFFF)]) 14 2).bufsz ∧
      (withArgs (machine [(2, 0xFFFF)]) 14 2).reg 2 <
        2 ^ (8 * (withArgs (machine [(2, 0xFFFF)]) 14 2).arg1.toNat)) ∧
    ((withArgs (machine [(2, 1)]) 15 2).isValid 2 = true ∧ (withArgs (machine [(2, 1)]) 15 2).bufsz <
      (withArgs (machine [(2, 1)]) 15 2).arg0.toNat + (withArgs (machine [(2, 1)]) 15 2).arg1.toNat) ∧
    (2 ^ (8 * (withArgs (machine [(2, 0x10000)]) 14 2).arg1.toNat) ≤
      (withArgs (machine [(2, 0x10000)]) 14 2).reg 2) := by decide

/-- Each check of R185 failing alone, at its boundary. -/
theorem witness_CodecChecksComeFirst :
    ((machine [(1, 3)]).isValid 1 = true ∧ (machine [(1, 3)]).isValid 2 = false) ∧
    (k17.isValid 1 = true ∧ k17.isValid 2 = true ∧ k17.bufsz < ({ k17 with inLen := 17 } : State).inLen.toNat) ∧
    ((machine [(1, 3), (2, 127)]).isValid 2 = true ∧
      ({ machine [(1, 3), (2, 127)] with inLen := 16 } : State).inLen.toNat ≤ (machine [(1, 3), (2, 127)]).bufsz ∧
      (machine [(1, 3), (2, 127)]).reg 2 < 2 ^ 7) := by decide

/-- C27 and C28: all blocks fit. -/
theorem witness_CodecWritesItsBlocks :
    ((withInput k17 [0x41, 0x42, 0x43]).params.wf ∧ (withInput k17 [0x41, 0x42, 0x43]).abortReq = false ∧
      (withInput k17 [0x41, 0x42, 0x43]).isValid 1 = true ∧ (withInput k17 [0x41, 0x42, 0x43]).isValid 2 = true ∧
      (withInput k17 [0x41, 0x42, 0x43]).inLen.toNat ≤ (withInput k17 [0x41, 0x42, 0x43]).bufsz ∧
      2 ^ 7 ≤ (withInput k17 [0x41, 0x42, 0x43]).reg 2) ∧
    encrypted 32771 127759 .pad [0x41, 0x42, 0x43] = some [0x01, 0x0F, 0x49, 0x00, 0x73, 0x90] ∧
    decrypted 5131 127759 .pad [0x01, 0x0F, 0x49, 0x00, 0x73, 0x90] = some [0x41, 0x42, 0x00, 0x43] ∧
    (withInput k17 [0x41, 0x42, 0x43]).readIn 0 (withInput k17 [0x41, 0x42, 0x43]).inLen.toNat =
      [0x41, 0x42, 0x43] := by decide +kernel

/-- How a codec command ended: its error code and the bytes it consumed. -/
def ending (o : Host.Outcome State Fault Refusal) : Option (Option ErrorCode × Nat) :=
  match o with
  | .next t => some (t.errCode, t.progress.consumed)
  | _ => none

/-- C44 and C37: the checks pass, and the loop ends with BUF_RANGE after five blocks and with ENCODE_OVERFLOW. -/
theorem witness_FinishedBlocksStayWritten :
    ((withInput k17 (List.replicate 16 0x00)).params.wf ∧
      (withInput k17 (List.replicate 16 0x00)).isValid 1 = true ∧
      (withInput k17 (List.replicate 16 0x00)).isValid 2 = true ∧
      (withInput k17 (List.replicate 16 0x00)).isValid 3 = true ∧
      (withInput k17 (List.replicate 16 0x00)).inLen.toNat ≤ (withInput k17 (List.replicate 16 0x00)).bufsz ∧
      2 ^ 7 ≤ (withInput k17 (List.replicate 16 0x00)).reg 2) ∧
    ending (exec (.benc 1 2 .pad) (withInput k17 (List.replicate 16 0x00))) = some (some .bufRange, 10) ∧
    ending (exec (.bdec 3 2 .legacy) (withInput k17 [0xA4, 0xE7, 0x50, 0xCD])) = some (some .encodeOverflow, 0) := by
  refine ⟨by decide, ?_, ?_⟩ <;> decide +kernel

theorem witness_EmptyInputGivesEmptyOutput :
    k17.isValid 1 = true ∧ k17.isValid 2 = true ∧ 2 ^ 7 ≤ k17.reg 2 ∧ k17.inLen = 0 ∧ k17.abortReq = false ∧
    ∃ t, exec (.benc 1 2 .legacy) k17 = .next t :=
  ⟨by decide, by decide, by decide, by decide, by decide, _, rfl⟩

/-- The end of C35, and the machine its ciphertext is handed to. -/
def c35 : State :=
  match exec (.benc 1 2 .pad) (withInput k17 [0x00, 0x02, 0x00, 0x41]) with
  | .next t => t
  | _ => k17

/-- The machine that decrypts what c35 wrote. -/
def c35back : State := withInput k17 [0x00, 0xA4, 0xE7, 0x00, 0x50, 0xCD]

theorem witness_PadModeRoundTrips :
    k17.reg 2 = 509 * 251 ∧ k17.reg 1 * k17.reg 3 % ((509 - 1) * (251 - 1)) = 1 ∧ bitlen (509 * 251) % 8 ≠ 0 ∧
    (withInput k17 [0x00, 0x02, 0x00, 0x41]).inLen.toNat % plainLen (509 * 251) = 0 ∧
    (withInput k17 [0x00, 0x02, 0x00, 0x41]).params.wf ∧ c35back.params = k17.params ∧
    (match exec (.benc 1 2 .pad) (withInput k17 [0x00, 0x02, 0x00, 0x41]) with
      | .next t => t = c35
      | _ => False) ∧
    c35.errCode = none ∧ c35back.reg 2 = 509 * 251 ∧ c35back.isValid 3 = true ∧ c35back.isValid 2 = true ∧
    c35back.abortReq = false ∧ c35back.inLen = c35.outLen ∧
    ∀ a, a < 6 → c35back.inByte a = c35.outByte a := by
  refine ⟨?_, ?_, ?_, ?_, ?_, ?_, ?_, ?_, ?_, ?_, ?_, ?_, ?_, ?_⟩
  all_goals first | decide +kernel | rfl

/-- The end of BENC.L on the first chunk of C29. -/
def c29 : State :=
  match exec (.benc 1 2 .legacy) (withInput k17 [0x41, 0x42]) with
  | .next t => t
  | _ => k17

/-- The legacy clause: one chunk 0x41, 0x42, whose block fills its L_ct = 3 bytes. -/
theorem witness_PadModeRoundTrips_legacy :
    (∀ a < 2, a % plainLen (509 * 251) = 0 → (withInput k17 [0x41, 0x42]).inByte a ≠ 0 ∧
      2 ^ (8 * plainLen (509 * 251)) ≤ beToInt ((withInput k17 [0x41, 0x42]).readIn a (plainLen (509 * 251))) ^
        (withInput k17 [0x41, 0x42]).reg 1 % (509 * 251)) ∧
    (withInput k17 [0x41, 0x42]).inLen.toNat = 2 ∧ 2 % plainLen (509 * 251) = 0 ∧
    (match exec (.benc 1 2 .legacy) (withInput k17 [0x41, 0x42]) with
      | .next t => t = c29
      | _ => False) ∧
    c29.errCode = none ∧ (withInput k17 [0x01, 0x0F, 0x49]).inLen = c29.outLen ∧
    ∀ a < 3, (withInput k17 [0x01, 0x0F, 0x49]).inByte a = c29.outByte a := by
  refine ⟨?_, ?_, ?_, ?_, ?_, ?_, ?_⟩
  all_goals first | decide +kernel | rfl

theorem witness_PadModeRoundTrips_primes : Nat.Prime 509 ∧ Nat.Prime 251 ∧ (509 : Nat) ≠ 251 := by norm_num

end Sys2Proof.Tests
end

/-! Proofs of the statements about the state (10_state.md): what a write and an input can do, what every command
writes, and that every step keeps the invariant. -/

namespace Sys2Proof.Machine

/-! ### What a write that takes effect does -/

section HostInterface

variable {s t : State} {off : Nat} {z : AccessSize} {v : Word} {left : List Input}

/-- What an aligned write that is not locked can do, by its offset (10_state.md R24, 20_memory.md R64 to R66). -/
inductive WriteEffect (s : State) (off : Nat) (z : AccessSize) (v : Word) : State → Prop
  | ignored : WriteEffect s off z v s
  | ctrl (h : off = 0x10) : WriteEffect s off z v (s.writeCtrl v)
  | status (h : off = 0x14) : WriteEffect s off z v (s.writeStatus v)
  | cmd (h : off = 0x18) : WriteEffect s off z v (s.accept v)
  | parameter (h : off ∈ [0x1C, 0x20, 0x24, 0x28]) (k : BitVec 8) (a0 a1 n : Word) :
      WriteEffect s off z v { s with mrk := k, arg0 := a0, arg1 := a1, inLen := n }
  | regValid (h : off = 0x34) : WriteEffect s off z v (s.writeRegValid v)
  | window (h : 0x1000 ≤ off ∧ off < 0x5000) (hj : windowWord off < s.width / 32) :
      WriteEffect s off z v
        (s.setReg (windowReg off) (setWordAt (s.reg (windowReg off)) (windowWord off) v))
  | inBuf (h : 0x8000 ≤ off ∧ off < 0xC000) (hb : off - 0x8000 < s.bufsz) :
      WriteEffect s off z v (s.writeIn (off - 0x8000) (valueBytes v z.bytes))
  | outBuf (h : 0xC000 ≤ off) (hb : off - 0xC000 < s.bufsz) :
      WriteEffect s off z v (s.writeOut (off - 0xC000) (valueBytes v z.bytes))

theorem writeControl_effect (s : State) (off : Nat) (z : AccessSize) (v : Word) :
    WriteEffect s off z v (s.writeControl off v) := by
  unfold State.writeControl
  split
  · exact .ctrl rfl
  · exact .status rfl
  · exact .cmd rfl
  · exact .parameter (by decide) (v.setWidth 8) s.arg0 s.arg1 s.inLen
  · exact .parameter (by decide) s.mrk v s.arg1 s.inLen
  · exact .parameter (by decide) s.mrk s.arg0 v s.inLen
  · exact .parameter (by decide) s.mrk s.arg0 s.arg1 v
  · exact .regValid rfl
  · exact .ignored

theorem writeOffset_effect (s : State) (off : Nat) (z : AccessSize) (v : Word) :
    WriteEffect s off z v (s.writeOffset off z v) := by
  unfold State.writeOffset State.writeWindow
  split
  · exact writeControl_effect s off z v
  · split
    · split
      · next hj => exact .window (by omega) hj
      · exact .ignored
    · split
      · exact .ignored
      · split
        · split
          · next hb => exact .inBuf (by omega) hb
          · exact .ignored
        · split
          · next hb => exact .outBuf (by omega) hb
          · exact .ignored

/-- What an input that arrives can do (20_memory.md R60 to R69, 70_reset_and_hazards.md R242). -/
inductive InputEffect (s : State) : Input → State → Prop
  | read (addr : Nat) (z : AccessSize) (b : BusStatus) (d : Word) (n : Nat) :
      InputEffect s (.read addr z) (({ s with draws := n } : State).respond b d)
  | refused (addr : Nat) (z : AccessSize) (v : Word) : InputEffect s (.write addr z v) (s.respond .error 0)
  | lost (off : Nat) (z : AccessSize) (v : Word) (ho : off < 0x10000) (hok : accessOk off z = true)
      (hb : s.isBusy = true) (hl : s.isLocked off = true) :
      InputEffect s (.write (s.params.base + off) z v) (s.setOvr.respond .okay 0)
  | written (off : Nat) (z : AccessSize) (v : Word) (u : State) (hr : s.rst = false) (ho : off < 0x10000)
      (hok : accessOk off z = true) (hl : (s.isBusy && s.isLocked off) = false) (hu : WriteEffect s off z v u) :
      InputEffect s (.write (s.params.base + off) z v) (u.respond .okay 0)
  | rst (level : Bool) : InputEffect s (.rst level) (s.setRst level)
  | pause : InputEffect s .pause s

/-- An access that has a move is to an offset of the window, with `rst` released. -/
theorem access_eq_next {addr : Nat} {k : Nat → State} (h : s.access addr k = .next t) :
    s.rst = false ∧ ∃ off, off < 0x10000 ∧ addr = s.params.base + off ∧ t = k off := by
  unfold State.access at h
  split at h
  · cases h
  · next hr =>
    split at h
    · cases h
    · next off ho =>
      obtain ⟨ha, hlt⟩ := State.offset_eq_some s ho
      cases h
      exact ⟨by simpa using hr, off, hlt, ha, rfl⟩

theorem serve_effect {i : Input} (h : s.serve i = .next t) : InputEffect s i t := by
  cases i with
  | read addr z =>
    obtain ⟨_, off, _, _, rfl⟩ := access_eq_next h
    obtain ⟨b, d, n, e⟩ := State.hostRead_cases s off z
    exact e ▸ .read addr z b d n
  | write addr z v =>
    obtain ⟨hr, off, ho, rfl, rfl⟩ := access_eq_next h
    rcases State.hostWrite_cases s off z v with ⟨_, e⟩ | ⟨hok, hb, hl, e⟩ | ⟨hok, hl, e⟩ <;> rw [e]
    · exact .refused _ z v
    · exact .lost off z v ho hok hb hl
    · exact .written off z v _ hr ho hok hl (writeOffset_effect s off z v)
  | rst level =>
    cases h
    exact .rst level
  | pause =>
    cases h
    exact .pause

end HostInterface

/-! ### What every command writes -/

section Commands

variable {i : Instr} {s t : State}

theorem sprpLoop_le_one (n count : Nat) : ∀ x, sprpLoop n count x ≤ 1 := by
  induction count with
  | zero => exact fun _ => Nat.zero_le 1
  | succ count ih =>
    intro x
    unfold sprpLoop
    split
    · exact le_rfl
    · exact ih _

theorem sprp_le_one (n a : Nat) : sprp n a ≤ 1 := by
  unfold sprp
  dsimp only
  split
  · exact le_rfl
  · exact sprpLoop_le_one n _ _

theorem lt_two_pow_width (hp : s.params.wf) {v : Nat} (hv : v < 2 ^ 64) : v < 2 ^ s.width :=
  hv.trans_le (Nat.pow_le_pow_right (by decide) hp.1.2.1)

/-- A command with a destination writes one result, or ends with an error. From registers in range the result is in
range too, so the command keeps the range of R20; LDI needs its immediate to fit its field. -/
theorem exec_regOutcome (s : State) {rd : Reg} (hd : destOf i = some rd) :
    ∃ t Q errors, exec i s = .next t ∧ RegOutcome s rd Q errors t ∧
      (i.wellFormed = true → s.params.wf → (∀ r, s.reg r < 2 ^ s.width) → ∀ v, Q v → v < 2 ^ s.width) := by
  cases i with cases hd
  | ldi _ imm =>
    obtain ⟨t, h, ho⟩ := execLdi_cases s rd imm
    refine ⟨t, _, _, h, ho, fun hi hp _ v hv => lt_two_pow_width hp ?_⟩
    have : imm < 65536 := of_decide_eq_true hi
    omega
  | mov _ ra =>
    obtain ⟨t, h, ho⟩ := execMov_cases s rd ra
    exact ⟨t, _, _, h, ho, fun _ _ hr v hv => hv ▸ hr ra⟩
  | add _ ra rb =>
    obtain ⟨t, h, ho⟩ := execAdd_cases s rd ra rb
    exact ⟨t, _, _, h, ho, fun _ _ _ v hv => hv.2⟩
  | addi _ ra imm =>
    obtain ⟨t, h, ho⟩ := execAddi_cases s rd ra imm
    exact ⟨t, _, _, h, ho, fun _ _ _ v hv => hv.2⟩
  | sub _ ra rb =>
    obtain ⟨t, h, ho⟩ := execSub_cases s rd ra rb
    exact ⟨t, _, _, h, ho, fun _ _ hr v hv => (Nat.le.intro hv).trans_lt (hr ra)⟩
  | subi _ ra imm =>
    obtain ⟨t, h, ho⟩ := execSubi_cases s rd ra imm
    exact ⟨t, _, _, h, ho, fun _ _ hr v hv => (Nat.le.intro hv).trans_lt (hr ra)⟩
  | cmp _ ra rb =>
    obtain ⟨t, h, ho⟩ := execCmp_cases s rd ra rb
    refine ⟨t, _, _, h, ho, fun _ hp _ v hv => lt_two_pow_width hp ?_⟩
    split_ifs at hv <;> omega
  | bitlen _ ra =>
    obtain ⟨t, h, ho⟩ := execBitlen_cases s rd ra
    refine ⟨t, _, _, h, ho, fun _ _ hr v hv => ?_⟩
    have hle : v ≤ s.width := hv ▸ (bitlen_le_iff _ _).2 (hr ra)
    exact hle.trans_lt Nat.lt_two_pow_self
  | mul _ ra rb =>
    obtain ⟨t, h, ho⟩ := execMul_cases s rd ra rb
    exact ⟨t, _, _, h, ho, fun _ _ _ v hv => hv.2⟩
  | mod _ ra rc =>
    obtain ⟨t, h, ho⟩ := execMod_cases s rd ra rc
    refine ⟨t, _, _, h, ho, fun _ _ hr v ⟨hm, hv⟩ => ?_⟩
    exact (hv ▸ Nat.mod_lt _ (Nat.pos_of_ne_zero hm)).trans (hr rc)
  | modmul _ ra rb rc =>
    obtain ⟨t, h, ho⟩ := execModmul_cases s rd ra rb rc
    refine ⟨t, _, _, h, ho, fun _ _ hr v ⟨hm, hv⟩ => ?_⟩
    exact (hv ▸ Nat.mod_lt _ (Nat.pos_of_ne_zero hm)).trans (hr rc)
  | gcd _ ra rb =>
    obtain ⟨t, h, ho⟩ := execGcd_cases s rd ra rb
    refine ⟨t, _, _, h, ho, fun _ _ hr v hv => hv ▸ ?_⟩
    rcases Nat.eq_zero_or_pos (s.reg ra) with h0 | h0
    · rw [h0, Nat.gcd_zero_left]
      exact hr rb
    · exact (Nat.gcd_le_left _ h0).trans_lt (hr ra)
  | modinv _ ra rc =>
    obtain ⟨t, h, ho⟩ := execModinv_cases s rd ra rc
    exact ⟨t, _, _, h, ho, fun _ _ hr v hv => hv.1.trans (hr rc)⟩
  | modpow _ ra rb rc =>
    obtain ⟨t, h, ho⟩ := execModpow_cases s rd ra rb rc
    refine ⟨t, _, _, h, ho, fun _ _ hr v ⟨hm, hv⟩ => ?_⟩
    exact (hv ▸ Nat.mod_lt _ (Nat.pos_of_ne_zero hm)).trans (hr rc)
  | randb _ imm =>
    obtain ⟨t, h, ho⟩ := execRandb_cases s rd imm
    exact ⟨t, _, _, h, ho, fun _ _ _ v hv => hv.2.trans_le (Nat.pow_le_pow_right (by decide) hv.1)⟩
  | randc _ imm =>
    obtain ⟨t, h, ho⟩ := execRandc_cases s rd imm
    refine ⟨t, _, _, h, ho, fun _ _ _ v ⟨h1, hle, r, hr, hv⟩ => ?_⟩
    have htop : 2 ^ (imm - 1) < 2 ^ imm := Nat.pow_lt_pow_right (by decide) (by omega)
    have hone : 1 < 2 ^ imm := Nat.one_lt_two_pow (by omega)
    exact (hv ▸ Nat.or_lt_two_pow (Nat.or_lt_two_pow hr htop) hone).trans_le
      (Nat.pow_le_pow_right (by decide) hle)
  | trialdiv _ ra =>
    obtain ⟨t, h, ho⟩ := execTrialdiv_cases s rd ra
    refine ⟨t, _, _, h, ho, fun _ hp _ v hv => lt_two_pow_width hp ?_⟩
    split at hv
    · omega
    · split_ifs at hv <;> omega
  | mrround _ ra rb =>
    obtain ⟨t, h, ho⟩ := execMrround_cases s rd ra rb
    refine ⟨t, _, _, h, ho, fun _ hp _ v ⟨_, _, _, _, hv⟩ => lt_two_pow_width hp ?_⟩
    have := sprp_le_one (s.reg ra) (s.reg rb)
    omega
  | primetest _ ra =>
    obtain ⟨t, h, ho⟩ := execPrimetest_cases s rd ra
    refine ⟨t, _, _, h, ho, fun _ hp _ v hv => lt_two_pow_width hp ?_⟩
    omega
  | ldb _ =>
    obtain ⟨t, h, ho⟩ := execLdb_cases s rd
    refine ⟨t, _, _, h, ho, fun _ _ _ v ⟨_, hw, hv⟩ => hv ▸ (beToInt_lt _).trans_le ?_⟩
    rw [State.readIn_length]
    exact Nat.pow_le_pow_right (by decide) hw

/-- STB leaves the registers, its inputs, OUTLEN and the codec's progress, however it ends. -/
theorem execStb_frame {ra : Reg} {mode : Mode} (h : execStb ra mode s = .next t) :
    SameRegs s t ∧ SameInputs s t ∧ t.outLen = s.outLen ∧ t.progress = s.progress := by
  obtain ⟨u, hu, hout⟩ := execStb_cases s ra mode
  obtain rfl : t = u := by simpa [h] using hu
  rcases hout with ⟨bs, _, _, c, rfl⟩ | ⟨c, ⟨hregs, ⟨_, hlen, _, hp⟩, hin, _⟩, _⟩
  · exact ⟨fun _ => ⟨rfl, rfl⟩,
      ⟨fun _ => rfl, rfl, rfl, rfl, rfl, rfl, rfl, rfl, rfl, rfl, rfl, rfl, rfl⟩, rfl, rfl⟩
  · exact ⟨hregs, hin, hlen, hp⟩

/-- BENC and BDEC leave the registers, their inputs and XLEN, however they end. -/
theorem runBlocks_frame (s : State) (ra rc : Reg) (job : Nat → Nat → BlockJob) :
    SameRegs s (s.runBlocks ra rc job) ∧ SameInputs s (s.runBlocks ra rc job) ∧
      (s.runBlocks ra rc job).xLen = s.xLen := by
  rcases runBlocks_cases s ra rc job with ⟨c, ⟨hregs, ⟨_, _, hx, _⟩, hin, _⟩, _⟩ | ⟨m, n, p, k, e, he, _⟩
  · exact ⟨hregs, hin, hx⟩
  · exact he ▸ ⟨fun _ => ⟨rfl, rfl⟩,
      ⟨fun _ => rfl, rfl, rfl, rfl, rfl, rfl, rfl, rfl, rfl, rfl, rfl, rfl, rfl⟩, rfl⟩

/-- What any command has done to the fields that commands share, however it ended: written its destination, written
nothing but STATUS, or, when it is a command that writes OUT_BUF, written its output. -/
theorem exec_frame (h : exec i s = .next t) :
    (∃ rd v, destOf i = some rd ∧ WroteReg s t rd v) ∨
    (SameRegs s t ∧ SameOutput s t ∧ SameInputs s t) ∨
    (writesOutBuf i = true ∧ SameRegs s t ∧ SameInputs s t ∧
      (isCodec i = false → t.outLen = s.outLen ∧ t.progress = s.progress) ∧
      (isCodec i = true → t.xLen = s.xLen)) := by
  cases hd : destOf i with
  | some rd =>
    obtain ⟨u, Q, errors, hu, ⟨_, hout⟩, _⟩ := exec_regOutcome s hd
    obtain rfl : t = u := by simpa [h] using hu
    rcases hout with ⟨v, _, hw⟩ | ⟨c, ⟨hregs, ho, hin, _⟩, _⟩
    · exact .inl ⟨rd, v, rfl, hw⟩
    · exact .inr (.inl ⟨hregs, ho, hin⟩)
  | none =>
    right
    cases i with cases hd
    | nop =>
      left
      obtain ⟨u, hu, hout⟩ := execNop_cases s
      obtain rfl : t = u := by simpa [exec, hu] using h.symm
      rcases hout with ⟨_, hregs, ho, hin, _⟩ | ⟨hregs, ho, hin, _⟩
      · exact ⟨hregs, ho, hin⟩
      · exact ⟨hregs, ho, hin⟩
    | stb ra mode =>
      obtain ⟨hregs, hin, hlen, hp⟩ := execStb_frame h
      exact .inr ⟨rfl, hregs, hin, fun _ => ⟨hlen, hp⟩, nofun⟩
    | benc ra rc mode =>
      cases h
      obtain ⟨hregs, hin, hx⟩ := runBlocks_frame s ra rc _
      exact .inr ⟨rfl, hregs, hin, nofun, fun _ => hx⟩
    | bdec ra rc mode =>
      cases h
      obtain ⟨hregs, hin, hx⟩ := runBlocks_frame s ra rc _
      exact .inr ⟨rfl, hregs, hin, nofun, fun _ => hx⟩

end Commands

/-- Settles O29: whichever way a command ended, it left its inputs alone. -/
theorem noCommandWritesItsInputs : Obligations.NoCommandWritesItsInputs := by
  intro i s t h
  rcases exec_frame h with ⟨rd, v, _, _, _, _, _, hin, _⟩ | ⟨_, _, hin⟩ | ⟨_, _, hin, _⟩
  · exact hin
  · exact hin
  · exact hin

/-- Settles O30: a command that writes a register writes its destination. -/
theorem onlyTheDestinationIsWritten : Obligations.OnlyTheDestinationIsWritten := by
  intro i s t h r hr
  rcases exec_frame h with ⟨rd, v, hd, _, _, hbut, _⟩ | ⟨hregs, _⟩ | ⟨_, hregs, _⟩
  · exact hbut r fun e => hr (e ▸ hd)
  · exact hregs r
  · exact hregs r

/-- Settles O31: a command that writes no output has the whole output frame, and the codec commands their part. -/
theorem onlyTheCodecWritesOutput : Obligations.OnlyTheCodecWritesOutput := by
  intro i s t h
  have whole : SameOutput s t → (writesOutBuf i = false → SameOutput s t) ∧
      (isCodec i = false → t.outLen = s.outLen ∧ t.progress = s.progress) ∧
      (isCodec i = true → t.xLen = s.xLen) :=
    fun ho => ⟨fun _ => ho, fun _ => ⟨ho.2.1, ho.2.2.2⟩, fun _ => ho.2.2.1⟩
  rcases exec_frame h with ⟨rd, v, _, _, _, _, ho, _⟩ | ⟨_, ho, _⟩ | ⟨hw, _, _, hlen, hx⟩
  · exact whole ho
  · exact whole ho
  · exact ⟨fun hn => by simp [hw] at hn, hlen, hx⟩


end Sys2Proof.Machine

namespace Sys2Proof.Machine

/-! ### The invariant -/

section Invariant

variable {s t : State}

/-- Completion puts STATUS and the abort request in step with the idle phase, whatever the error. -/
theorem State.Inv.complete (h : s.Inv) (e : Option ErrorCode) : (s.complete e).Inv :=
  { h with
    busy_clear := nofun
    idle_abort := fun _ => rfl
    err_code := fun he => by
      rw [State.complete_errCode]
      exact Option.isSome_iff_ne_none.1 he
    rst_idle := fun _ => rfl }

theorem State.Inv.setChoices (h : s.Inv) (k : Nat) : (s.setChoices k).Inv := { h with }

theorem State.Inv.dequeue (h : s.Inv) (left : List Input) : (s.dequeue left).Inv := { h with }

theorem State.Inv.respond (h : s.Inv) (b : BusStatus) (d : Word) : (s.respond b d).Inv := { h with }

theorem State.initial_inv {p : Params} (hp : p.wf) : (State.initial p).Inv where
  params_wf := hp
  regs_lt r := by simp [State.reg, State.initial]
  inBuf_wf := ⟨List.Pairwise.nil, nofun⟩
  outBuf_wf := ⟨List.Pairwise.nil, nofun⟩
  lens_le := ⟨Nat.zero_le _, Nat.zero_le _⟩
  progress_eq := rfl
  busy_clear := nofun
  idle_abort := fun _ => rfl
  err_code := nofun
  rst_idle := fun _ => rfl

theorem State.Inv.resetAll (h : s.Inv) : s.resetAll.Inv :=
  { State.initial_inv h.params_wf with rst_idle := fun _ => rfl }

theorem State.Inv.setRst (h : s.Inv) (level : Bool) : (s.setRst level).Inv := by
  cases level with
  | true => exact { h.resetAll with rst_idle := fun _ => rfl }
  | false => exact { h with rst_idle := nofun }

/-! #### Writes of the host -/

theorem State.Inv.writeCtrl (h : s.Inv) (v : Word) : (s.writeCtrl v).Inv := by
  unfold State.writeCtrl
  split
  · exact h.resetAll
  · exact { h with
      idle_abort := fun hp => by
        have hb : s.isBusy = false := (State.isBusy_eq_false_iff s).2 hp
        simp [h.idle_abort hp, hb] }

theorem State.Inv.writeStatus (h : s.Inv) (v : Word) : (s.writeStatus v).Inv :=
  { h with
    busy_clear := fun hp => by
      obtain ⟨hd, he, hc⟩ := h.busy_clear hp
      simp [hd, he, hc]
    err_code := fun he => h.err_code (Bool.and_eq_true .. ▸ he).1 }

theorem State.Inv.accept (h : s.Inv) (hr : s.rst = false) (v : Word) : (s.accept v).Inv :=
  { h with
    busy_clear := fun _ => ⟨rfl, rfl, rfl⟩
    idle_abort := nofun
    err_code := nofun
    rst_idle := fun ht => absurd (hr.symm.trans ht) Bool.false_ne_true }

/-- A register write within its range keeps the range of R20. -/
theorem State.Inv.setReg (h : s.Inv) (r : Reg) {v : Nat} (hv : v < 2 ^ s.width) : (s.setReg r v).Inv :=
  { h with
    regs_lt := fun q => by
      by_cases hq : q = r
      · exact hq ▸ (State.reg_setReg_self s q v).symm ▸ hv
      · exact (State.reg_setReg_of_ne s hq v).symm ▸ h.regs_lt q }

/-- Setting a word below bit W of an integer below 2^W leaves it below 2^W. -/
theorem setWordAt_lt {n j w : Nat} (hn : n < 2 ^ w) (hj : 32 * j + 32 ≤ w) (v : Word) : setWordAt n j v < 2 ^ w := by
  have hlow : v.toNat * 2 ^ (32 * j) + n % 2 ^ (32 * j) < 2 ^ (32 * j + 32) := by
    have hmod : n % 2 ^ (32 * j) < 2 ^ (32 * j) := Nat.mod_lt _ (Nat.two_pow_pos _)
    calc v.toNat * 2 ^ (32 * j) + n % 2 ^ (32 * j)
        < (v.toNat + 1) * 2 ^ (32 * j) := by rw [Nat.succ_mul v.toNat]; exact Nat.add_lt_add_left hmod _
      _ ≤ 2 ^ 32 * 2 ^ (32 * j) := Nat.mul_le_mul_right _ v.isLt
      _ = 2 ^ (32 * j + 32) := by rw [pow_add, Nat.mul_comm]
  obtain ⟨d, rfl⟩ := Nat.exists_eq_add_of_le hj
  have hhigh : n / 2 ^ (32 * j + 32) < 2 ^ d := Nat.div_lt_of_lt_mul (by rwa [← pow_add])
  unfold setWordAt
  rw [Nat.add_assoc, pow_add 2 _ d]
  generalize 2 ^ (32 * j + 32) = top at hlow hhigh ⊢
  calc n / top * top + (v.toNat * 2 ^ (32 * j) + n % 2 ^ (32 * j))
      < (n / top + 1) * top := by rw [Nat.succ_mul (n / top)]; exact Nat.add_lt_add_left hlow _
    _ ≤ top * 2 ^ d := by rw [Nat.mul_comm top]; exact Nat.mul_le_mul_right _ hhigh

theorem valueBytes_length (v : Word) (n : Nat) : (valueBytes v n).length = n := by simp [valueBytes]

/-- An aligned access to a buffer that starts below BUFSZ ends there too, since BUFSZ is a multiple of 4. -/
theorem State.Inv.add_bytes_le (h : s.Inv) {a : Nat} {z : AccessSize} (ha : a % z.bytes = 0) (hb : a < s.bufsz) :
    a + z.bytes ≤ s.bufsz := by
  have h4 : s.bufsz % 4 = 0 := h.params_wf.2.1.1
  cases z <;> simp only [AccessSize.bytes] at ha ⊢ <;> omega

theorem accessOk_buffer {off : Nat} {z : AccessSize} (h : 0x8000 ≤ off) (hok : accessOk off z = true) :
    off % z.bytes = 0 := by
  simpa [accessOk, Nat.not_lt.2 h] using hok

theorem WriteEffect.keeps_inv {off : Nat} {z : AccessSize} {v : Word} (hu : WriteEffect s off z v t) (h : s.Inv)
    (hr : s.rst = false) (hok : accessOk off z = true) : t.Inv := by
  cases hu with
  | ignored => exact h
  | ctrl => exact h.writeCtrl v
  | status => exact h.writeStatus v
  | cmd => exact h.accept hr v
  | parameter => exact { h with }
  | regValid => exact { h with }
  | window _ hj => exact h.setReg _ (setWordAt_lt (h.regs_lt _) (by omega) v)
  | inBuf hw hb =>
    have ha : (off - 0x8000) % z.bytes = 0 := by
      have := accessOk_buffer hw.1 hok
      cases z <;> simp only [AccessSize.bytes] at this ⊢ <;> omega
    refine { h with inBuf_wf := Memory.storeBytes_ok _ h.inBuf_wf ?_ }
    exact (valueBytes_length v z.bytes).symm ▸ h.add_bytes_le ha hb
  | outBuf hw hb =>
    have ha : (off - 0xC000) % z.bytes = 0 := by
      have := accessOk_buffer (by omega) hok
      cases z <;> simp only [AccessSize.bytes] at this ⊢ <;> omega
    refine { h with outBuf_wf := Memory.storeBytes_ok _ h.outBuf_wf ?_ }
    exact (valueBytes_length v z.bytes).symm ▸ h.add_bytes_le ha hb

theorem InputEffect.keeps_inv {i : Input} (hi : InputEffect s i t) (h : s.Inv) : t.Inv := by
  cases hi with
  | read => exact { h with }
  | refused => exact { h with }
  | lost => exact { h with }
  | written off z v u hr _ hok _ hu => exact (hu.keeps_inv h hr hok).respond _ _
  | rst level => exact h.setRst level
  | pause => exact h

/-! #### Commands -/

/-- A block that ends within OUT_BUF is counted exactly by OUTLEN. -/
theorem State.Inv.putBlock (h : s.Inv) (i : Nat) {o : Nat} {bs : List Byte} (hb : o + bs.length ≤ s.bufsz) :
    (s.putBlock i o bs).Inv := by
  have hsz : s.bufsz ≤ 16384 := h.params_wf.2.1.2.2
  have hlen : (BitVec.ofNat 32 (o + bs.length)).toNat = o + bs.length := by
    rw [BitVec.toNat_ofNat, Nat.mod_eq_of_lt (by omega)]
  exact { h with
    outBuf_wf := Memory.storeBytes_ok bs h.outBuf_wf hb
    lens_le := ⟨hlen.trans_le hb, h.lens_le.2⟩
    progress_eq := hlen.symm }

theorem State.Inv.setXLen (h : s.Inv) {n : Nat} (hn : n ≤ s.bufsz) : (s.setXLen n).Inv :=
  { h with lens_le := ⟨h.lens_le.1, (Nat.mod_le n _).trans hn⟩ }

theorem blockLoop_keeps_inv (j : BlockJob) (fuel : Nat) : ∀ {s : State}, s.Inv → (blockLoop j fuel s).2.Inv := by
  induction fuel with
  | zero => exact fun h => h
  | succ fuel ih =>
    intro s h
    obtain ⟨k, hk⟩ := State.passAbort_eq s
    unfold blockLoop
    rw [hk]
    split
    · split
      · exact h.setChoices k
      · dsimp only
        split
        · exact h.setChoices k
        · split
          · exact h.setChoices k
          · next hfit => exact ih ((h.setChoices k).putBlock _ (Nat.not_lt.1 hfit))
    · exact h

theorem State.Inv.commit (h : s.Inv) {w : State → State} (hw : ∀ k, (w (s.setChoices k)).Inv) :
    (s.commit w).Inv := by
  obtain ⟨k, hk⟩ := State.passAbort_eq s
  rcases State.commit_cases s w with ⟨_, e⟩ | e <;> rw [e, hk]
  · exact (h.setChoices k).complete _
  · exact (hw k).complete _

theorem State.Inv.runBlocks (h : s.Inv) (ra rc : Reg) (job : Nat → Nat → BlockJob) :
    (s.runBlocks ra rc job).Inv := by
  unfold State.runBlocks
  rcases State.withSources_cases s ra rc _ with e | e <;> rw [e]
  · exact h.complete _
  · split
    · exact h.complete _
    · split
      · exact h.complete _
      · have hstart : ((s.setOutLen 0).setProgress 0 0).Inv :=
          { h with lens_le := ⟨Nat.zero_le _, h.lens_le.2⟩, progress_eq := rfl }
        have hend := blockLoop_keeps_inv (job (s.reg ra) (s.reg rc)) s.inLen.toNat hstart
        split
        · next c t ht =>
          rw [ht] at hend
          exact hend.complete _
        · next t ht =>
          rw [ht] at hend
          exact hend.commit fun k => hend.setChoices k

/-- What a register command leaves is in range when its result is. -/
theorem RegOutcome.keeps_inv {rd : Reg} {Q : Nat → Prop} {errors : List ErrorCode} (ho : RegOutcome s rd Q errors t)
    (h : s.Inv) (hQ : ∀ v, Q v → v < 2 ^ s.width) : t.Inv := by
  obtain ⟨⟨g, b, d, k, e, rfl⟩, hout⟩ := ho
  suffices hregs : ∀ r, ({ s with regs := g } : State).reg r < 2 ^ s.width from
    State.Inv.complete (s := { s with regs := g, valid := b, draws := d, choices := k }) { h with regs_lt := hregs } e
  intro r
  rcases hout with ⟨v, hv, hrd, _, hbut, _⟩ | ⟨c, ⟨hregs, _⟩, _⟩
  · by_cases hr : r = rd
    · exact hr ▸ hrd.trans_lt (hQ v hv)
    · exact (hbut r hr).1.trans_lt (h.regs_lt r)
  · exact (hregs r).1.trans_lt (h.regs_lt r)

theorem exec_keeps_inv {i : Instr} (hi : i.wellFormed = true) (h : s.Inv) (he : exec i s = .next t) : t.Inv := by
  cases hd : destOf i with
  | some rd =>
    obtain ⟨u, Q, errors, hu, ho, hQ⟩ := exec_regOutcome s hd
    obtain rfl : t = u := by simpa [he] using hu
    exact ho.keeps_inv h (hQ hi h.params_wf h.regs_lt)
  | none =>
    cases i with cases hd <;> cases he
    | nop => exact h.commit fun k => h.setChoices k
    | stb ra mode =>
      rcases State.withSource_cases s ra _ with e | e <;> rw [e]
      · exact h.complete _
      · split
        · exact h.complete _
        · next hbuf =>
          split
          · exact h.complete _
          · next bs hbs =>
            have hlen := (encodeBlock_length hbs).1
            have hout : s.arg0.toNat + bs.length ≤ s.bufsz := by omega
            refine h.commit fun k => State.Inv.setXLen ?_ ((Nat.le_add_left _ _).trans hout)
            exact { h with outBuf_wf := Memory.storeBytes_ok bs h.outBuf_wf hout }
    | benc ra rc mode => exact h.runBlocks ra rc _
    | bdec ra rc mode => exact h.runBlocks ra rc _

/-! #### The decoder's immediates, and the step -/

theorem matchRow_eq_ok {w : Word} {i j : Instr} (h : matchRow w i = .ok j) : i = j := by
  unfold matchRow at h
  split at h
  · cases h
    rfl
  · cases h

theorem immOk_immOf (w : Word) : immOk (immOf w) = true := decide_eq_true (Nat.mod_lt _ (by decide))

/-- The decoder answers only instructions that a word can hold (30_encoding.md R94). -/
theorem decode_wellFormed {w : Word} {i : Instr} (h : decode w = .ok i) : i.wellFormed = true := by
  unfold decode at h
  split at h
  case h_25 => cases h
  all_goals
    obtain rfl := matchRow_eq_ok h
    simp [Instr.wellFormed, immOk_immOf]

theorem State.writeCtrl_params (s : State) (v : Word) : (s.writeCtrl v).params = s.params := by
  unfold State.writeCtrl
  split
  · rfl
  · rfl

theorem WriteEffect.params {off : Nat} {z : AccessSize} {v : Word} (hu : WriteEffect s off z v t) :
    t.params = s.params := by
  cases hu with
  | ctrl => exact s.writeCtrl_params v
  | _ => rfl

theorem InputEffect.params {i : Input} (hi : InputEffect s i t) : t.params = s.params := by
  cases hi with
  | written off z v u _ _ _ _ hu => exact hu.params
  | rst level => cases level <;> rfl
  | _ => rfl

end Invariant

/-- Settles O10, by the four kinds of step. -/
theorem stepKeepsTheInvariant : Obligations.StepKeepsTheInvariant := by
  intro s t h
  rcases step_cases s h with ⟨_, i, hdec, he⟩ | ⟨_, _, rfl⟩ | ⟨i, left, _, hserve⟩ | ⟨_, rfl⟩
  · obtain ⟨_, _, _, _, _, _, _, _, hparams, _⟩ := noCommandWritesItsInputs i s t he
    exact ⟨fun hs => exec_keeps_inv (decode_wellFormed hdec) hs he, hparams⟩
  · exact ⟨fun hs => hs.complete _, rfl⟩
  · have hi := serve_effect hserve
    exact ⟨fun hs => hi.keeps_inv (hs.dequeue left), hi.params⟩
  · exact ⟨fun hs => hs, rfl⟩


end Sys2Proof.Machine

namespace Sys2Proof.Machine

/-! ### Accesses to the control block as steps -/

section ControlBlock

variable {s t : State} {off : Nat} {z : AccessSize} {v : Word} {left : List Input}

@[simp] theorem State.readOffset_dequeue (s : State) (left : List Input) (off : Nat) (z : AccessSize) :
    (s.dequeue left).readOffset off z = s.readOffset off z := rfl

/-- A read that is not a draw answers its exact data. -/
theorem step_read_exact (hr : s.rst = false) (ho : off < 0x10000) (hok : accessOk off z = true)
    (hl : (s.isBusy && s.isResult off) = false)
    (h : s.nextMove = .input (.read (s.params.base + off) z) left) :
    step s = .next ((s.dequeue left).respond .okay (s.readOffset off z)) := by
  have hl' : ((s.dequeue left).isBusy && (s.dequeue left).isResult off) = false := hl
  simp only [step_read hr ho h, State.hostRead, hok, hl', Bool.true_eq_false, Bool.false_eq_true, if_false,
    State.readOffset_dequeue]

/-- A write that is not locked takes effect. -/
theorem step_write_unlocked (hr : s.rst = false) (ho : off < 0x10000) (hok : accessOk off z = true)
    (hl : (s.isBusy && s.isLocked off) = false)
    (h : s.nextMove = .input (.write (s.params.base + off) z v) left) :
    step s = .next (((s.dequeue left).writeOffset off z v).respond .okay 0) := by
  have hl' : ((s.dequeue left).isBusy && (s.dequeue left).isLocked off) = false := hl
  simp only [step_write hr ho h, State.hostWrite, hok, hl', Bool.true_eq_false, Bool.false_eq_true, if_false]

/-- A locked write while busy is lost and sets OVR (20_memory.md R68). -/
theorem step_write_locked (hr : s.rst = false) (ho : off < 0x10000) (hok : accessOk off z = true)
    (hb : s.phase = .busy) (hl : s.isLocked off = true)
    (h : s.nextMove = .input (.write (s.params.base + off) z v) left) :
    ∃ t, step s = .next t ∧ t.architectural = { s.architectural with ovr := true } := by
  have hl' : ((s.dequeue left).isBusy && (s.dequeue left).isLocked off) = true :=
    Bool.and_eq_true_iff.2 ⟨(State.isBusy_iff s).2 hb, hl⟩
  simp only [step_write hr ho h, State.hostWrite, hok, hl', Bool.true_eq_false, if_false, if_true]
  exact ⟨_, rfl, rfl⟩

theorem isBusy_and_of_idle (h : s.phase = .idle) (b : Bool) : (s.isBusy && b) = false := by
  simp [(State.isBusy_eq_false_iff s).2 h]

/-- Neither the control block nor the reserved range holds a window word or a buffer byte. -/
theorem State.isData_eq_false (s : State) (h : off < 0x1000 ∨ (0x5000 ≤ off ∧ off < 0x8000)) :
    s.isData off = false := by
  simp only [State.isData, decide_eq_false_iff_not]
  omega

theorem State.isResult_eq_false (s : State) (h : off < 0x1000 ∨ (0x5000 ≤ off ∧ off < 0x8000))
    (hn : off ∉ [0x2C, 0x30, 0x34]) : s.isResult off = false := by
  simp only [List.mem_cons, List.not_mem_nil, or_false, not_or] at hn
  simp [State.isResult, State.isData_eq_false s h, hn]

theorem State.isLocked_eq_false (s : State) (h : off < 0x1000 ∨ (0x5000 ≤ off ∧ off < 0x8000))
    (hn : off ∉ [0x18, 0x1C, 0x20, 0x24, 0x28, 0x34]) : s.isLocked off = false := by
  simp only [List.mem_cons, List.not_mem_nil, or_false, not_or] at hn
  simp [State.isLocked, State.isData_eq_false s h, hn]

theorem accessOk_word (h : off < 0x8000) (ha : off % 4 = 0) : accessOk off .word = true := by
  simp [accessOk, h, ha]

theorem readOffset_of_control (s : State) (z : AccessSize) (h : off < 0x1000) :
    s.readOffset off z = s.readControl off := by
  simp [State.readOffset, h]

theorem writeOffset_of_control (s : State) (z : AccessSize) (v : Word) (h : off < 0x1000) :
    s.writeOffset off z v = s.writeControl off v := by
  simp [State.writeOffset, h]

/-- A read of a control register that is not a result, at every time. -/
theorem step_read_control (hr : s.rst = false) (ho : off < 0x1000) (ha : off % 4 = 0)
    (hn : off ∉ [0x2C, 0x30, 0x34]) (h : s.nextMove = .input (.read (s.params.base + off) .word) left) :
    step s = .next ((s.dequeue left).respond .okay (s.readControl off)) := by
  have hl : (s.isBusy && s.isResult off) = false := by simp [State.isResult_eq_false s (.inl ho) hn]
  rw [step_read_exact hr (by omega) (accessOk_word (by omega) ha) hl h, readOffset_of_control s _ ho]

/-- A read of any control register while idle. -/
theorem step_read_control_idle (hr : s.rst = false) (hi : s.phase = .idle) (ho : off < 0x1000) (ha : off % 4 = 0)
    (h : s.inputs = .read (s.params.base + off) .word :: left) :
    step s = .next ((s.dequeue left).respond .okay (s.readControl off)) := by
  rw [step_read_exact hr (by omega) (accessOk_word (by omega) ha) (isBusy_and_of_idle hi _) (nextMove_of_idle hi h),
    readOffset_of_control s _ ho]

/-- A write to a control register that is not locked, at every time. -/
theorem step_write_control (hr : s.rst = false) (ho : off < 0x1000) (ha : off % 4 = 0)
    (hn : off ∉ [0x18, 0x1C, 0x20, 0x24, 0x28, 0x34])
    (h : s.nextMove = .input (.write (s.params.base + off) .word v) left) :
    step s = .next (((s.dequeue left).writeControl off v).respond .okay 0) := by
  have hl : (s.isBusy && s.isLocked off) = false := by simp [State.isLocked_eq_false s (.inl ho) hn]
  rw [step_write_unlocked hr (by omega) (accessOk_word (by omega) ha) hl h, writeOffset_of_control _ _ v ho]

/-- A write to any control register while idle. -/
theorem step_write_control_idle (hr : s.rst = false) (hi : s.phase = .idle) (ho : off < 0x1000) (ha : off % 4 = 0)
    (h : s.inputs = .write (s.params.base + off) .word v :: left) :
    step s = .next (((s.dequeue left).writeControl off v).respond .okay 0) := by
  rw [step_write_unlocked hr (by omega) (accessOk_word (by omega) ha) (isBusy_and_of_idle hi _) (nextMove_of_idle hi h),
    writeOffset_of_control _ _ v ho]

/-- The fields of a word laid out as STATUS (10_state.md R29), from bit 0 up. -/
theorem statusLayout_fields (code : Byte) (ovr err done busy : Bool) :
    let w := 0#16 ++ code ++ 0#4 ++ BitVec.ofBool ovr ++ BitVec.ofBool err ++ BitVec.ofBool done ++ BitVec.ofBool busy
    w.getLsbD 0 = busy ∧ w.getLsbD 1 = done ∧ w.getLsbD 2 = err ∧ w.getLsbD 3 = ovr ∧
      w.extractLsb' 8 8 = code ∧ w.extractLsb' 4 4 = 0 ∧ w.extractLsb' 16 16 = 0 := by
  intro w
  refine ⟨?_, ?_, ?_, ?_, ?_, ?_, ?_⟩
  · simp only [w, BitVec.getLsbD_append]
    simp
  · simp only [w, BitVec.getLsbD_append]
    simp
  · simp only [w, BitVec.getLsbD_append]
    simp
  · simp only [w, BitVec.getLsbD_append]
    simp
  · ext i hi
    simp only [w, BitVec.getElem_extractLsb', BitVec.getLsbD_append]
    simp [hi]
  · ext i hi
    simp only [w, BitVec.getElem_extractLsb', BitVec.getLsbD_append]
    simp [show ¬ 4 ≤ i by omega]
  · ext i hi
    simp only [w, BitVec.getElem_extractLsb', BitVec.getLsbD_append]
    simp [show ¬ 12 + i - 4 < 8 by omega]

theorem writeCtrl_of_not_srst (s : State) {v : Word} (h : v.getLsbD 2 = false) : s.writeCtrl v =
    { s with ie := v.getLsbD 0, abortReq := s.abortReq || (s.isBusy && v.getLsbD 1) } := by
  rw [State.writeCtrl, h, if_neg Bool.false_ne_true]

theorem ctrlWord_eq (s : State) : s.ctrlWord = if s.ie then 1 else 0 := by
  unfold State.ctrlWord
  cases s.ie <;> rfl

/-- The reserved offsets of the control block are no register's (10_state.md R38). -/
theorem readControl_of_reserved (s : State) (h : off = 0x0C ∨ (0x38 ≤ off ∧ off < 0x1000)) :
    s.readControl off = 0 := by
  unfold State.readControl
  split
  case h_14 => rfl
  all_goals omega

theorem writeControl_of_readOnly (s : State) (v : Word)
    (h : off ∈ [0x0C, 0x2C, 0x30] ∨ (0x38 ≤ off ∧ off < 0x1000)) : s.writeControl off v = s := by
  simp only [List.mem_cons, List.not_mem_nil, or_false] at h
  unfold State.writeControl
  split
  case h_9 => rfl
  all_goals omega

/-- A write to a read-only or reserved offset has no effect (10_state.md R35, R36, R38; 20_memory.md R63). -/
theorem writeOffset_of_readOnly (s : State) (z : AccessSize) (v : Word)
    (h : off ∈ [0x0C, 0x2C, 0x30] ∨ (0x38 ≤ off ∧ off < 0x1000) ∨ (0x5000 ≤ off ∧ off < 0x8000)) :
    s.writeOffset off z v = s := by
  simp only [List.mem_cons, List.not_mem_nil, or_false] at h
  by_cases ho : off < 0x1000
  · rw [writeOffset_of_control s z v ho]
    exact writeControl_of_readOnly s v (by simp only [List.mem_cons, List.not_mem_nil, or_false]; omega)
  · rw [State.writeOffset, if_neg ho, if_neg (by omega), if_pos (by omega)]

theorem readOffset_of_reserved (s : State) (z : AccessSize)
    (h : off = 0x0C ∨ (0x38 ≤ off ∧ off < 0x1000) ∨ (0x5000 ≤ off ∧ off < 0x8000)) :
    s.readOffset off z = 0 := by
  by_cases ho : off < 0x1000
  · rw [readOffset_of_control s z ho]
    exact readControl_of_reserved s (by omega)
  · rw [State.readOffset, if_neg ho, if_neg (by omega), if_pos (by omega)]

theorem isValid_writeRegValid (s : State) (v : Word) (r : Reg) :
    (s.writeRegValid v).isValid r = (s.isValid r && !v.getLsbD r.val) := by
  have hr : r.val < 32 := by omega
  simp [State.isValid, hr]

/-! ### Acceptance -/

/-- No write but one to CMD and a soft reset changes CMD. -/
theorem WriteEffect.cmd_cases {u : State} (h : WriteEffect s off z v u) :
    u.cmd = s.cmd ∨ (off = 0x18 ∧ u = s.accept v) ∨ u = s.resetAll := by
  cases h with
  | ctrl =>
    unfold State.writeCtrl
    split
    · exact .inr (.inr rfl)
    · exact .inl rfl
  | cmd h => exact .inr (.inl ⟨h, rfl⟩)
  | _ => exact .inl rfl

/-- An aligned access below the buffers is a word. -/
theorem eq_word_of_accessOk (h : off < 0x8000) (hok : accessOk off z = true) : z = .word := by
  simp only [accessOk, h, if_true, decide_eq_true_iff] at hok
  exact hok.1

/-- No input but a CMD write while idle and a reset changes CMD. -/
theorem InputEffect.cmd_cases {i : Input} (h : InputEffect s i t) :
    t.cmd = s.cmd ∨
    (∃ v, s.phase = .idle ∧ i = .write (s.params.base + 0x18) .word v ∧ t.cmd = v) ∨
    t.architectural = { (State.initial s.params).architectural with rst := t.rst, epoch := s.epoch + 1 } := by
  cases h with
  | written off z v u hr ho hok hl hu =>
    rcases hu.cmd_cases with hc | ⟨rfl, rfl⟩ | rfl
    · exact .inl hc
    · obtain rfl := eq_word_of_accessOk (by decide) hok
      have hi : s.isBusy = false := by simpa [State.isLocked] using hl
      exact .inr (.inl ⟨v, (State.isBusy_eq_false_iff s).1 hi, rfl, rfl⟩)
    · exact .inr (.inr rfl)
  | rst level =>
    cases level with
    | true => exact .inr (.inr rfl)
    | false => exact .inl rfl
  | _ => exact .inl rfl

end ControlBlock

/-- Settles O6: the step adds nothing to the engine's turn, and an idle engine without an input has none. -/
theorem stepRunsTheDecodedCommand : Obligations.StepRunsTheDecodedCommand := by
  refine ⟨fun s hp hin => ?_, fun s i h hd => step_of_engine h hd, fun s w i hd => ?_⟩
  · have hq : s.nextMove = .quiet := by simp [State.nextMove, hp, hin]
    simp [step, hq]
  · exact step_of_engine (nextMove_placeCommand s _) hd

/-- Settles O18: reads of the three offsets are exact at every time, and no write to them has an effect. -/
theorem identificationIsConstant : Obligations.IdentificationIsConstant := by
  constructor
  · intro s off left hr hoff h
    fin_cases hoff
    · exact ⟨_, step_read_control hr (by decide) rfl (by decide) h, fun _ => rfl, nofun, nofun⟩
    · exact ⟨_, step_read_control hr (by decide) rfl (by decide) h, nofun, fun _ => rfl, nofun⟩
    · exact ⟨_, step_read_control hr (by decide) rfl (by decide) h, nofun, nofun, fun _ => rfl⟩
  · intro s off v left hr hoff h
    fin_cases hoff
    · exact ⟨_, step_write_control hr (by decide) rfl (by decide) h, rfl⟩
    · exact ⟨_, step_write_control hr (by decide) rfl (by decide) h, rfl⟩
    · exact ⟨_, step_write_control hr (by decide) rfl (by decide) h, rfl⟩

/-- Settles O21: the four registers take a write while idle, and their reads are exact at every time. -/
theorem parameterRegistersStoreTheirValue : Obligations.ParameterRegistersStoreTheirValue := by
  constructor
  · intro s off v left hr hi h hoff
    fin_cases hoff
    · exact ⟨_, step_write_control_idle hr hi (by decide) rfl h, fun _ => rfl, nofun, nofun, nofun⟩
    · exact ⟨_, step_write_control_idle hr hi (by decide) rfl h, nofun, fun _ => rfl, nofun, nofun⟩
    · exact ⟨_, step_write_control_idle hr hi (by decide) rfl h, nofun, nofun, fun _ => rfl, nofun⟩
    · exact ⟨_, step_write_control_idle hr hi (by decide) rfl h, nofun, nofun, nofun, fun _ => rfl⟩
  · intro s off left hr h hoff
    fin_cases hoff
    · exact ⟨_, step_read_control hr (by decide) rfl (by decide) h, fun _ => rfl, nofun, nofun, nofun⟩
    · exact ⟨_, step_read_control hr (by decide) rfl (by decide) h, nofun, fun _ => rfl, nofun, nofun⟩
    · exact ⟨_, step_read_control hr (by decide) rfl (by decide) h, nofun, nofun, fun _ => rfl, nofun⟩
    · exact ⟨_, step_read_control hr (by decide) rfl (by decide) h, nofun, nofun, nofun, fun _ => rfl⟩

/-- Settles O19: the layout of STATUS, its write, and the ten codes. -/
theorem statusReadsAndClears : Obligations.StatusReadsAndClears := by
  refine ⟨fun s left hr h => ?_, fun s v left hr h => ?_, fun s => ?_⟩
  · exact ⟨_, _, step_read_control hr (by decide) rfl (by decide) h, rfl,
      statusLayout_fields s.errByte s.ovr s.err s.done s.isBusy⟩
  · exact ⟨_, step_write_control hr (by decide) rfl (by decide) h, rfl⟩
  · unfold State.errByte
    refine ⟨?_, ?_, ?_, ?_, ?_, ?_, ?_, ?_, ?_, ?_, ?_⟩ <;> exact fun h => h ▸ rfl

/-- Settles O20: neither the read nor the write of CTRL is locked. -/
theorem ctrlWriteSetsIeAndAbort : Obligations.CtrlWriteSetsIeAndAbort := by
  refine ⟨fun s v left hr hv h => ?_, fun s left hr h => ?_⟩
  · refine ⟨_, step_write_control hr (by decide) rfl (by decide) h, ?_⟩
    have hw : (s.dequeue left).writeControl 0x10 v = (s.dequeue left).writeCtrl v := rfl
    rw [hw, writeCtrl_of_not_srst _ hv]
    rfl
  · refine ⟨_, step_read_control hr (by decide) rfl (by decide) h, ?_⟩
    rw [← ctrlWord_eq]
    rfl

/-- Settles O22: these offsets are never locked, a write to them is ignored, and a reserved one reads 0. -/
theorem readOnlyAndReservedIgnoreWrites : Obligations.ReadOnlyAndReservedIgnoreWrites := by
  refine ⟨fun s off v left hr ha hoff h => ?_, fun s off left hr ha hoff h => ?_, fun s left hr hi => ⟨?_, ?_⟩⟩
  · have hlt : off < 0x8000 := by simp only [List.mem_cons, List.not_mem_nil, or_false] at hoff; omega
    have hl : s.isLocked off = false := by
      simp only [List.mem_cons, List.not_mem_nil, or_false] at hoff
      refine State.isLocked_eq_false s (by omega) ?_
      simp only [List.mem_cons, List.not_mem_nil, or_false]
      omega
    refine ⟨_, step_write_unlocked hr (by omega) (accessOk_word hlt ha) (by simp [hl]) h, ?_⟩
    rw [writeOffset_of_readOnly _ _ _ hoff]
    rfl
  · have hl : s.isResult off = false := by
      refine State.isResult_eq_false s (by omega) ?_
      simp only [List.mem_cons, List.not_mem_nil, or_false]
      omega
    refine ⟨_, step_read_exact hr (by omega) (accessOk_word (by omega) ha) (by simp [hl]) h, ?_⟩
    rw [readOffset_of_reserved s _ hoff]
    rfl
  · exact fun h => ⟨_, step_read_control_idle hr hi (by decide) rfl h, rfl⟩
  · exact fun h => ⟨_, step_read_control_idle hr hi (by decide) rfl h, rfl⟩

/-- Settles O23: REGVALID takes a write while idle, loses it while busy, and reads VALID. -/
theorem regValidWriteClearsBits : Obligations.RegValidWriteClearsBits := by
  refine ⟨fun s v left hr hi h => ?_, fun s v left hr hb hw h => ?_, fun s left hr hi h => ?_⟩
  · exact ⟨_, step_write_control_idle hr hi (by decide) rfl h,
      fun r => ⟨isValid_writeRegValid (s.dequeue left) v r, rfl⟩, rfl⟩
  · exact step_write_locked hr (by decide) rfl hb (by simp [State.isLocked]) (nextMove_of_busy hb hw h nofun)
  · refine ⟨_, _, step_read_control_idle hr hi (by decide) rfl h, rfl, fun r => ?_, ?_⟩
    · show (s.valid.setWidth 32).getLsbD r.val = s.isValid r
      have hlt : r.val < 32 := by omega
      simp [State.isValid, hlt]
    · show (s.valid.setWidth 32).extractLsb' 16 16 = 0
      ext i hi
      simp

/-- Settles O7: what CMD takes and answers, and by the four kinds of step what alone changes it. -/
theorem cmdWriteStartsACommand : Obligations.CmdWriteStartsACommand := by
  refine ⟨fun s v left hi hr h => ?_, fun s v left hb hr hw h => ?_, fun s left hr h => ?_, fun _ => rfl,
    fun s t h => ?_⟩
  · exact ⟨_, step_write_control_idle hr hi (by decide) rfl h, rfl, rfl⟩
  · exact step_write_locked hr (by decide) rfl hb (by simp [State.isLocked]) (nextMove_of_busy hb hw h nofun)
  · exact ⟨_, step_read_control hr (by decide) rfl (by decide) h, rfl⟩
  · rcases step_cases s h with ⟨_, i, _, he⟩ | ⟨_, _, rfl⟩ | ⟨i, left, hm, hserve⟩ | ⟨_, rfl⟩
    · obtain ⟨_, _, _, hcmd, _⟩ := noCommandWritesItsInputs i s t he
      exact .inl hcmd
    · exact .inl rfl
    · rcases (serve_effect hserve).cmd_cases with hc | ⟨v, hi, rfl, hc⟩ | hreset
      · exact .inl hc
      · exact .inr (.inl ⟨v, left, hi, hm, hc⟩)
      · exact .inr (.inr hreset)
    · exact .inl rfl


end Sys2Proof.Machine

namespace Sys2Proof.Machine

/-! ### Unwritten operands -/

section Unwritten

variable {s : State}

/-- A source operand is refused when it is unwritten, or when all that follows it is refused. -/
theorem State.withSource_refuses {r : Reg} {k : Nat → State}
    (h : s.isValid r = false ∨ k (s.reg r) = s.complete (some .unwritten)) :
    s.withSource r k = s.complete (some .unwritten) := by
  rcases h with h | h
  · exact State.withSource_of_not h k
  · rcases State.withSource_cases s r k with e | e
    · exact e
    · exact e.trans h

theorem State.withSources_refuses {r1 r2 : Reg} {k : Nat → Nat → State}
    (h : s.isValid r1 = false ∨ s.isValid r2 = false ∨ k (s.reg r1) (s.reg r2) = s.complete (some .unwritten)) :
    s.withSources r1 r2 k = s.complete (some .unwritten) :=
  State.withSource_refuses (h.imp_right State.withSource_refuses)

theorem State.withSource_unwritten {ra : Reg} {k : Nat → State} (h : ∃ r ∈ [ra], s.isValid r = false) :
    s.withSource ra k = s.complete (some .unwritten) :=
  State.withSource_refuses (.inl (by simpa using h))

theorem State.withSources_unwritten {ra rb : Reg} {k : Nat → Nat → State}
    (h : ∃ r ∈ [ra, rb], s.isValid r = false) : s.withSources ra rb k = s.complete (some .unwritten) := by
  have h' : s.isValid ra = false ∨ s.isValid rb = false := by simpa using h
  exact State.withSources_refuses (h'.imp_right .inl)

theorem State.withThreeSources_unwritten {ra rb rc : Reg} {k : Nat → Nat → Nat → State}
    (h : ∃ r ∈ [ra, rb, rc], s.isValid r = false) :
    (s.withSources ra rb fun a b => s.withSource rc (k a b)) = s.complete (some .unwritten) := by
  have h' : s.isValid ra = false ∨ s.isValid rb = false ∨ s.isValid rc = false := by simpa using h
  exact State.withSources_refuses (h'.imp_right (Or.imp_right fun hc => State.withSource_refuses (.inl hc)))

/-- The VALID checks come before every other check of a command (60_exceptions.md R213). -/
theorem exec_of_unwritten {i : Instr} (h : ∃ r ∈ sourcesOf i, s.isValid r = false) :
    exec i s = .next (s.complete (some .unwritten)) := by
  cases i with
  | nop | ldi | randb | randc | ldb => simp [sourcesOf] at h
  | mov | addi | subi | bitlen | trialdiv | primetest | stb => exact congrArg _ (State.withSource_unwritten h)
  | add | sub | cmp | mul | mod | gcd | modinv | mrround | benc | bdec =>
    exact congrArg _ (State.withSources_unwritten h)
  | modmul | modpow => exact congrArg _ (State.withThreeSources_unwritten h)

end Unwritten

/-! ### OUT_BUF reaches nothing but OUT_BUF -/

section OutBuf

/-- The same state with another OUT_BUF. -/
def State.withOutBuf (s : State) (m : Memory) : State := { s with outBuf := m }

/-- What f does to everything but OUT_BUF does not depend on what OUT_BUF holds. -/
def BlindToOutBuf (f : State → State) : Prop := ∀ s m, ∃ m', f (s.withOutBuf m) = (f s).withOutBuf m'

namespace BlindToOutBuf

theorem raise (c : ErrorCode) : BlindToOutBuf fun s => s.raise c := fun _ m => ⟨m, rfl⟩

theorem ite {p : State → Prop} [∀ s, Decidable (p s)] {f g : State → State}
    (hp : ∀ s m, p (s.withOutBuf m) ↔ p s) (hf : BlindToOutBuf f) (hg : BlindToOutBuf g) :
    BlindToOutBuf fun s => if p s then f s else g s := by
  intro s m
  by_cases h : p s
  · simpa only [hp, h, if_true] using hf s m
  · simpa only [hp, h, if_false] using hg s m

theorem passAbort_withOutBuf (s : State) (m : Memory) : (s.withOutBuf m).passAbort = s.passAbort.withOutBuf m := by
  have h : (s.withOutBuf m).abortReq = s.abortReq := rfl
  unfold State.passAbort
  rw [h]
  split
  · rfl
  · rfl

theorem commit {w : State → State} (hw : BlindToOutBuf w) : BlindToOutBuf fun s => s.commit w := by
  refine .ite (fun _ _ => Iff.rfl) (fun s m => ⟨m, ?_⟩) (fun s m => ?_)
  · rw [passAbort_withOutBuf]
    rfl
  · obtain ⟨m', h⟩ := hw s.passAbort m
    exact ⟨m', by rw [passAbort_withOutBuf, h]; rfl⟩

theorem writeBack (rd : Reg) (v : Nat) : BlindToOutBuf fun s => s.writeBack rd v := commit fun _ m => ⟨m, rfl⟩

theorem writeBounded (rd : Reg) (v : Nat) : BlindToOutBuf fun s => s.writeBounded rd v :=
  .ite (fun _ _ => Iff.rfl) (raise _) (writeBack rd v)

theorem writeDifference (rd : Reg) (a b : Nat) : BlindToOutBuf fun s => s.writeDifference rd a b :=
  .ite (fun _ _ => Iff.rfl) (raise _) (writeBack rd _)

/-- A source operand's value does not come from OUT_BUF, so what follows may be taken at each value. -/
theorem withSource {r : Reg} {k : State → Nat → State} (h : ∀ v, BlindToOutBuf fun s => k s v) :
    BlindToOutBuf fun s => s.withSource r (k s) :=
  .ite (fun _ _ => Iff.rfl) (fun s m => h (s.reg r) s m) (raise _)

theorem withSources {r1 r2 : Reg} {k : State → Nat → Nat → State} (h : ∀ a b, BlindToOutBuf fun s => k s a b) :
    BlindToOutBuf fun s => s.withSources r1 r2 (k s) :=
  withSource fun a => withSource fun b => h a b

theorem withModulus {n : Nat} {k : State → State} (h : BlindToOutBuf k) :
    BlindToOutBuf fun s => s.withModulus n (k s) :=
  .ite (fun _ _ => Iff.rfl) (raise _) h

theorem rounds_withOutBuf (n k : Nat) : ∀ (s : State) (m : Memory),
    rounds n k (s.withOutBuf m) = ((rounds n k s).1, (rounds n k s).2.withOutBuf m) := by
  induction k with
  | zero => exact fun _ _ => rfl
  | succ k ih =>
    intro s m
    have ha : (s.withOutBuf m).abortHere = s.abortHere := rfl
    have hd : ∀ t : State, (t.withOutBuf m).drawn 2 (n - 2) = t.drawn 2 (n - 2) := fun _ => rfl
    have ht : ∀ t : State, (t.withOutBuf m).tick = t.tick.withOutBuf m := fun _ => rfl
    unfold rounds
    rw [ha, passAbort_withOutBuf, hd, ht]
    split
    · rfl
    · split
      · rfl
      · exact ih _ m

theorem blockLoop_withOutBuf (j : BlockJob) (fuel : Nat) : ∀ (s : State) (m : Memory),
    ∃ m', blockLoop j fuel (s.withOutBuf m) = ((blockLoop j fuel s).1, (blockLoop j fuel s).2.withOutBuf m') := by
  induction fuel with
  | zero => exact fun _ m => ⟨m, rfl⟩
  | succ fuel ih =>
    intro s m
    have ha : (s.withOutBuf m).abortHere = s.abortHere := rfl
    have hv : ∀ (t : State) i k, j.value (t.withOutBuf m) i k = j.value t i k := fun _ _ _ => rfl
    have hp : ∀ t : State, (t.withOutBuf m).progress = t.progress := fun _ => rfl
    have hl : ∀ t : State, (t.withOutBuf m).inLen = t.inLen := fun _ => rfl
    have hb : ∀ t : State, (t.withOutBuf m).bufsz = t.bufsz := fun _ => rfl
    unfold blockLoop
    simp only [ha, passAbort_withOutBuf, hv, hp, hl, hb]
    split
    · split
      · exact ⟨m, rfl⟩
      · split
        · exact ⟨m, rfl⟩
        · split
          · exact ⟨m, rfl⟩
          · exact ih (s.passAbort.putBlock _ _ _) _
    · exact ⟨m, rfl⟩

theorem runBlocks (ra rc : Reg) (job : Nat → Nat → BlockJob) : BlindToOutBuf fun s => s.runBlocks ra rc job := by
  refine withSources fun e n => .ite (fun _ _ => Iff.rfl) (raise _) (.ite (fun _ _ => Iff.rfl) (raise _) ?_)
  intro s m
  obtain ⟨m', h⟩ := blockLoop_withOutBuf (job e n) s.inLen.toNat ((s.setOutLen 0).setProgress 0 0) m
  replace h : blockLoop (job e n) (s.withOutBuf m).inLen.toNat (((s.withOutBuf m).setOutLen 0).setProgress 0 0) = _ := h
  beta_reduce
  rw [h]
  generalize blockLoop (job e n) s.inLen.toNat ((s.setOutLen 0).setProgress 0 0) = r
  obtain ⟨e, t⟩ := r
  cases e with
  | none => exact commit (w := id) (fun _ m => ⟨m, rfl⟩) t m'
  | some c => exact raise c t m'

end BlindToOutBuf

open BlindToOutBuf in
/-- Whatever the command: it is a function of the state that is blind to OUT_BUF. -/
theorem exec_blindToOutBuf (i : Instr) : ∃ f, (∀ s, exec i s = .next (f s)) ∧ BlindToOutBuf f := by
  cases i with
  | nop => exact ⟨_, fun _ => rfl, commit fun _ m => ⟨m, rfl⟩⟩
  | ldi rd imm => exact ⟨_, fun _ => rfl, writeBack rd imm⟩
  | mov rd ra => exact ⟨_, fun _ => rfl, withSource fun _ => writeBack rd _⟩
  | add rd ra rb => exact ⟨_, fun _ => rfl, withSources fun _ _ => writeBounded rd _⟩
  | addi rd ra imm => exact ⟨_, fun _ => rfl, withSource fun _ => writeBounded rd _⟩
  | sub rd ra rb => exact ⟨_, fun _ => rfl, withSources fun _ _ => writeDifference rd _ _⟩
  | subi rd ra imm => exact ⟨_, fun _ => rfl, withSource fun _ => writeDifference rd _ _⟩
  | cmp rd ra rb => exact ⟨_, fun _ => rfl, withSources fun _ _ => writeBack rd _⟩
  | bitlen rd ra => exact ⟨_, fun _ => rfl, withSource fun _ => writeBack rd _⟩
  | mul rd ra rb => exact ⟨_, fun _ => rfl, withSources fun _ _ => writeBounded rd _⟩
  | mod rd ra rc => exact ⟨_, fun _ => rfl, withSources fun _ _ => withModulus (writeBack rd _)⟩
  | modmul rd ra rb rc =>
    exact ⟨_, fun _ => rfl, withSources fun _ _ => withSource fun _ => withModulus (writeBack rd _)⟩
  | gcd rd ra rb => exact ⟨_, fun _ => rfl, withSources fun _ _ => writeBack rd _⟩
  | modinv rd ra rc =>
    exact ⟨_, fun _ => rfl, withSources fun _ _ => withModulus
      (.ite (fun _ _ => Iff.rfl) (raise _) (writeBack rd _))⟩
  | modpow rd ra rb rc =>
    exact ⟨_, fun _ => rfl, withSources fun _ _ => withSource fun _ => withModulus (writeBack rd _)⟩
  | randb rd n =>
    exact ⟨_, fun _ => rfl, .ite (fun _ _ => Iff.rfl) (raise _) fun s m => writeBack rd _ s.tick m⟩
  | randc rd n =>
    exact ⟨_, fun _ => rfl, .ite (fun _ _ => Iff.rfl) (raise _) fun s m => writeBack rd _ s.tick m⟩
  | trialdiv rd ra =>
    refine ⟨_, fun _ => rfl, withSource fun n => ?_⟩
    cases smallestSmallDivisor n with
    | none => exact writeBack rd 2
    | some p => exact writeBack rd _
  | mrround rd ra rb =>
    exact ⟨_, fun _ => rfl, withSources fun _ _ => .ite (fun _ _ => Iff.rfl) (raise _)
      (.ite (fun _ _ => Iff.rfl) (raise _) (writeBack rd _))⟩
  | primetest rd ra =>
    refine ⟨_, fun _ => rfl, withSource fun n => ?_⟩
    cases smallestSmallDivisor n with
    | some p => exact writeBack rd _
    | none =>
      refine .ite (fun _ _ => Iff.rfl) (writeBack rd 1) (.ite (fun _ _ => Iff.rfl) (writeBack rd 0) fun s m => ?_)
      have h : rounds n (s.withOutBuf m).mrk.toNat (s.withOutBuf m) = _ := rounds_withOutBuf n s.mrk.toNat s m
      rw [h]
      generalize rounds n s.mrk.toNat s = r
      obtain ⟨verdict, t⟩ := r
      cases verdict with
      | aborted => exact raise .aborted t m
      | composite => exact writeBack rd 0 t m
      | probablyPrime => exact writeBack rd 1 t m
  | ldb rd =>
    exact ⟨_, fun _ => rfl, .ite (fun _ _ => Iff.rfl) (raise _)
      (.ite (fun _ _ => Iff.rfl) (raise _) fun s m => writeBack rd _ s m)⟩
  | stb ra mode =>
    refine ⟨_, fun _ => rfl, withSource fun v => .ite (fun _ _ => Iff.rfl) (raise _) fun s m => ?_⟩
    have h : (s.withOutBuf m).arg1 = s.arg1 := rfl
    rw [h]
    cases encodeBlock v s.arg1.toNat mode with
    | none => exact raise _ s m
    | some bs => exact commit (fun _ _ => ⟨_, rfl⟩) s m
  | benc ra rc mode => exact ⟨_, fun _ => rfl, runBlocks ra rc _⟩
  | bdec ra rc mode => exact ⟨_, fun _ => rfl, runBlocks ra rc _⟩

end OutBuf

/-- Settles O34: the command is the completion with UNWRITTEN, which writes STATUS alone. -/
theorem unwrittenOperandsAreRefused : Obligations.UnwrittenOperandsAreRefused :=
  fun _ s h => ⟨_, exec_of_unwritten h, State.endedWith_complete s .unwritten⟩

/-- Settles O35: both runs are the same function, at states that differ in OUT_BUF alone. -/
theorem noCommandReadsOutBuf : Obligations.NoCommandReadsOutBuf := by
  intro i s m
  obtain ⟨f, hf, hblind⟩ := exec_blindToOutBuf i
  obtain ⟨m', h⟩ := hblind s m
  refine ⟨f s, f (s.withOutBuf m), hf s, hf (s.withOutBuf m), ?_⟩
  rw [h]
  rfl


end Sys2Proof.Machine

/-! Proofs of the statements about host accesses to memory (20_memory.md): reads without a side effect, the words of
the register windows, and the bytes of the buffer windows. -/

namespace Sys2Proof.Machine

section Memory

variable {s : State} {off : Nat} {z : AccessSize} {v : Word} {left : List Input}

/-! ### Accesses while idle as steps -/

/-- While idle no read is a draw. -/
theorem step_read_idle (hr : s.rst = false) (hi : s.phase = .idle) (ho : off < 0x10000)
    (hok : accessOk off z = true) (h : s.inputs = .read (s.params.base + off) z :: left) :
    step s = .next ((s.dequeue left).respond .okay (s.readOffset off z)) :=
  step_read_exact hr ho hok (isBusy_and_of_idle hi _) (nextMove_of_idle hi h)

/-- While idle no write is locked. -/
theorem step_write_idle (hr : s.rst = false) (hi : s.phase = .idle) (ho : off < 0x10000)
    (hok : accessOk off z = true) (h : s.inputs = .write (s.params.base + off) z v :: left) :
    step s = .next (((s.dequeue left).writeOffset off z v).respond .okay 0) :=
  step_write_unlocked hr ho hok (isBusy_and_of_idle hi _) (nextMove_of_idle hi h)

/-! ### Words of an integer (20_memory.md R64, R65) -/

theorem wordAt_getLsbD (n j : Nat) {b : Nat} (hb : b < 32) :
    (wordAt n j).getLsbD b = n.testBit (32 * j + b) := by
  rw [wordAt, BitVec.getLsbD_ofNat, Nat.testBit_div_two_pow, Nat.add_comm]
  simp [hb]

/-- The three parts of an integer with one word set, each above a power of two. -/
theorem setWordAt_eq (n j : Nat) (v : Word) :
    setWordAt n j v = 2 ^ (32 * j) * (2 ^ 32 * (n / 2 ^ (32 * j + 32)) + v.toNat) + n % 2 ^ (32 * j) := by
  unfold setWordAt
  rw [pow_add 2 (32 * j) 32]
  ring

theorem setWordAt_testBit (n j : Nat) (v : Word) (b : Nat) :
    (setWordAt n j v).testBit b =
      if 32 * j ≤ b ∧ b < 32 * j + 32 then v.getLsbD (b - 32 * j) else n.testBit b := by
  rw [setWordAt_eq, Nat.testBit_two_pow_mul_add _ (Nat.mod_lt _ (Nat.two_pow_pos _)),
    Nat.testBit_two_pow_mul_add _ v.isLt]
  by_cases hlow : b < 32 * j
  · rw [if_pos hlow, if_neg (by omega), Nat.testBit_mod_two_pow]
    simp [hlow]
  · rw [if_neg hlow]
    by_cases hword : b - 32 * j < 32
    · rw [if_pos hword, if_pos (by omega), BitVec.testBit_toNat]
    · rw [if_neg hword, if_neg (by omega), Nat.testBit_div_two_pow]
      congr 1
      omega

/-! ### Register windows (20_memory.md R64, R65) -/

/-- Word j of the window of Nr is at this offset, and its register and word index are r and j. -/
theorem windowOffset_fields (r : Reg) {j : Nat} (hj : j < 256) :
    windowReg (0x1000 + 0x400 * r.val + 4 * j) = r ∧ windowWord (0x1000 + 0x400 * r.val + 4 * j) = j := by
  constructor
  · refine Fin.ext ?_
    show (0x1000 + 0x400 * r.val + 4 * j - 0x1000) / 0x400 % 16 = r.val
    omega
  · unfold windowWord
    omega

/-- Every word of a register window is a word-aligned offset below the buffers. -/
theorem windowOffset_accessOk (r : Reg) {j : Nat} (hj : j < 256) :
    accessOk (0x1000 + 0x400 * r.val + 4 * j) .word = true :=
  accessOk_word (by omega) (by omega)

theorem readOffset_window (s : State) (r : Reg) {j : Nat} (hj : j < 256) :
    s.readOffset (0x1000 + 0x400 * r.val + 4 * j) .word =
      if j < s.width / 32 then wordAt (s.reg r) j else 0 := by
  obtain ⟨hreg, hword⟩ := windowOffset_fields r hj
  rw [State.readOffset, if_neg (by omega), if_pos (by omega), State.readWindow, hreg, hword]

theorem writeOffset_window_of_lt (s : State) (r : Reg) {j : Nat} (hj : j < 256) (hw : j < s.width / 32) (v : Word) :
    s.writeOffset (0x1000 + 0x400 * r.val + 4 * j) .word v = s.setReg r (setWordAt (s.reg r) j v) := by
  obtain ⟨hreg, hword⟩ := windowOffset_fields r hj
  rw [State.writeOffset, if_neg (by omega), if_pos (by omega), State.writeWindow, hreg, hword, if_pos hw]

/-- A host write to a word below W/32 changes nothing but that word of the register and its VALID bit. -/
theorem writeOffset_window_spec (s : State) (r : Reg) {j : Nat} (hj : j < 256) (hw : j < s.width / 32) (v : Word) :
    let t := s.writeOffset (0x1000 + 0x400 * r.val + 4 * j) .word v
    (∀ b, (t.reg r).testBit b =
      if 32 * j ≤ b ∧ b < 32 * j + 32 then v.getLsbD (b - 32 * j) else (s.reg r).testBit b) ∧
    t.isValid r = true ∧ SameRegsBut r s t ∧
    { t.architectural with regs := s.regs, valid := s.valid } = s.architectural := by
  intro t
  have ht : t = s.setReg r (setWordAt (s.reg r) j v) := writeOffset_window_of_lt s r hj hw v
  rw [ht]
  refine ⟨fun b => ?_, State.isValid_setReg_self s r _, fun q hq => ⟨?_, ?_⟩, rfl⟩
  · rw [State.reg_setReg_self, setWordAt_testBit]
  · exact State.reg_setReg_of_ne s hq _
  · exact State.isValid_setReg_of_ne s hq _

/-- The words from W/32 on ignore writes. -/
theorem writeOffset_window_of_ge (s : State) (r : Reg) {j : Nat} (hj : j < 256) (hw : s.width / 32 ≤ j) (v : Word) :
    s.writeOffset (0x1000 + 0x400 * r.val + 4 * j) .word v = s := by
  obtain ⟨_, hword⟩ := windowOffset_fields r hj
  rw [State.writeOffset, if_neg (by omega), if_pos (by omega), State.writeWindow, hword, if_neg (Nat.not_lt.2 hw)]

/-- Every register window word is locked while busy (20_memory.md R68). -/
theorem State.isLocked_window (s : State) (r : Reg) {j : Nat} (hj : j < 256) :
    s.isLocked (0x1000 + 0x400 * r.val + 4 * j) = true := by
  have hdata : s.isData (0x1000 + 0x400 * r.val + 4 * j) = true := decide_eq_true (.inl (by omega))
  simp [State.isLocked, hdata]

/-! ### Bytes of a bus value (20_memory.md R61) -/

/-- Byte k of the integer of a byte string, lowest first, is its k-th byte, and 0 beyond its end. -/
theorem byte_of_foldr (bs : List Byte) : ∀ k,
    BitVec.ofNat 8 (bs.foldr (fun b acc => b.toNat + 256 * acc) 0 / 2 ^ (8 * k)) = bs.getD k 0 := by
  induction bs with
  | nil => simp
  | cons b bs ih =>
    intro k
    have hb := b.isLt
    cases k with
    | zero =>
      refine BitVec.eq_of_toNat_eq ?_
      simp only [List.foldr_cons, List.getD_cons_zero, BitVec.toNat_ofNat]
      omega
    | succ k =>
      rw [List.getD_cons_succ, ← ih k, List.foldr_cons, Nat.mul_succ, Nat.add_comm (8 * k), pow_add,
        ← Nat.div_div_eq_div_mul]
      congr 2
      omega

theorem bytesValue_extractLsb' (bs : List Byte) {k : Nat} (hk : k < 4) :
    (bytesValue bs).extractLsb' (8 * k) 8 = bs.getD k 0 := by
  rw [← byte_of_foldr bs k, bytesValue]
  refine BitVec.eq_of_getLsbD_eq fun b hb => ?_
  have hlt : 8 * k + b < 32 := by omega
  rw [BitVec.getLsbD_extractLsb', BitVec.getLsbD_ofNat, BitVec.getLsbD_ofNat, Nat.testBit_div_two_pow, Nat.add_comm b]
  simp [hlt]

theorem valueBytes_getD (v : Word) {n k : Nat} (hk : k < n) (d : Byte) :
    (valueBytes v n).getD k d = v.extractLsb' (8 * k) 8 := by
  simp [valueBytes, hk]

/-! ### Buffer windows (20_memory.md R66) -/

/-- An aligned offset into either buffer is an aligned offset of the window (20_memory.md R63). -/
theorem accessOk_buffer_base {base : Nat} (hbase : base ∈ [0x8000, 0xC000]) (ha : off % z.bytes = 0) :
    accessOk (base + off) z = true := by
  have hge : ¬ base + off < 0x8000 := by fin_cases hbase <;> omega
  have hdvd : z.bytes ∣ base := by fin_cases hbase <;> cases z <;> decide
  have halign : (base + off) % z.bytes = 0 := Nat.mod_eq_zero_of_dvd (hdvd.add (Nat.dvd_of_mod_eq_zero ha))
  simp [accessOk, hge, halign]

theorem readOffset_inBuf (s : State) (z : AccessSize) (ho : off < 0x4000) :
    s.readOffset (0x8000 + off) z = s.readBuffer s.inByte off z := by
  rw [State.readOffset, if_neg (by omega), if_neg (by omega), if_neg (by omega), if_pos (by omega),
    Nat.add_sub_cancel_left]

theorem readOffset_outBuf (s : State) (off : Nat) (z : AccessSize) :
    s.readOffset (0xC000 + off) z = s.readBuffer s.outByte off z := by
  rw [State.readOffset, if_neg (by omega), if_neg (by omega), if_neg (by omega), if_neg (by omega),
    Nat.add_sub_cancel_left]

theorem readBuffer_extractLsb' (s : State) (byteAt : Nat → Byte) (off : Nat) (z : AccessSize) {k : Nat}
    (hk : k < 4) : (s.readBuffer byteAt off z).extractLsb' (8 * k) 8 =
      if k < z.bytes ∧ off + k < s.bufsz then byteAt (off + k) else 0 := by
  rw [State.readBuffer, bytesValue_extractLsb' _ hk]
  by_cases hz : k < z.bytes
  · simp [hz]
  · simp [hz]

theorem writeOffset_inBuf (s : State) (z : AccessSize) (v : Word) (ho : off < 0x4000) :
    s.writeOffset (0x8000 + off) z v =
      if off < s.bufsz then s.writeIn off (valueBytes v z.bytes) else s := by
  rw [State.writeOffset, if_neg (by omega), if_neg (by omega), if_neg (by omega), if_pos (by omega),
    Nat.add_sub_cancel_left]

theorem writeOffset_outBuf (s : State) (off : Nat) (z : AccessSize) (v : Word) :
    s.writeOffset (0xC000 + off) z v =
      if off < s.bufsz then s.writeOut off (valueBytes v z.bytes) else s := by
  rw [State.writeOffset, if_neg (by omega), if_neg (by omega), if_neg (by omega), if_neg (by omega),
    Nat.add_sub_cancel_left]

/-- What IN_BUF holds after the bytes of a bus value were written to it. -/
theorem inByte_writeIn_valueBytes (s : State) (off n : Nat) (v : Word) (a : Nat) :
    (s.writeIn off (valueBytes v n)).inByte a =
      if off ≤ a ∧ a < off + n then v.extractLsb' (8 * (a - off)) 8 else s.inByte a := by
  rw [State.inByte_writeIn, valueBytes_length]
  split
  · exact valueBytes_getD v (by omega) _
  · rfl

/-- What OUT_BUF holds after the bytes of a bus value were written to it. -/
theorem outByte_writeOut_valueBytes (s : State) (off n : Nat) (v : Word) (a : Nat) :
    (s.writeOut off (valueBytes v n)).outByte a =
      if off ≤ a ∧ a < off + n then v.extractLsb' (8 * (a - off)) 8 else s.outByte a := by
  rw [State.outByte_writeOut, valueBytes_length]
  split
  · exact valueBytes_getD v (by omega) _
  · rfl

/-- A host write to IN_BUF changes nothing but bytes of IN_BUF, and no byte at all from BUFSZ on. -/
theorem writeOffset_inBuf_spec (s : State) (z : AccessSize) (v : Word) (ho : off < 0x4000) :
    { (s.writeOffset (0x8000 + off) z v).architectural with inBuf := s.inBuf } = s.architectural ∧
    ∀ a, (s.writeOffset (0x8000 + off) z v).inByte a = if off ≤ a ∧ a < off + z.bytes ∧ off < s.bufsz
      then v.extractLsb' (8 * (a - off)) 8 else s.inByte a := by
  rw [writeOffset_inBuf s z v ho]
  by_cases hb : off < s.bufsz
  · rw [if_pos hb]
    exact ⟨rfl, fun a => by simp only [inByte_writeIn_valueBytes, hb, and_true]⟩
  · rw [if_neg hb]
    exact ⟨rfl, fun a => by simp only [hb, and_false, if_false]⟩

/-- A host write to OUT_BUF changes nothing but bytes of OUT_BUF, and no byte at all from BUFSZ on. -/
theorem writeOffset_outBuf_spec (s : State) (off : Nat) (z : AccessSize) (v : Word) :
    { (s.writeOffset (0xC000 + off) z v).architectural with outBuf := s.outBuf } = s.architectural ∧
    ∀ a, (s.writeOffset (0xC000 + off) z v).outByte a = if off ≤ a ∧ a < off + z.bytes ∧ off < s.bufsz
      then v.extractLsb' (8 * (a - off)) 8 else s.outByte a := by
  rw [writeOffset_outBuf s off z v]
  by_cases hb : off < s.bufsz
  · rw [if_pos hb]
    exact ⟨rfl, fun a => by simp only [outByte_writeOut_valueBytes, hb, and_true]⟩
  · rw [if_neg hb]
    exact ⟨rfl, fun a => by simp only [hb, and_false, if_false]⟩

end Memory

/-- Settles O15: the step serves the read, which moves the port's answer and the free value index alone. -/
theorem readsHaveNoSideEffect : Obligations.ReadsHaveNoSideEffect := by
  intro s t addr z left hm h
  rw [step_of_input hm] at h
  cases serve_effect h with
  | read => rfl

/-- Settles O24: while idle the write sets the register's word, while busy it is lost. -/
theorem windowWriteSetsOneWord : Obligations.WindowWriteSetsOneWord := by
  refine ⟨fun s r j v left hr hi hj hw h => ?_, fun s r j v left hr hb hwait hj _ h => ?_⟩
  · exact ⟨_, step_write_idle hr hi (by omega) (windowOffset_accessOk r hj) h,
      writeOffset_window_spec (s.dequeue left) r hj hw v⟩
  · exact step_write_locked hr (by omega) (windowOffset_accessOk r hj) hb (s.isLocked_window r hj)
      (nextMove_of_busy hb hwait h nofun)

/-- Settles O25: below word W/32 the read is that word of the register; from it on reads give 0 and writes are
ignored. -/
theorem windowReadGivesOneWord : Obligations.WindowReadGivesOneWord := by
  refine ⟨fun s r j left hr hi hj h => ?_, fun s r j v left hr hi hj hw h => ?_⟩
  · refine ⟨_, _, step_read_idle hr hi (by omega) (windowOffset_accessOk r hj) h, rfl, fun hw b hb => ?_,
      fun hw => ?_⟩
    · rw [readOffset_window s r hj, if_pos hw, wordAt_getLsbD _ j hb]
    · rw [readOffset_window s r hj, if_neg (Nat.not_lt.2 hw)]
  · refine ⟨_, step_write_idle hr hi (by omega) (windowOffset_accessOk r hj) h, ?_⟩
    rw [writeOffset_window_of_ge (s.dequeue left) r hj hw]
    rfl

/-- Settles O26: each window's write is the buffer's own, whatever the size. -/
theorem bufferWriteStoresItsBytes : Obligations.BufferWriteStoresItsBytes := by
  intro s off z v left hr hi _ ho ha
  constructor
  · intro h
    exact ⟨_, step_write_idle hr hi (by omega) (accessOk_buffer_base (by decide) ha) h,
      writeOffset_inBuf_spec (s.dequeue left) z v ho⟩
  · intro h
    exact ⟨_, step_write_idle hr hi (by omega) (accessOk_buffer_base (by decide) ha) h,
      writeOffset_outBuf_spec (s.dequeue left) off z v⟩

/-- Settles O27: each window's read is the bus value of the buffer's bytes. -/
theorem bufferReadGivesItsBytes : Obligations.BufferReadGivesItsBytes := by
  intro s off z left hr hi ho ha
  constructor
  · intro h
    refine ⟨_, _, step_read_idle hr hi (by omega) (accessOk_buffer_base (by decide) ha) h, rfl, fun k hk => ?_⟩
    rw [readOffset_inBuf s z ho, readBuffer_extractLsb' s _ off z hk]
  · intro h
    refine ⟨_, _, step_read_idle hr hi (by omega) (accessOk_buffer_base (by decide) ha) h, rfl, fun k hk => ?_⟩
    rw [readOffset_outBuf s off z, readBuffer_extractLsb' s _ off z hk]

end Sys2Proof.Machine

/-! Proofs of the statements about command words (30_encoding.md): the decoder as the rows of R95, the fields of an
encoded word, and what the engine does with a word that no row matches. -/

namespace Sys2Proof

/-- The command of i's row with its operands read from the fields of w (30_encoding.md R91 to R95). -/
def Instr.refill (w : Word) : Instr → Instr
  | .nop => .nop
  | .ldi _ _ => .ldi (rdOf w) (immOf w)
  | .mov _ _ => .mov (rdOf w) (raOf w)
  | .add _ _ _ => .add (rdOf w) (raOf w) (rbOf w)
  | .addi _ _ _ => .addi (rdOf w) (raOf w) (immOf w)
  | .sub _ _ _ => .sub (rdOf w) (raOf w) (rbOf w)
  | .subi _ _ _ => .subi (rdOf w) (raOf w) (immOf w)
  | .cmp _ _ _ => .cmp (rdOf w) (raOf w) (rbOf w)
  | .bitlen _ _ => .bitlen (rdOf w) (raOf w)
  | .mul _ _ _ => .mul (rdOf w) (raOf w) (rbOf w)
  | .mod _ _ _ => .mod (rdOf w) (raOf w) (rcOf w)
  | .modmul _ _ _ _ => .modmul (rdOf w) (raOf w) (rbOf w) (rcOf w)
  | .gcd _ _ _ => .gcd (rdOf w) (raOf w) (rbOf w)
  | .modinv _ _ _ => .modinv (rdOf w) (raOf w) (rcOf w)
  | .modpow _ _ _ _ => .modpow (rdOf w) (raOf w) (rbOf w) (rcOf w)
  | .randb _ _ => .randb (rdOf w) (immOf w)
  | .randc _ _ => .randc (rdOf w) (immOf w)
  | .trialdiv _ _ => .trialdiv (rdOf w) (raOf w)
  | .mrround _ _ _ => .mrround (rdOf w) (raOf w) (rbOf w)
  | .primetest _ _ => .primetest (rdOf w) (raOf w)
  | .ldb _ => .ldb (rdOf w)
  | .stb _ _ => .stb (raOf w) (modeOf w)
  | .benc _ _ _ => .benc (raOf w) (rcOf w) (modeOf w)
  | .bdec _ _ _ => .bdec (raOf w) (rcOf w) (modeOf w)

/-- The (mask, match) pair of the row of i. -/
def Instr.row (i : Instr) : Word × Word := (maskOf i, patternOf i)

/-! ### The rows of R95 -/

section Rows

variable {w : Word} {i : Instr}

@[simp] theorem maskOf_refill (w : Word) (i : Instr) : maskOf (i.refill w) = maskOf i := by cases i <;> rfl

@[simp] theorem patternOf_refill (w : Word) (i : Instr) : patternOf (i.refill w) = patternOf i := by cases i <;> rfl

/-- Every mask covers the opcode bits (30_encoding.md R97). -/
theorem opcodeOf_maskOf (i : Instr) : opcodeOf (maskOf i) = 2 ^ 8 - 1 := by
  cases i <;> simp [maskOf, opcodeOf, fieldOf]

/-- A match is an opcode, every bit above it 0. -/
theorem patternOf_lt (i : Instr) : (patternOf i).toNat < 256 := by cases i <;> simp [patternOf]

theorem fieldOf_and (w m : Word) (lo len : Nat) : fieldOf (w &&& m) lo len = fieldOf w lo len &&& fieldOf m lo len := by
  rw [fieldOf, BitVec.toNat_and, Nat.and_div_two_pow, Nat.and_mod_two_pow]
  rfl

/-- A field that the mask covers reads in a matching word as in the match. -/
theorem fieldOf_of_match (h : w &&& maskOf i = patternOf i) {lo len : Nat}
    (hm : fieldOf (maskOf i) lo len = 2 ^ len - 1) : fieldOf w lo len = fieldOf (patternOf i) lo len := by
  rw [← h, fieldOf_and, hm, Nat.and_two_pow_sub_one_eq_mod]
  exact (Nat.mod_mod _ _).symm

theorem opcodeOf_of_match (h : w &&& maskOf i = patternOf i) : opcodeOf w = (patternOf i).toNat := by
  have hlt := patternOf_lt i
  rw [opcodeOf, fieldOf_of_match h (opcodeOf_maskOf i), fieldOf]
  omega

/-- A field above the opcode that the mask covers is one the command does not use: it is 0 (30_encoding.md R96). -/
theorem fieldOf_unused (h : w &&& maskOf i = patternOf i) {lo len : Nat} (hlo : 8 ≤ lo := by decide)
    (hm : fieldOf (maskOf i) lo len = 2 ^ len - 1 := by simp [maskOf, fieldOf]) : fieldOf w lo len = 0 := by
  have hle : 2 ^ 8 ≤ 2 ^ lo := Nat.pow_le_pow_right Nat.two_pos hlo
  rw [fieldOf_of_match h hm, fieldOf, Nat.div_eq_of_lt ((patternOf_lt i).trans_le hle), Nat.zero_mod]

/-- One instruction of each row, in the order of R95. -/
def rowCommands : List Instr :=
  [.nop, .ldi 0 0, .mov 0 0, .add 0 0 0, .addi 0 0 0, .sub 0 0 0, .subi 0 0 0, .cmp 0 0 0, .bitlen 0 0,
    .mul 0 0 0, .mod 0 0 0, .modmul 0 0 0 0, .gcd 0 0 0, .modinv 0 0 0, .modpow 0 0 0 0, .randb 0 0, .randc 0 0,
    .trialdiv 0 0, .mrround 0 0 0, .primetest 0 0, .ldb 0, .stb 0 .pad, .benc 0 0 .pad, .bdec 0 0 .pad]

theorem map_row_rowCommands : rowCommands.map Instr.row = Machine.commandRows := rfl

/-- The rows of R95 are those of the instructions. -/
theorem mem_commandRows {row : Word × Word} : row ∈ Machine.commandRows ↔ ∃ i : Instr, i.row = row := by
  constructor
  · intro h
    rw [← map_row_rowCommands] at h
    obtain ⟨i, -, hi⟩ := List.mem_map.1 h
    exact ⟨i, hi⟩
  · rintro ⟨i, rfl⟩
    cases i <;> simp [Instr.row, maskOf, patternOf, Machine.commandRows]

theorem nodup_opcodes : (Machine.commandRows.map Prod.snd).Nodup := by decide

/-- The match of a row determines the row (30_encoding.md R97). -/
theorem row_eq_of_patternOf_eq {i j : Instr} (h : patternOf i = patternOf j) : i.row = j.row :=
  List.inj_on_of_nodup_map nodup_opcodes (mem_commandRows.2 ⟨i, rfl⟩) (mem_commandRows.2 ⟨j, rfl⟩) h

/-- The opcode picks the row that a word is compared with. -/
theorem decode_of_opcode (h : opcodeOf w = (patternOf i).toNat) : decode w = matchRow w (i.refill w) := by
  cases i <;> simp [decode, h, patternOf, Instr.refill]

theorem matchRow_eq_ok_iff {j : Instr} :
    matchRow w i = .ok j ↔ w &&& maskOf i = patternOf i ∧ i = j := by
  unfold matchRow
  split
  · next h => simp [h]
  · next h => simp [h]

/-- A word decodes to i exactly when it matches the row of i and its fields are the operands of i. -/
theorem decode_eq_ok_iff : decode w = .ok i ↔ w &&& maskOf i = patternOf i ∧ i.refill w = i := by
  constructor
  · intro h
    unfold decode at h
    split at h
    case h_25 => cases h
    all_goals
      obtain ⟨hm, rfl⟩ := matchRow_eq_ok_iff.1 h
      exact ⟨hm, rfl⟩
  · rintro ⟨hm, hi⟩
    rw [decode_of_opcode (opcodeOf_of_match hm), hi]
    exact matchRow_eq_ok_iff.2 ⟨hm, rfl⟩

/-- A word that matches the row of i decodes to the command of that row. -/
theorem decode_of_match (h : w &&& maskOf i = patternOf i) : decode w = .ok (i.refill w) := by
  rw [decode_of_opcode (opcodeOf_of_match h)]
  exact matchRow_eq_ok_iff.2 ⟨by simpa using h, rfl⟩

end Rows

/-! ### The fields of an encoded word -/

section Fields

variable {op rd ra rb rc imm l : Nat}

theorem rdOf_formatR (rd : Reg) (ho : op < 256) : rdOf (formatR op rd ra rb rc l) = rd := by
  refine Fin.ext ?_
  simp only [rdOf, regField, formatR, Fin.val_ofNat, BitVec.toNat_ofNat]
  omega

theorem raOf_formatR (ra : Reg) (ho : op < 256) (hd : rd < 16) : raOf (formatR op rd ra rb rc l) = ra := by
  refine Fin.ext ?_
  simp only [raOf, regField, formatR, Fin.val_ofNat, BitVec.toNat_ofNat]
  omega

theorem rbOf_formatR (rb : Reg) (ho : op < 256) (hd : rd < 16) (ha : ra < 16) :
    rbOf (formatR op rd ra rb rc l) = rb := by
  refine Fin.ext ?_
  simp only [rbOf, regField, formatR, Fin.val_ofNat, BitVec.toNat_ofNat]
  omega

theorem rcOf_formatR (rc : Reg) (ho : op < 256) (hd : rd < 16) (ha : ra < 16) (hb : rb < 16) :
    rcOf (formatR op rd ra rb rc l) = rc := by
  refine Fin.ext ?_
  simp only [rcOf, regField, formatR, Fin.val_ofNat, BitVec.toNat_ofNat]
  omega

theorem modeOf_formatR (m : Mode) (ho : op < 256) (hd : rd < 16) (ha : ra < 16) (hb : rb < 16) (hc : rc < 16) :
    modeOf (formatR op rd ra rb rc m.bit) = m := by
  have hl : fieldOf (formatR op rd ra rb rc m.bit) 24 1 = m.bit := by
    have := m.bit_lt
    simp only [fieldOf, formatR, BitVec.toNat_ofNat]
    omega
  rw [modeOf, hl]
  cases m <;> rfl

theorem formatI_eq_formatR (op rd ra imm : Nat) :
    formatI op rd ra imm = formatR op rd ra (imm % 16) (imm / 16 % 16) (imm / 256) := by
  rw [formatI, formatR]
  congr 1
  omega

theorem rdOf_formatI (rd : Reg) (ho : op < 256) : rdOf (formatI op rd ra imm) = rd := by
  rw [formatI_eq_formatR, rdOf_formatR rd ho]

theorem raOf_formatI (ra : Reg) (ho : op < 256) (hd : rd < 16) : raOf (formatI op rd ra imm) = ra := by
  rw [formatI_eq_formatR, raOf_formatR ra ho hd]

theorem immOf_formatI (ho : op < 256) (hd : rd < 16) (ha : ra < 16) (hi : imm < 65536) :
    immOf (formatI op rd ra imm) = imm := by
  simp only [immOf, fieldOf, formatI, BitVec.toNat_ofNat]
  omega

end Fields

/-- The fields of the encoding of a well-formed instruction are its operands. -/
theorem refill_encode {i : Instr} (h : i.wellFormed = true) : i.refill (encode i) = i := by
  cases i with
  | nop => rfl
  | ldi _ _ | addi _ _ _ | subi _ _ _ | randb _ _ | randc _ _ =>
    have himm := Laws.RowMatch.immOk_lt h
    simp [Instr.refill, encode, rdOf_formatI, raOf_formatI, immOf_formatI, himm]
  | mov _ _ | bitlen _ _ | trialdiv _ _ | primetest _ _ | ldb _ =>
    simp [Instr.refill, encode, rdOf_formatR, raOf_formatR]
  | add _ _ _ | sub _ _ _ | cmp _ _ _ | mul _ _ _ | gcd _ _ _ | mrround _ _ _ =>
    simp [Instr.refill, encode, rdOf_formatR, raOf_formatR, rbOf_formatR]
  | mod _ _ _ | modinv _ _ _ => simp [Instr.refill, encode, rdOf_formatR, raOf_formatR, rcOf_formatR]
  | modmul _ _ _ _ | modpow _ _ _ _ =>
    simp [Instr.refill, encode, rdOf_formatR, raOf_formatR, rbOf_formatR, rcOf_formatR]
  | stb _ _ => simp [Instr.refill, encode, raOf_formatR, modeOf_formatR]
  | benc _ _ _ | bdec _ _ _ => simp [Instr.refill, encode, raOf_formatR, rcOf_formatR, modeOf_formatR]

open Laws in
/-- The encoding of a well-formed instruction matches its own row (30_encoding.md R101). -/
theorem encode_matches_row : ∀ i : Instr, RowMatch.Statement i
  | .nop => RowMatch.nop
  | .ldi rd imm => RowMatch.ldi rd imm
  | .mov rd ra => RowMatch.mov rd ra
  | .add rd ra rb => RowMatch.add rd ra rb
  | .addi rd ra imm => RowMatch.addi rd ra imm
  | .sub rd ra rb => RowMatch.sub rd ra rb
  | .subi rd ra imm => RowMatch.subi rd ra imm
  | .cmp rd ra rb => RowMatch.cmp rd ra rb
  | .bitlen rd ra => RowMatch.bitlen rd ra
  | .mul rd ra rb => RowMatch.mul rd ra rb
  | .mod rd ra rc => RowMatch.mod rd ra rc
  | .modmul rd ra rb rc => RowMatch.modmul rd ra rb rc
  | .gcd rd ra rb => RowMatch.gcd rd ra rb
  | .modinv rd ra rc => RowMatch.modinv rd ra rc
  | .modpow rd ra rb rc => RowMatch.modpow rd ra rb rc
  | .randb rd imm => RowMatch.randb rd imm
  | .randc rd imm => RowMatch.randc rd imm
  | .trialdiv rd ra => RowMatch.trialdiv rd ra
  | .mrround rd ra rb => RowMatch.mrround rd ra rb
  | .primetest rd ra => RowMatch.primetest rd ra
  | .ldb rd => RowMatch.ldb rd
  | .stb ra mode => RowMatch.stb ra mode
  | .benc ra rc mode => RowMatch.benc ra rc mode
  | .bdec ra rc mode => RowMatch.bdec ra rc mode

/-! ### A word from its fields -/

section FromFields

variable {w : Word} {i : Instr} {op rd ra rb rc imm l : Nat}

/-- A word is the format I word of its fields (30_encoding.md R92). -/
theorem formatI_of_fields (ho : opcodeOf w = op) (hd : fieldOf w 8 4 = rd) (ha : fieldOf w 12 4 = ra)
    (hi : fieldOf w 16 16 = imm) : formatI op rd ra imm = w := by
  have := w.isLt
  refine BitVec.eq_of_toNat_eq ?_
  simp only [opcodeOf, fieldOf] at ho hd ha hi
  rw [formatI, BitVec.toNat_ofNat]
  omega

/-- A word is the format R word of its fields (30_encoding.md R91). -/
theorem formatR_of_fields (ho : opcodeOf w = op) (hd : fieldOf w 8 4 = rd) (ha : fieldOf w 12 4 = ra)
    (hb : fieldOf w 16 4 = rb) (hc : fieldOf w 20 4 = rc) (hl : fieldOf w 24 8 = l) :
    formatR op rd ra rb rc l = w := by
  have := w.isLt
  refine BitVec.eq_of_toNat_eq ?_
  simp only [opcodeOf, fieldOf] at ho hd ha hb hc hl
  rw [formatR, BitVec.toNat_ofNat]
  omega

/-- With no bit above the L bit set, the top byte is the L bit of the mode. -/
theorem fieldOf_mode (h : fieldOf w 25 7 = 0) : fieldOf w 24 8 = (modeOf w).bit := by
  have hl : fieldOf w 24 8 = fieldOf w 24 1 := by
    simp only [fieldOf] at h ⊢
    omega
  rw [hl, modeOf]
  split
  · next h1 => exact h1
  · next h1 =>
    have hlt : fieldOf w 24 1 < 2 := Nat.mod_lt _ (by decide)
    exact Nat.lt_one_iff.1 (Nat.lt_of_le_of_ne (Nat.le_of_lt_succ hlt) h1)

/-- A word that matches the row of i is the encoding of that row's command with the operands of the word. -/
theorem encode_refill (h : w &&& maskOf i = patternOf i) : encode (i.refill w) = w := by
  have ho := opcodeOf_of_match h
  cases i with
  | nop =>
    exact formatR_of_fields ho (fieldOf_unused h) (fieldOf_unused h) (fieldOf_unused h) (fieldOf_unused h)
      (fieldOf_unused h)
  | ldi _ _ | randb _ _ | randc _ _ => exact formatI_of_fields ho rfl (fieldOf_unused h) rfl
  | addi _ _ _ | subi _ _ _ => exact formatI_of_fields ho rfl rfl rfl
  | mov _ _ | bitlen _ _ | trialdiv _ _ | primetest _ _ =>
    exact formatR_of_fields ho rfl rfl (fieldOf_unused h) (fieldOf_unused h) (fieldOf_unused h)
  | add _ _ _ | sub _ _ _ | cmp _ _ _ | mul _ _ _ | gcd _ _ _ | mrround _ _ _ =>
    exact formatR_of_fields ho rfl rfl rfl (fieldOf_unused h) (fieldOf_unused h)
  | mod _ _ _ | modinv _ _ _ => exact formatR_of_fields ho rfl rfl (fieldOf_unused h) rfl (fieldOf_unused h)
  | modmul _ _ _ _ | modpow _ _ _ _ => exact formatR_of_fields ho rfl rfl rfl rfl (fieldOf_unused h)
  | ldb _ =>
    exact formatR_of_fields ho rfl (fieldOf_unused h) (fieldOf_unused h) (fieldOf_unused h) (fieldOf_unused h)
  | stb _ _ =>
    exact formatR_of_fields ho (fieldOf_unused h) rfl (fieldOf_unused h) (fieldOf_unused h)
      (fieldOf_mode (fieldOf_unused h))
  | benc _ _ _ | bdec _ _ _ =>
    exact formatR_of_fields ho (fieldOf_unused h) rfl (fieldOf_unused h) rfl (fieldOf_mode (fieldOf_unused h))

end FromFields

end Sys2Proof

namespace Sys2Proof.Machine

/-! ### Words, commands and the rows of R95 -/

section Words

variable {w : Word}

/-- A word is a command exactly when a row matches it (30_encoding.md R97). -/
theorem exists_decode_ok_iff : (∃ i, decode w = .ok i) ↔ ∃ row ∈ commandRows, w &&& row.1 = row.2 := by
  constructor
  · rintro ⟨i, hi⟩
    exact ⟨i.row, mem_commandRows.2 ⟨i, rfl⟩, (decode_eq_ok_iff.1 hi).1⟩
  · rintro ⟨row, hrow, hm⟩
    obtain ⟨i, rfl⟩ := mem_commandRows.1 hrow
    exact ⟨i.refill w, decode_of_match hm⟩

/-- A word that no row matches is ILLEGAL (30_encoding.md R96). -/
theorem exists_decode_error (h : ∀ row ∈ commandRows, w &&& row.1 ≠ row.2) : ∃ r, decode w = .error r := by
  cases hd : decode w with
  | error r => exact ⟨r, rfl⟩
  | ok i =>
    obtain ⟨row, hrow, hm⟩ := exists_decode_ok_iff.1 ⟨i, hd⟩
    exact absurd hm (h row hrow)

/-- Two rows that match one word have its opcode, so they are one row (30_encoding.md R97). -/
theorem row_eq_of_match {row row' : Word × Word} (hrow : row ∈ commandRows) (hrow' : row' ∈ commandRows)
    (hm : w &&& row.1 = row.2) (hm' : w &&& row'.1 = row'.2) : row = row' := by
  obtain ⟨i, rfl⟩ := mem_commandRows.1 hrow
  obtain ⟨j, rfl⟩ := mem_commandRows.1 hrow'
  exact row_eq_of_patternOf_eq (BitVec.eq_of_toNat_eq ((opcodeOf_of_match hm).symm.trans (opcodeOf_of_match hm')))

end Words

/-- Settles O1: the encoding matches its own row, and its fields are the operands. -/
theorem decodeInvertsEncode : Obligations.DecodeInvertsEncode := fun i h =>
  decode_eq_ok_iff.2 ⟨encode_matches_row i h, refill_encode h⟩

/-- Settles O2: the word matches the row of the command, so it is the encoding of that row with its own fields. -/
theorem encodeInvertsDecode : Obligations.EncodeInvertsDecode := by
  intro w i h
  obtain ⟨hm, hi⟩ := decode_eq_ok_iff.1 h
  have he := encode_refill hm
  rw [hi] at he
  exact ⟨decode_wellFormed h, he⟩

/-- Settles O3: the decoder answers the row that matches, and the opcode tells the rows apart. -/
theorem decoderIsTotalAndUnambiguous : Obligations.DecoderIsTotalAndUnambiguous :=
  ⟨fun _ => exists_decode_ok_iff, fun _ i h => ⟨mem_commandRows.2 ⟨i, rfl⟩, (decode_eq_ok_iff.1 h).1⟩,
    fun _ _ hrow _ hrow' hm hm' => row_eq_of_match hrow hrow' hm hm'⟩

/-- Settles O4: the step is the completion with ILLEGAL, which writes STATUS alone. -/
theorem illegalWordWritesOnlyStatus : Obligations.IllegalWordWritesOnlyStatus := by
  intro s hmove hno
  obtain ⟨r, hr⟩ := exists_decode_error hno
  exact ⟨_, step_of_illegal hmove hr, State.endedWith_complete s .illegal, rfl⟩

/-- Settles O5: each word is evaluated. -/
theorem writtenOutWordsDecode : Obligations.WrittenOutWordsDecode := by
  unfold Obligations.WrittenOutWordsDecode
  decide

end Sys2Proof.Machine

/-! Proofs of the statements about the arithmetic, multiplier and reduction commands (41_arith.md): with written
operands each command is its last check and write, and with no abort pending that write is the statement's result. -/

namespace Sys2Proof.Machine

/-! ### The last check and the write -/

section Results

variable {s : State} {rd : Reg} {v a b : Nat}

theorem State.writeBounded_of_lt (h : v < 2 ^ s.width) : s.writeBounded rd v = s.writeBack rd v :=
  if_neg (Nat.not_le.2 h)

theorem State.writeBounded_of_le (h : 2 ^ s.width ≤ v) : s.writeBounded rd v = s.raise .overflow := if_pos h

theorem State.writeDifference_of_le (h : b ≤ a) : s.writeDifference rd a b = s.writeBack rd (a - b) :=
  if_neg (Nat.not_lt.2 h)

theorem State.writeDifference_of_lt (h : a < b) : s.writeDifference rd a b = s.raise .underflow := if_pos h

theorem State.withModulus_zero (k : State) : s.withModulus 0 k = s.raise .zeroModulus := if_pos rfl

theorem wroteReg_writeBack (h : s.abortReq = false) : WroteReg s (s.writeBack rd v) rd v := by
  rw [State.writeBack_of_not h]
  exact State.wroteReg_setReg s rd v

theorem wroteReg_writeBounded (h : s.abortReq = false) (hv : v < 2 ^ s.width) :
    WroteReg s (s.writeBounded rd v) rd v := by
  rw [State.writeBounded_of_lt hv]
  exact wroteReg_writeBack h

theorem endedWith_writeBounded (hv : 2 ^ s.width ≤ v) : EndedWith s (s.writeBounded rd v) .overflow := by
  rw [State.writeBounded_of_le hv]
  exact State.endedWith_complete s .overflow

theorem wroteReg_writeDifference (h : s.abortReq = false) (hab : b ≤ a) :
    WroteReg s (s.writeDifference rd a b) rd (a - b) := by
  rw [State.writeDifference_of_le hab]
  exact wroteReg_writeBack h

theorem endedWith_writeDifference (hab : a < b) : EndedWith s (s.writeDifference rd a b) .underflow := by
  rw [State.writeDifference_of_lt hab]
  exact State.endedWith_complete s .underflow

theorem wroteReg_withModulus (h : s.abortReq = false) {m : Nat} (hm : m ≠ 0) :
    WroteReg s (s.withModulus m (s.writeBack rd v)) rd v := by
  rw [State.withModulus_of_pos hm]
  exact wroteReg_writeBack h

theorem endedWith_withModulus {m : Nat} (hm : m = 0) (k : State) : EndedWith s (s.withModulus m k) .zeroModulus := by
  rw [hm, State.withModulus_zero]
  exact State.endedWith_complete s .zeroModulus

end Results

/-! ### Each command with written operands -/

section Commands

variable {s : State} {ra rb rc : Reg} (rd : Reg) (imm : Nat)

theorem State.withThreeSources_of_valid (ha : s.isValid ra = true) (hb : s.isValid rb = true)
    (hc : s.isValid rc = true) (k : Nat → Nat → Nat → State) :
    (s.withSources ra rb fun a b => s.withSource rc (k a b)) = k (s.reg ra) (s.reg rb) (s.reg rc) := by
  rw [State.withSources_of_valid ha hb, State.withSource_of_valid hc]

theorem exec_ldi (s : State) : exec (.ldi rd imm) s = .next (s.writeBack rd imm) := rfl

theorem exec_mov_of_valid (ha : s.isValid ra = true) : exec (.mov rd ra) s = .next (s.writeBack rd (s.reg ra)) :=
  congrArg _ (State.withSource_of_valid ha _)

theorem exec_add_of_valid (ha : s.isValid ra = true) (hb : s.isValid rb = true) :
    exec (.add rd ra rb) s = .next (s.writeBounded rd (s.reg ra + s.reg rb)) :=
  congrArg _ (State.withSources_of_valid ha hb _)

theorem exec_addi_of_valid (ha : s.isValid ra = true) :
    exec (.addi rd ra imm) s = .next (s.writeBounded rd (s.reg ra + imm)) :=
  congrArg _ (State.withSource_of_valid ha _)

theorem exec_sub_of_valid (ha : s.isValid ra = true) (hb : s.isValid rb = true) :
    exec (.sub rd ra rb) s = .next (s.writeDifference rd (s.reg ra) (s.reg rb)) :=
  congrArg _ (State.withSources_of_valid ha hb _)

theorem exec_subi_of_valid (ha : s.isValid ra = true) :
    exec (.subi rd ra imm) s = .next (s.writeDifference rd (s.reg ra) imm) :=
  congrArg _ (State.withSource_of_valid ha _)

theorem exec_cmp_of_valid (ha : s.isValid ra = true) (hb : s.isValid rb = true) :
    exec (.cmp rd ra rb) s = .next (s.writeBack rd
      (if s.reg ra < s.reg rb then 0 else if s.reg ra = s.reg rb then 1 else 2)) :=
  congrArg _ (State.withSources_of_valid ha hb _)

theorem exec_bitlen_of_valid (ha : s.isValid ra = true) :
    exec (.bitlen rd ra) s = .next (s.writeBack rd (bitlen (s.reg ra))) :=
  congrArg _ (State.withSource_of_valid ha _)

theorem exec_mul_of_valid (ha : s.isValid ra = true) (hb : s.isValid rb = true) :
    exec (.mul rd ra rb) s = .next (s.writeBounded rd (s.reg ra * s.reg rb)) :=
  congrArg _ (State.withSources_of_valid ha hb _)

theorem exec_mod_of_valid (ha : s.isValid ra = true) (hc : s.isValid rc = true) :
    exec (.mod rd ra rc) s = .next (s.withModulus (s.reg rc) (s.writeBack rd (s.reg ra % s.reg rc))) :=
  congrArg _ (State.withSources_of_valid ha hc _)

theorem exec_modmul_of_valid (ha : s.isValid ra = true) (hb : s.isValid rb = true) (hc : s.isValid rc = true) :
    exec (.modmul rd ra rb rc) s =
      .next (s.withModulus (s.reg rc) (s.writeBack rd (s.reg ra * s.reg rb % s.reg rc))) :=
  congrArg _ (State.withThreeSources_of_valid ha hb hc _)

theorem exec_modinv_of_valid (ha : s.isValid ra = true) (hc : s.isValid rc = true) :
    exec (.modinv rd ra rc) s = .next (s.withModulus (s.reg rc)
      (if Nat.gcd (s.reg ra % s.reg rc) (s.reg rc) ≠ 1 then s.raise .noInverse
        else s.writeBack rd (modInverse (s.reg ra) (s.reg rc)))) :=
  congrArg _ (State.withSources_of_valid ha hc _)

theorem exec_modpow_of_valid (ha : s.isValid ra = true) (hb : s.isValid rb = true) (hc : s.isValid rc = true) :
    exec (.modpow rd ra rb rc) s =
      .next (s.withModulus (s.reg rc) (s.writeBack rd (powMod (s.reg ra) (s.reg rb) (s.reg rc)))) :=
  congrArg _ (State.withThreeSources_of_valid ha hb hc _)

end Commands

/-! ### The statements -/

/-- Settles O40: the width written is `bitlen`, which is at most j exactly when the register is below 2^j. -/
theorem bitlenWritesTheLeastWidth : Obligations.BitlenWritesTheLeastWidth := by
  intro s rd ra hreq ha
  have hleast := bitlen_le_iff (s.reg ra)
  exact ⟨_, _, exec_bitlen_of_valid rd ha, wroteReg_writeBack hreq, fun j => (hleast j).symm, (hleast s.width).2⟩

/-- Settles O36: without a pending abort the end of NOP writes nothing, and that of LDI and MOV their value. -/
theorem nopLdiAndMovWriteTheirValue : Obligations.NopLdiAndMovWriteTheirValue := by
  refine ⟨fun s hreq => ?_, fun s rd imm hreq => ?_, fun s rd ra hreq ha => ?_⟩
  · obtain ⟨t, ht, ⟨hpending, _⟩ | hend⟩ := execNop_cases s
    · exact absurd (hreq.symm.trans hpending) Bool.false_ne_true
    · exact ⟨t, ht, hend⟩
  · exact ⟨_, exec_ldi rd imm s, wroteReg_writeBack hreq⟩
  · exact ⟨_, exec_mov_of_valid rd ha, wroteReg_writeBack hreq⟩

/-- Settles O37: both sums end in the bounded write. -/
theorem addAndAddiWriteTheSum : Obligations.AddAndAddiWriteTheSum := by
  refine ⟨fun s rd ra rb hreq ha hb hlt => ?_, fun s rd ra imm hreq ha hlt => ?_,
    fun s rd ra rb _ ha hb hle => ?_, fun s rd ra imm _ ha hle => ?_⟩
  · exact ⟨_, exec_add_of_valid rd ha hb, wroteReg_writeBounded hreq hlt⟩
  · exact ⟨_, exec_addi_of_valid rd imm ha, wroteReg_writeBounded hreq hlt⟩
  · exact ⟨_, exec_add_of_valid rd ha hb, endedWith_writeBounded hle⟩
  · exact ⟨_, exec_addi_of_valid rd imm ha, endedWith_writeBounded hle⟩

/-- Settles O38: both differences end in the write that refuses a negative one. -/
theorem subAndSubiWriteTheDifference : Obligations.SubAndSubiWriteTheDifference := by
  refine ⟨fun s rd ra rb hreq ha hb hle => ?_, fun s rd ra imm hreq ha hle => ?_,
    fun s rd ra rb _ ha hb hlt => ?_, fun s rd ra imm _ ha hlt => ?_⟩
  · exact ⟨_, exec_sub_of_valid rd ha hb, wroteReg_writeDifference hreq hle⟩
  · exact ⟨_, exec_subi_of_valid rd imm ha, wroteReg_writeDifference hreq hle⟩
  · exact ⟨_, exec_sub_of_valid rd ha hb, endedWith_writeDifference hlt⟩
  · exact ⟨_, exec_subi_of_valid rd imm ha, endedWith_writeDifference hlt⟩

/-- Settles O39: the value written is the choice between the three orders, of which exactly one holds. -/
theorem cmpWritesTheOrder : Obligations.CmpWritesTheOrder := by
  intro s rd ra rb hreq ha hb
  refine ⟨_, _, exec_cmp_of_valid rd ha hb, wroteReg_writeBack hreq, fun hlt => if_pos hlt, fun heq => ?_,
    fun hgt => ?_⟩
  · rw [if_neg (Nat.not_lt.2 heq.ge), if_pos heq]
  · rw [if_neg (Nat.lt_asymm hgt), if_neg (Nat.ne_of_gt hgt)]

/-- Settles O41: the product ends in the bounded write. -/
theorem mulWritesTheProduct : Obligations.MulWritesTheProduct :=
  ⟨fun _ rd _ _ hreq ha hb hlt => ⟨_, exec_mul_of_valid rd ha hb, wroteReg_writeBounded hreq hlt⟩,
    fun _ rd _ _ _ ha hb hle => ⟨_, exec_mul_of_valid rd ha hb, endedWith_writeBounded hle⟩⟩

/-- Settles O42: a modulus of at least 1 passes its check, and the write is the reduced value. -/
theorem modAndModmulReduce : Obligations.ModAndModmulReduce :=
  ⟨fun _ rd _ _ hreq ha hc hm => ⟨_, exec_mod_of_valid rd ha hc, wroteReg_withModulus hreq hm⟩,
    fun _ rd _ _ _ hreq ha hb hc hm =>
      ⟨_, exec_modmul_of_valid rd ha hb hc, wroteReg_withModulus hreq hm⟩⟩

/-- Settles O43: each of the four checks its modulus as soon as its operands are read. -/
theorem zeroModulusIsRefused : Obligations.ZeroModulusIsRefused := by
  intro s rd ra rb rc ha hb hc hm i hi
  simp only [List.mem_cons, List.not_mem_nil, or_false] at hi
  obtain rfl | rfl | rfl | rfl := hi
  · exact ⟨_, exec_mod_of_valid rd ha hc, endedWith_withModulus hm _⟩
  · exact ⟨_, exec_modmul_of_valid rd ha hb hc, endedWith_withModulus hm _⟩
  · exact ⟨_, exec_modinv_of_valid rd ha hc, endedWith_withModulus hm _⟩
  · exact ⟨_, exec_modpow_of_valid rd ha hb hc, endedWith_withModulus hm _⟩

end Sys2Proof.Machine

/-! Proofs of the statements about the number-theory and random commands (42_numtheory.md): what the modular inverse
and a random candidate are as numbers, and the end of each command once its checks have passed or failed. -/

namespace Sys2Proof.Machine

/-! ### The inverse and the candidate as numbers -/

section Numbers

/-- Two values below m that a coprime factor takes to the same residue are equal. -/
theorem eq_of_mul_mod_eq {a m v v' : Nat} (hcop : Nat.gcd a m = 1) (hv : v < m) (hv' : v' < m)
    (hmod : a * v' % m = a * v % m) : v' = v := by
  have hres : v' ≡ v [MOD m] := Nat.ModEq.cancel_left_of_coprime (Nat.gcd_comm m a ▸ hcop) hmod
  exact hres.eq_of_lt_of_lt hv' hv

/-- MODINV's gcd is taken of the reduced operand, which leaves it the same. -/
theorem gcd_mod_left (a m : Nat) : Nat.gcd (a % m) m = Nat.gcd a m :=
  (Nat.mod_modEq a m).gcd_eq

/-- A draw with its top and bottom bit forced to 1 (42_numtheory.md R145) is odd and has exactly n bits. -/
theorem candidate_spec {n r : Nat} (hn : 1 ≤ n) (hr : r < 2 ^ n) :
    (r ||| 2 ^ (n - 1) ||| 1) % 2 = 1 ∧ 2 ^ (n - 1) ≤ r ||| 2 ^ (n - 1) ||| 1 ∧
      r ||| 2 ^ (n - 1) ||| 1 < 2 ^ n := by
  have htop : 2 ^ (n - 1) < 2 ^ n := Nat.pow_lt_pow_right Nat.one_lt_two (by omega)
  have hone : 1 < 2 ^ n := Nat.one_lt_two_pow (by omega)
  refine ⟨Nat.or_mod_two_eq_one.2 (.inr rfl), ?_, Nat.or_lt_two_pow (Nat.or_lt_two_pow hr htop) hone⟩
  calc 2 ^ (n - 1) ≤ r ||| 2 ^ (n - 1) := Nat.right_le_or
    _ ≤ r ||| 2 ^ (n - 1) ||| 1 := Nat.left_le_or

/-- A draw of n random bits lies below 2^n, whatever the source answers (42_numtheory.md R144). -/
theorem State.drawn_lt_two_pow (s : State) (n : Nat) : s.drawn 0 (2 ^ n - 1) < 2 ^ n := by
  have hle := (s.drawn_mem (Nat.zero_le (2 ^ n - 1))).2
  have hpos := Nat.two_pow_pos n
  omega

end Numbers

/-! ### Each command after its checks -/

section Commands

variable {s : State} {ra rb rc : Reg} (rd : Reg) {n : Nat}

theorem exec_gcd_of_valid (ha : s.isValid ra = true) (hb : s.isValid rb = true) :
    exec (.gcd rd ra rb) s = .next (s.writeBack rd (Nat.gcd (s.reg ra) (s.reg rb))) :=
  congrArg _ (State.withSources_of_valid ha hb _)

theorem exec_modinv_of_coprime (ha : s.isValid ra = true) (hc : s.isValid rc = true) (hm : s.reg rc ≠ 0)
    (hcop : Nat.gcd (s.reg ra) (s.reg rc) = 1) :
    exec (.modinv rd ra rc) s = .next (s.writeBack rd (modInverse (s.reg ra) (s.reg rc))) := by
  rw [exec_modinv_of_valid rd ha hc, State.withModulus_of_pos hm,
    if_neg (not_not.2 ((gcd_mod_left _ _).trans hcop))]

theorem exec_modinv_of_not_coprime (ha : s.isValid ra = true) (hc : s.isValid rc = true) (hm : s.reg rc ≠ 0)
    (hcop : Nat.gcd (s.reg ra) (s.reg rc) ≠ 1) : exec (.modinv rd ra rc) s = .next (s.raise .noInverse) := by
  rw [exec_modinv_of_valid rd ha hc, State.withModulus_of_pos hm,
    if_pos ((gcd_mod_left _ _).trans_ne hcop)]

theorem exec_randb_of_le (hn : n ≤ s.width) :
    exec (.randb rd n) s = .next (s.tick.writeBack rd (s.drawn 0 (2 ^ n - 1))) :=
  congrArg _ (if_neg (Nat.not_lt.2 hn))

theorem exec_randb_of_lt (hn : s.width < n) : exec (.randb rd n) s = .next (s.raise .invalidInput) :=
  congrArg _ (if_pos hn)

theorem exec_randc_of_le (hpos : 1 ≤ n) (hn : n ≤ s.width) :
    exec (.randc rd n) s = .next (s.tick.writeBack rd (s.drawn 0 (2 ^ n - 1) ||| 2 ^ (n - 1) ||| 1)) :=
  congrArg _ (if_neg (by omega))

theorem exec_randc_of_out (hn : n = 0 ∨ s.width < n) :
    exec (.randc rd n) s = .next (s.raise .invalidInput) :=
  congrArg _ (if_pos hn)

/-- The draw on the way shows nowhere but in the index of free values. -/
theorem wroteReg_tick_writeBack (h : s.abortReq = false) (v : Nat) : WroteReg s (s.tick.writeBack rd v) rd v :=
  wroteReg_writeBack (s := s.tick) h

end Commands

/-! ### The statements -/

/-- Settles O44: the value written is `Nat.gcd` of the operands. -/
theorem gcdWritesTheGreatestDivisor : Obligations.GcdWritesTheGreatestDivisor := by
  intro s rd ra rb hreq ha hb
  exact ⟨_, _, exec_gcd_of_valid rd ha hb, wroteReg_writeBack hreq, Nat.gcd_dvd_left _ _, Nat.gcd_dvd_right _ _,
    fun _ hka hkb => Nat.dvd_gcd hka hkb⟩

/-- Settles O45: extended Euclid answers an inverse below m, and a coprime factor can be cancelled, so there is no
other. -/
theorem modinvWritesTheInverse : Obligations.ModinvWritesTheInverse := by
  refine ⟨fun s rd ra rc hreq ha hc hm hcop => ?_, fun s rd ra rc _ ha hc hm hcop => ?_⟩
  · obtain ⟨hlt, hinv⟩ :=
      modInverse_spec (s.reg ra) (s.reg rc) (Nat.pos_of_ne_zero hm) ((gcd_mod_left _ _).trans hcop)
    exact ⟨_, _, exec_modinv_of_coprime rd ha hc hm hcop, wroteReg_writeBack hreq, hlt, hinv,
      fun v' hlt' hinv' => eq_of_mul_mod_eq hcop hlt hlt' (hinv'.trans hinv.symm)⟩
  · exact ⟨_, exec_modinv_of_not_coprime rd ha hc hm hcop, State.endedWith_complete s .noInverse⟩

/-- Settles O46: square-and-multiply computes the reduced power. -/
theorem modpowWritesThePower : Obligations.ModpowWritesThePower := by
  intro s rd ra rb rc hreq ha hb hc hm
  refine ⟨_, exec_modpow_of_valid rd ha hb hc, ?_⟩
  rw [powMod_eq]
  exact wroteReg_withModulus hreq hm

/-- Settles O47: the value written is the draw, which its range bounds. -/
theorem randbWritesABoundedDraw : Obligations.RandbWritesABoundedDraw := by
  refine ⟨fun s rd n hreq hn => ?_, fun s rd n hn => ?_⟩
  · exact ⟨_, _, exec_randb_of_le rd hn, wroteReg_tick_writeBack rd hreq _, s.drawn_lt_two_pow n⟩
  · exact ⟨_, exec_randb_of_lt rd hn, State.endedWith_complete s .invalidInput⟩

/-- Settles O48: the value written is the draw with its top and bottom bit forced to 1. -/
theorem randcWritesAnOddCandidate : Obligations.RandcWritesAnOddCandidate := by
  refine ⟨fun s rd n hreq hpos hn => ?_, fun s rd n hn => ?_⟩
  · exact ⟨_, _, exec_randc_of_le rd hpos hn, wroteReg_tick_writeBack rd hreq _,
      candidate_spec hpos (s.drawn_lt_two_pow n)⟩
  · exact ⟨_, exec_randc_of_out rd hn, State.endedWith_complete s .invalidInput⟩

end Sys2Proof.Machine

/-! Proofs of the statements about the primality commands (43_primality.md): the table and trial division as facts
about primes, one Miller-Rabin round as plain arithmetic, and the end of each command. -/

namespace Sys2Proof.Machine

/-! ### The table and trial division -/

section SmallPrimes

variable {n p : Nat}

/-- No m from 2 to 23 whose square is at most p divides p. Below 24^2 these are all the possible least factors. -/
def passesTrialDivision (p : Nat) : Bool := decide (2 ≤ p ∧ ∀ m : Nat, m < 24 → ¬ (2 ≤ m ∧ m * m ≤ p ∧ m ∣ p))

theorem passesTrialDivision_iff_prime (hp : p < 24 * 24) : passesTrialDivision p = true ↔ p.Prime := by
  rw [passesTrialDivision, decide_eq_true_iff, Nat.prime_def_le_sqrt]
  refine and_congr_right fun _ => ⟨fun h m h2 hm hdvd => ?_, fun h m _ hm => ?_⟩
  · have hsq : m * m ≤ p := Nat.le_sqrt.1 hm
    exact h m (Nat.mul_self_lt_mul_self_iff.1 (hsq.trans_lt hp)) ⟨h2, hsq, hdvd⟩
  · obtain ⟨h2, hsq, hdvd⟩ := hm
    exact h m h2 (Nat.le_sqrt.2 hsq) hdvd

theorem smallPrimes_eq_filter : smallPrimes = (List.range 542).filter passesTrialDivision := by decide +kernel

theorem mem_smallPrimes_iff : p ∈ smallPrimes ↔ p.Prime ∧ p ≤ 541 := by
  rw [smallPrimes_eq_filter, List.mem_filter, List.mem_range, and_comm]
  constructor
  · rintro ⟨hpass, hlt⟩
    exact ⟨(passesTrialDivision_iff_prime (by omega)).1 hpass, by omega⟩
  · rintro ⟨hprime, hle⟩
    exact ⟨(passesTrialDivision_iff_prime (by omega)).2 hprime, by omega⟩

theorem smallestSmallDivisor_eq_none_iff :
    smallestSmallDivisor n = none ↔ ∀ p, p.Prime → p ≤ 541 → ¬ p ∣ n := by
  simp only [smallestSmallDivisor, List.find?_eq_none, mem_smallPrimes_iff, decide_eq_true_eq, and_imp,
    Nat.dvd_iff_mod_eq_zero]

/-- The divisor found is a table prime, and n is one itself exactly when it is that divisor. -/
theorem smallestSmallDivisor_some_spec (h : smallestSmallDivisor n = some p) :
    p ∈ smallPrimes ∧ p ∣ n ∧ (n = p ↔ n ∈ smallPrimes) := by
  have hmem : p ∈ smallPrimes := List.mem_of_find?_eq_some h
  have hdvd : p ∣ n := Nat.dvd_of_mod_eq_zero (by simpa using List.find?_some h)
  refine ⟨hmem, hdvd, fun heq => heq ▸ hmem, fun hn => ?_⟩
  exact ((Nat.prime_dvd_prime_iff_eq (mem_smallPrimes_iff.1 hmem).1 (mem_smallPrimes_iff.1 hn).1).1 hdvd).symm

theorem exists_smallestSmallDivisor (h : ∃ p ∈ smallPrimes, p ∣ n) : ∃ p, smallestSmallDivisor n = some p := by
  obtain ⟨p, hp, hdvd⟩ := h
  obtain ⟨hprime, hle⟩ := mem_smallPrimes_iff.1 hp
  exact Option.ne_none_iff_exists'.1 fun hnone => smallestSmallDivisor_eq_none_iff.1 hnone p hprime hle hdvd

theorem smallestSmallDivisor_of_prime (hp : n.Prime) (hmem : n ∉ smallPrimes) : smallestSmallDivisor n = none :=
  smallestSmallDivisor_eq_none_iff.2 fun _ hq hle hdvd =>
    hmem (mem_smallPrimes_iff.2 ⟨hp, (Nat.prime_dvd_prime_iff_eq hq hp).1 hdvd ▸ hle⟩)

/-- What trial division leaves undecided is 1 or an odd number past the table (43_primality.md R162). -/
theorem odd_and_lt_of_smallestSmallDivisor_none (h : smallestSmallDivisor n = none) (hn : n ≠ 1) :
    n % 2 = 1 ∧ 541 < n := by
  rw [smallestSmallDivisor_eq_none_iff] at h
  have hodd : ¬ 2 ∣ n := h 2 Nat.prime_two (by decide)
  have hlarge : ¬ n.minFac ≤ 541 := fun hle => h _ (Nat.minFac_prime hn) hle (Nat.minFac_dvd n)
  have hle : n.minFac ≤ n := Nat.minFac_le (by omega)
  omega

end SmallPrimes

/-! ### One Miller-Rabin round in plain arithmetic -/

section Round

variable {n a : Nat}

/-- Halving keeps the product 2^r * d, and enough halvings leave an odd d. -/
theorem splitLoop_spec (fuel : Nat) : ∀ r d, d ≠ 0 → d < 2 ^ fuel →
    2 ^ (splitLoop fuel r d).1 * (splitLoop fuel r d).2 = 2 ^ r * d ∧ (splitLoop fuel r d).2 % 2 = 1 := by
  induction fuel with
  | zero => intro r d hd hlt; omega
  | succ fuel ih =>
    intro r d hd hlt
    unfold splitLoop
    split
    · next heven =>
      obtain ⟨hprod, hodd⟩ := ih (r + 1) (d / 2) (by omega) (by rw [pow_succ] at hlt; omega)
      refine ⟨hprod.trans ?_, hodd⟩
      rw [pow_succ, mul_assoc, Nat.mul_div_cancel' (Nat.dvd_of_mod_eq_zero heven)]
    · next hodd => exact ⟨rfl, by omega⟩

/-- split(n) is the decomposition of R161. -/
theorem split_spec (hn : 2 ≤ n) : n - 1 = 2 ^ (split n).1 * (split n).2 ∧ (split n).2 % 2 = 1 := by
  obtain ⟨hprod, hodd⟩ := splitLoop_spec _ 0 (n - 1) (by omega) (lt_two_pow_bitlen (n - 1))
  exact ⟨by rw [split, hprod, pow_zero, one_mul], hodd⟩

/-- A power of two and an odd factor are determined by their product. -/
theorem two_pow_mul_odd_inj {r r' d d' : Nat} (hd : d % 2 = 1) (hd' : d' % 2 = 1)
    (h : 2 ^ r * d = 2 ^ r' * d') : r = r' ∧ d = d' := by
  have hcop : ∀ k {e : Nat}, e % 2 = 1 → Nat.Coprime (2 ^ k) e := fun k _ he =>
    (Nat.coprime_two_left.2 (Nat.odd_iff.2 he)).pow_left k
  have hpow : 2 ^ r = 2 ^ r' := Nat.dvd_antisymm
    ((hcop r hd').dvd_of_dvd_mul_right (h ▸ Nat.dvd_mul_right _ _))
    ((hcop r' hd).dvd_of_dvd_mul_right (h ▸ Nat.dvd_mul_right _ _))
  rw [hpow] at h
  exact ⟨Nat.pow_right_injective le_rfl hpow, Nat.eq_of_mul_eq_mul_left (Nat.two_pow_pos r') h⟩

/-- The loop answers 1 exactly when one of its squarings is n - 1. -/
theorem sprpLoop_eq_one_iff (n count : Nat) : ∀ x,
    sprpLoop n count x = 1 ↔ ∃ j < count, x ^ 2 ^ (j + 1) % n = n - 1 := by
  induction count with
  | zero => intro x; simp [sprpLoop]
  | succ count ih =>
    intro x
    have hstep : ∀ j, (x * x % n) ^ 2 ^ (j + 1) % n = x ^ 2 ^ (j + 1 + 1) % n := fun j => by
      rw [← Nat.pow_mod, ← pow_two, ← pow_mul, ← pow_succ']
    have hfirst : x ^ 2 ^ (0 + 1) % n = x * x % n := by rw [zero_add, pow_one, pow_two]
    unfold sprpLoop
    split
    · next h => exact ⟨fun _ => ⟨0, Nat.succ_pos count, hfirst.trans h⟩, fun _ => rfl⟩
    · next h =>
      rw [ih, Nat.exists_lt_succ_left, hfirst, or_iff_right h]
      simp only [hstep]

theorem sprp_eq (n a : Nat) : sprp n a =
    if a ^ (split n).2 % n = 1 ∨ a ^ (split n).2 % n = n - 1 then 1
    else sprpLoop n ((split n).1 - 1) (a ^ (split n).2 % n) := by
  rw [← powMod_eq]
  rfl

/-- The whole round, at the decomposition split(n): the first power and the r - 1 squarings after it. -/
theorem sprp_eq_one_iff_split (n a : Nat) (hr : 0 < (split n).1) :
    sprp n a = 1 ↔ a ^ (split n).2 % n = 1 ∨
      ∃ j < (split n).1, a ^ (2 ^ j * (split n).2) % n = n - 1 := by
  obtain ⟨r, hr⟩ := Nat.exists_eq_succ_of_ne_zero hr.ne'
  have hpow : ∀ j, (a ^ (split n).2 % n) ^ 2 ^ (j + 1) % n = a ^ (2 ^ (j + 1) * (split n).2) % n := fun j => by
    rw [← Nat.pow_mod, ← pow_mul, mul_comm]
  rw [sprp_eq, hr, Nat.exists_lt_succ_left, pow_zero, one_mul, ← or_assoc]
  split
  · next h => exact ⟨fun _ => .inl h, fun _ => rfl⟩
  · next h =>
    rw [or_iff_right h, Nat.succ_sub_one, sprpLoop_eq_one_iff]
    simp only [hpow]

/-- sprp is the round of R161 in plain arithmetic, for every odd n from 3 on. -/
theorem sprp_eq_one_iff (hn : 3 ≤ n) (hodd : n % 2 = 1) : sprp n a = 1 ↔ RoundPasses n a := by
  obtain ⟨hsplit, hd⟩ := split_spec (n := n) (by omega)
  have hr : 0 < (split n).1 := by
    rw [Nat.pos_iff_ne_zero]
    intro h0
    rw [h0, pow_zero, one_mul] at hsplit
    omega
  rw [sprp_eq_one_iff_split n a hr]
  refine ⟨fun h => ⟨_, _, hsplit, hd, h⟩, ?_⟩
  rintro ⟨r, d, hrd, hd', h⟩
  obtain ⟨rfl, rfl⟩ := two_pow_mul_odd_inj hd hd' (hsplit.symm.trans hrd)
  exact h

theorem sprp_ne_zero_iff (n a : Nat) : sprp n a ≠ 0 ↔ sprp n a = 1 := by
  have hle := sprp_le_one n a
  omega

/-- Where 1 has no square root but itself and -1, a 2^r-th root of 1 is 1 or has a power -1 on the way. -/
theorem eq_one_or_pow_eq_neg_one {R : Type*} [Ring R] [NoZeroDivisors R] (x : R) (r : Nat) (h : x ^ 2 ^ r = 1) :
    x = 1 ∨ ∃ j < r, x ^ 2 ^ j = -1 := by
  induction r with
  | zero => exact .inl (by simpa using h)
  | succ r ih =>
    rw [pow_succ, pow_mul, sq_eq_one_iff] at h
    obtain hone | hneg := h
    · exact (ih hone).imp_right fun ⟨j, hj, e⟩ => ⟨j, hj.trans (Nat.lt_succ_self r), e⟩
    · exact .inr ⟨r, Nat.lt_succ_self r, hneg⟩

/-- Every round of a prime passes (43_primality.md R163): by Fermat a^(n-1) is 1, and modulo a prime 1 has no other
square roots than 1 and -1. -/
theorem roundPasses_of_prime (hp : n.Prime) (ha : ¬ n ∣ a) : RoundPasses n a := by
  have : Fact n.Prime := ⟨hp⟩
  have htwo := hp.two_le
  obtain ⟨hsplit, hd⟩ := split_spec htwo
  refine ⟨_, _, hsplit, hd, ?_⟩
  have hfermat : ((a : ZMod n) ^ (split n).2) ^ 2 ^ (split n).1 = 1 := by
    rw [← pow_mul, mul_comm, ← hsplit]
    exact ZMod.pow_card_sub_one_eq_one (by rwa [Ne, ZMod.natCast_eq_zero_iff])
  have hmod : ∀ {e v : Nat}, v < n → (a : ZMod n) ^ e = v → a ^ e % n = v := fun hv h => by
    rw [← Nat.cast_pow, ZMod.natCast_eq_natCast_iff', Nat.mod_eq_of_lt hv] at h
    exact h
  refine (eq_one_or_pow_eq_neg_one _ _ hfermat).imp (fun hone => ?_) fun ⟨j, hj, hneg⟩ => ⟨j, hj, ?_⟩
  · exact hmod (by omega) (hone.trans Nat.cast_one.symm)
  · refine hmod (by omega) ?_
    rw [mul_comm, pow_mul, hneg, Nat.cast_pred (by omega), ZMod.natCast_self, zero_sub]

end Round

/-! ### Each command after its checks -/

section Commands

variable {s : State} {ra rb : Reg} (rd : Reg) {p : Nat}

theorem exec_trialdiv_of_some (ha : s.isValid ra = true) (h : smallestSmallDivisor (s.reg ra) = some p) :
    exec (.trialdiv rd ra) s = .next (s.writeBack rd (if s.reg ra = p then 1 else 0)) :=
  congrArg _ ((State.withSource_of_valid ha _).trans (by rw [h]))

theorem exec_trialdiv_of_none (ha : s.isValid ra = true) (h : smallestSmallDivisor (s.reg ra) = none) :
    exec (.trialdiv rd ra) s = .next (s.writeBack rd 2) :=
  congrArg _ ((State.withSource_of_valid ha _).trans (by rw [h]))

theorem exec_mrround_of_mem (ha : s.isValid ra = true) (hb : s.isValid rb = true) (hn : 5 ≤ s.reg ra)
    (hodd : s.reg ra % 2 = 1) (hlo : 2 ≤ s.reg rb) (hhi : s.reg rb ≤ s.reg ra - 2) :
    exec (.mrround rd ra rb) s = .next (s.writeBack rd (sprp (s.reg ra) (s.reg rb))) :=
  congrArg _ ((State.withSources_of_valid ha hb _).trans ((if_neg (by omega)).trans (if_neg (by omega))))

theorem exec_mrround_of_out (ha : s.isValid ra = true) (hb : s.isValid rb = true)
    (h : s.reg ra < 5 ∨ s.reg ra % 2 = 0 ∨ s.reg rb < 2 ∨ s.reg ra - 2 < s.reg rb) :
    exec (.mrround rd ra rb) s = .next (s.raise .invalidInput) := by
  refine congrArg _ ((State.withSources_of_valid ha hb _).trans ?_)
  by_cases hn : s.reg ra < 5 ∨ s.reg ra % 2 = 0
  · exact if_pos hn
  · exact (if_neg hn).trans (if_pos (by omega))

/-- A small factor decides PRIMETEST without a draw (43_primality.md R164, step 1). -/
theorem exec_primetest_of_some (ha : s.isValid ra = true) (h : smallestSmallDivisor (s.reg ra) = some p) :
    exec (.primetest rd ra) s = .next (s.writeBack rd (if s.reg ra = p then 1 else 0)) :=
  congrArg _ ((State.withSource_of_valid ha _).trans (by rw [h]))

theorem exec_primetest_of_one (ha : s.isValid ra = true) (h : s.reg ra = 1) :
    exec (.primetest rd ra) s = .next (s.writeBack rd 0) :=
  congrArg _ ((State.withSource_of_valid ha _).trans (by rw [h]; rfl))

/-- The answer of PRIMETEST for an undecided number, with no abort requested (43_primality.md R164, step 2): 1 exactly
when the rounds of all drawn witnesses pass, and then after one draw a round. -/
theorem exec_primetest_of_none (hreq : s.abortReq = false) (ha : s.isValid ra = true)
    (h : smallestSmallDivisor (s.reg ra) = none) (hn : s.reg ra ≠ 1) :
    ∃ d c v, exec (.primetest rd ra) s = .next (((s.skipDraws d).setChoices c).writeBack rd v) ∧
      (v = 0 ∨ v = 1) ∧
      (v = 1 ↔ ∀ k < s.mrk.toNat, RoundPasses (s.reg ra) ((s.skipDraws k).drawn 2 (s.reg ra - 2))) ∧
      (v = 1 → d = s.mrk.toNat) := by
  obtain ⟨hodd, hlt⟩ := odd_and_lt_of_smallestSmallDivisor_none h hn
  have hexec : exec (.primetest rd ra) s = .next (match rounds (s.reg ra) s.mrk.toNat s with
      | (.aborted, t) => t.raise .aborted
      | (.composite, t) => t.writeBack rd 0
      | (.probablyPrime, t) => t.writeBack rd 1) := by
    refine congrArg _ ((State.withSource_of_valid ha _).trans ?_)
    rw [h]
    exact (if_neg (by omega)).trans (if_neg (by omega))
  obtain ⟨d, c, hstate, habort, hprime, hcomposite⟩ := rounds_cases (s.reg ra) s.mrk.toNat s
  simp only [← sprp_eq_one_iff (by omega : 3 ≤ s.reg ra) hodd, ← sprp_ne_zero_iff, hexec]
  generalize rounds (s.reg ra) s.mrk.toNat s = r at *
  obtain ⟨verdict, t⟩ := r
  obtain rfl : t = _ := hstate
  cases verdict with
  | aborted => exact absurd (hreq.symm.trans (habort rfl)) Bool.false_ne_true
  | probablyPrime =>
    obtain ⟨hdraws, hpass⟩ := hprime rfl
    exact ⟨d, c, 1, rfl, .inr rfl, iff_of_true rfl hpass, fun _ => hdraws⟩
  | composite =>
    obtain ⟨k, hk, _, hzero⟩ := hcomposite rfl
    exact ⟨d, c, 0, rfl, .inl rfl, iff_of_false Nat.zero_ne_one fun hall => hall k hk hzero,
      fun hone => absurd hone Nat.zero_ne_one⟩

/-- The draws on the way show nowhere but in the indices of free values. -/
theorem wroteReg_skipDraws_writeBack (h : s.abortReq = false) (d c v : Nat) :
    WroteReg s (((s.skipDraws d).setChoices c).writeBack rd v) rd v :=
  wroteReg_writeBack (s := (s.skipDraws d).setChoices c) h

theorem draws_skipDraws_writeBack (h : s.abortReq = false) (d c v : Nat) :
    (((s.skipDraws d).setChoices c).writeBack rd v).draws = s.draws + d := by
  rw [State.writeBack_of_not (s := (s.skipDraws d).setChoices c) h]
  rfl

/-- Every draw of PRIMETEST lies in the witness range of an undecided number. -/
theorem drawn_witness_mem {n : Nat} (s : State) (hn : 4 ≤ n) : 2 ≤ s.drawn 2 (n - 2) ∧ s.drawn 2 (n - 2) ≤ n - 2 :=
  s.drawn_mem (by omega)

theorem exec_primetest_of_mem (ha : s.isValid ra = true) (h : s.reg ra ∈ smallPrimes) :
    exec (.primetest rd ra) s = .next (s.writeBack rd 1) := by
  obtain ⟨p, hp⟩ := exists_smallestSmallDivisor ⟨_, h, dvd_rfl⟩
  obtain ⟨_, _, heq⟩ := smallestSmallDivisor_some_spec hp
  rw [exec_primetest_of_some rd ha hp, if_pos (heq.2 h)]

theorem exec_primetest_of_dvd (ha : s.isValid ra = true) (hmem : s.reg ra ∉ smallPrimes)
    (h : ∃ p ∈ smallPrimes, p ∣ s.reg ra) : exec (.primetest rd ra) s = .next (s.writeBack rd 0) := by
  obtain ⟨p, hp⟩ := exists_smallestSmallDivisor h
  obtain ⟨_, _, heq⟩ := smallestSmallDivisor_some_spec hp
  rw [exec_primetest_of_some rd ha hp, if_neg (mt heq.1 hmem)]

/-- A prime past the table is undecided by trial division, and passes every round. -/
theorem exec_primetest_of_prime (hreq : s.abortReq = false) (ha : s.isValid ra = true) (hp : (s.reg ra).Prime)
    (hmem : s.reg ra ∉ smallPrimes) :
    ∃ d c, exec (.primetest rd ra) s = .next (((s.skipDraws d).setChoices c).writeBack rd 1) := by
  have hnone := smallestSmallDivisor_of_prime hp hmem
  obtain ⟨hodd, hlt⟩ := odd_and_lt_of_smallestSmallDivisor_none hnone hp.ne_one
  obtain ⟨d, c, v, hexec, _, hv, _⟩ := exec_primetest_of_none rd hreq ha hnone hp.ne_one
  obtain rfl : v = 1 := hv.2 fun k _ => by
    obtain ⟨hlo, hhi⟩ := drawn_witness_mem (s.skipDraws k) (by omega : 4 ≤ s.reg ra)
    exact roundPasses_of_prime hp (Nat.not_dvd_of_pos_of_lt (by omega) (by omega))
  exact ⟨d, c, hexec⟩

end Commands

/-! ### The statements -/

/-- Settles O49: below 542 the table is what trial division by 2 to 23 leaves. -/
theorem smallPrimesAreTheFirstHundred : Obligations.SmallPrimesAreTheFirstHundred := by
  refine ⟨rfl, ?_, fun _ => mem_smallPrimes_iff⟩
  rw [smallPrimes_eq_filter]
  exact List.pairwise_lt_range.filter _

/-- Settles O50: the divisor found, or that there is none, decides the answer. -/
theorem trialdivClassifies : Obligations.TrialdivClassifies := by
  intro s rd ra hreq ha
  rw [← mem_smallPrimes_iff, ← smallestSmallDivisor_eq_none_iff]
  cases h : smallestSmallDivisor (s.reg ra) with
  | none =>
    have hmem : s.reg ra ∉ smallPrimes := fun hmem =>
      smallestSmallDivisor_eq_none_iff.1 h _ (mem_smallPrimes_iff.1 hmem).1 (mem_smallPrimes_iff.1 hmem).2 dvd_rfl
    exact ⟨_, _, exec_trialdiv_of_none rd ha h, wroteReg_writeBack hreq, by simp [hmem], by simp, le_rfl⟩
  | some p =>
    obtain ⟨_, _, heq⟩ := smallestSmallDivisor_some_spec h
    refine ⟨_, _, exec_trialdiv_of_some rd ha h, wroteReg_writeBack hreq, ?_, ?_, ?_⟩
    · rw [← heq]; simp
    · split <;> simp
    · split <;> simp

/-- Settles O51: in range the value written is `sprp`, which is the round in plain arithmetic. -/
theorem mrroundRunsOneRound : Obligations.MrroundRunsOneRound := by
  refine ⟨fun s rd ra rb hreq ha hb hn hodd hlo hhi => ?_, fun s rd ra rb ha hb hout => ?_⟩
  · have hle := sprp_le_one (s.reg ra) (s.reg rb)
    exact ⟨_, _, exec_mrround_of_mem rd ha hb hn hodd hlo hhi, wroteReg_writeBack hreq,
      sprp_eq_one_iff (by omega) hodd, by omega⟩
  · exact ⟨_, exec_mrround_of_out rd ha hb hout, State.endedWith_complete s .invalidInput⟩

/-- Settles O52: trial division decides all but 1 and the undecided numbers, and for those the rounds answer. -/
theorem primetestAnswersEveryNumber : Obligations.PrimetestAnswersEveryNumber := by
  intro s rd ra hreq ha
  rw [← smallestSmallDivisor_eq_none_iff]
  cases h : smallestSmallDivisor (s.reg ra) with
  | some p =>
    obtain ⟨hmem, hdvd, _⟩ := smallestSmallDivisor_some_spec h
    have hne : s.reg ra ≠ 1 := fun hone => (mem_smallPrimes_iff.1 hmem).1.ne_one (Nat.dvd_one.1 (hone ▸ hdvd))
    exact ⟨_, _, exec_primetest_of_some rd ha h, wroteReg_writeBack hreq, by split <;> simp,
      fun hone => absurd hone hne, nofun⟩
  | none =>
    by_cases hone : s.reg ra = 1
    · exact ⟨_, _, exec_primetest_of_one rd ha hone, wroteReg_writeBack hreq, .inl rfl, fun _ => rfl,
        fun _ hne => absurd hone hne⟩
    · obtain ⟨hodd, hlt⟩ := odd_and_lt_of_smallestSmallDivisor_none h hone
      obtain ⟨d, c, v, hexec, hv, hrounds, hdraws⟩ := exec_primetest_of_none rd hreq ha h hone
      refine ⟨_, v, hexec, wroteReg_skipDraws_writeBack rd hreq d c v, hv, fun h1 => absurd h1 hone, fun _ _ =>
        ⟨fun k => drawn_witness_mem _ (by omega), hrounds, fun h1 => ?_⟩⟩
      rw [draws_skipDraws_writeBack rd hreq, hdraws h1]

/-- Settles O53: trial division answers the table primes, the other multiples of one and 0, and past the table a prime
passes every round. -/
theorem primetestFactsForEveryDraw : Obligations.PrimetestFactsForEveryDraw := by
  intro s rd ra hreq ha
  have htable : s.reg ra ∈ smallPrimes → ∃ t, exec (.primetest rd ra) s = .next t ∧ WroteReg s t rd 1 :=
    fun hmem => ⟨_, exec_primetest_of_mem rd ha hmem, wroteReg_writeBack hreq⟩
  have hfactor : s.reg ra ∉ smallPrimes → (∃ p ∈ smallPrimes, p ∣ s.reg ra) →
      ∃ t, exec (.primetest rd ra) s = .next t ∧ WroteReg s t rd 0 :=
    fun hmem hdvd => ⟨_, exec_primetest_of_dvd rd ha hmem hdvd, wroteReg_writeBack hreq⟩
  refine ⟨fun hp => ?_, htable, hfactor, fun hle => ?_⟩
  · by_cases hmem : s.reg ra ∈ smallPrimes
    · exact htable hmem
    · obtain ⟨d, c, hexec⟩ := exec_primetest_of_prime rd hreq ha hp hmem
      exact ⟨_, hexec, wroteReg_skipDraws_writeBack rd hreq d c 1⟩
  · obtain hzero | hone := Nat.le_one_iff_eq_zero_or_eq_one.1 hle
    · rw [hzero] at hfactor
      exact hfactor (by decide) ⟨2, by decide, by decide⟩
    · exact ⟨_, exec_primetest_of_one rd ha hone, wroteReg_writeBack hreq⟩

end Sys2Proof.Machine

/-! Proofs of the statements about the converters and the block codec (44_codec.md): byte strings as numbers, the
checks of the commands, the block loop's end decided by the function on byte strings, and the round trip. -/

namespace Sys2Proof.Machine

/-! ### Byte strings as numbers (00_scope.md R11, 44_codec.md R181) -/

section ByteStrings

variable {v len : Nat} {mode : Mode}

theorem two_pow_eight_mul (k : Nat) : 2 ^ (8 * k) = 256 ^ k := by
  rw [pow_mul]
  norm_num

theorem two_pow_le_iff_lt_bitlen (v k : Nat) : 2 ^ k ≤ v ↔ k < bitlen v := by
  rw [← not_lt, ← bitlen_le_iff, not_le]

/-- The most significant byte of a byte string comes first. -/
theorem beToInt_cons (b : Byte) (bs : List Byte) : beToInt (b :: bs) = b.toNat * 256 ^ bs.length + beToInt bs := by
  induction bs using List.reverseRecOn with
  | nil => simp [beToInt]
  | append_singleton bs c ih =>
    rw [← List.cons_append, beToInt_append_singleton, beToInt_append_singleton, ih, List.length_append,
      List.length_singleton, pow_succ]
    ring

/-- A byte string without a leading zero byte needs all of its bytes. -/
theorem two_pow_le_beToInt {b : Byte} (hb : b ≠ 0) (bs : List Byte) : 2 ^ (8 * bs.length) ≤ beToInt (b :: bs) := by
  have hpos : 0 < b.toNat := Nat.pos_of_ne_zero fun h => hb (BitVec.toNat_inj.1 h)
  rw [beToInt_cons, two_pow_eight_mul]
  exact (Nat.le_mul_of_pos_left _ hpos).trans (Nat.le_add_right _ _)

/-- The integer of a region of IN_BUF is the sum of its bytes times their powers of 256. -/
theorem beToInt_readIn (s : State) (off len : Nat) : beToInt (s.readIn off len) =
    ∑ i ∈ Finset.range len, (s.inByte (off + i)).toNat * 256 ^ (len - 1 - i) := by
  induction len with
  | zero => rfl
  | succ n ih =>
    have hlast : s.readIn (off + n) 1 = [s.inByte (off + n)] := rfl
    rw [State.readIn_add, hlast, beToInt_append_singleton, ih, Finset.sum_range_succ, Finset.sum_mul]
    congr 1
    · refine Finset.sum_congr rfl fun i hi => ?_
      have hexp : n + 1 - 1 - i = n - 1 - i + 1 := by
        have := Finset.mem_range.1 hi
        omega
      rw [hexp, pow_succ, mul_assoc]
    · simp

theorem intToBe_succ (v len : Nat) : intToBe v (len + 1) = BitVec.ofNat 8 (v / 256 ^ len) :: intToBe v len := by
  induction len generalizing v with
  | zero => simp [intToBe]
  | succ n ih =>
    rw [intToBe, ih, List.cons_append, Nat.div_div_eq_div_mul, ← pow_succ']
    rfl

theorem intToBe_getD {k : Nat} (hk : k < len) (d : Byte) :
    ((intToBe v len).getD k d).toNat = v / 256 ^ (len - 1 - k) % 256 := by
  induction len generalizing k with
  | zero => omega
  | succ n ih =>
    rw [intToBe_succ]
    cases k with
    | zero => simp
    | succ k =>
      rw [List.getD_cons_succ, ih (by omega)]
      congr 3
      omega

/-- int_to_be undoes be_to_int at the length of the byte string. -/
theorem intToBe_beToInt (bs : List Byte) : intToBe (beToInt bs) bs.length = bs := by
  induction bs using List.reverseRecOn with
  | nil => rfl
  | append_singleton bs b ih =>
    have hlt := b.isLt
    have hdiv : (beToInt bs * 256 + b.toNat) / 256 = beToInt bs := by omega
    have hmod : BitVec.ofNat 8 (beToInt bs * 256 + b.toNat) = b := by
      apply BitVec.eq_of_toNat_eq
      rw [BitVec.toNat_ofNat]
      omega
    rw [List.length_append, List.length_singleton, intToBe, beToInt_append_singleton, hdiv, hmod, ih]

/-- How many bytes v needs without leading zeros: ceil(bitlen(v) / 8). -/
def byteLength (v : Nat) : Nat := (bitlen v + 7) / 8

theorem byteLength_le_iff (v k : Nat) : byteLength v ≤ k ↔ v < 2 ^ (8 * k) := by
  rw [← bitlen_le_iff, byteLength]
  omega

/-- Without its leading zero bytes a declared width is the byte length of the value. -/
theorem strip0_intToBe (h : v < 2 ^ (8 * len)) : strip0 (intToBe v len) = intToBe v (byteLength v) := by
  induction len with
  | zero => rw [Nat.le_zero.1 ((byteLength_le_iff v 0).2 h)]; rfl
  | succ n ih =>
    rw [intToBe_succ]
    by_cases hn : v < 2 ^ (8 * n)
    · have hhead : v / 256 ^ n = 0 := Nat.div_eq_of_lt (two_pow_eight_mul n ▸ hn)
      rw [hhead, ← ih hn]
      rfl
    · have hlen : byteLength v = n + 1 :=
        le_antisymm ((byteLength_le_iff v _).2 h) (Nat.lt_of_not_le fun hle => hn ((byteLength_le_iff v n).1 hle))
      have hpos : 0 < v / 256 ^ n := Nat.div_pos (two_pow_eight_mul n ▸ Nat.le_of_not_lt hn) (by positivity)
      have hlt : v / 256 ^ n < 256 := by
        rw [Nat.div_lt_iff_lt_mul (by positivity), ← pow_succ', ← two_pow_eight_mul]
        exact h
      have hhead : BitVec.ofNat 8 (v / 256 ^ n) ≠ 0 := fun h0 => by
        have := congrArg BitVec.toNat h0
        rw [BitVec.toNat_ofNat, Nat.mod_eq_of_lt hlt] at this
        exact hpos.ne' this
      rw [hlen, intToBe_succ]
      exact List.dropWhile_cons_of_neg (by simpa using hhead)

/-- How many bytes a value takes when a width is declared for it: all of them, or those it needs. -/
def encodedLength (v len : Nat) : Mode → Nat
  | .pad => len
  | .legacy => byteLength v

/-- In both modes a value that fits is encoded as the bytes of its encoded length. -/
theorem encodeBlock_of_lt (h : v < 2 ^ (8 * len)) (mode : Mode) :
    encodeBlock v len mode = some (intToBe v (encodedLength v len mode)) := by
  unfold encodeBlock
  rw [if_pos h]
  cases mode with
  | pad => rfl
  | legacy => exact congrArg some (strip0_intToBe h)

theorem encodeBlock_of_le (h : 2 ^ (8 * len) ≤ v) (mode : Mode) : encodeBlock v len mode = none :=
  if_neg (Nat.not_lt.2 h)

/-- A value that leaves no byte of its width zero in front is encoded in the whole width, in both modes. -/
theorem encodeBlock_full (hlt : v < 2 ^ (8 * (len + 1))) (hle : mode = .legacy → 2 ^ (8 * len) ≤ v) :
    encodeBlock v (len + 1) mode = some (intToBe v (len + 1)) := by
  rw [encodeBlock_of_lt hlt]
  cases mode with
  | pad => rfl
  | legacy =>
    have hlen : byteLength v = len + 1 := le_antisymm ((byteLength_le_iff v _).2 hlt)
      (Nat.lt_of_not_le fun h => absurd ((byteLength_le_iff v len).1 h) (Nat.not_lt.2 (hle rfl)))
    rw [encodedLength, hlen]

end ByteStrings

/-! ### The converters after their checks -/

section Converters

variable {s : State} {ra : Reg}

theorem exec_ldb_of_fits (rd : Reg) (hin : s.arg0.toNat + s.arg1.toNat ≤ s.bufsz) (hw : 8 * s.arg1.toNat ≤ s.width) :
    exec (.ldb rd) s = .next (s.writeBack rd (beToInt (s.readIn s.arg0.toNat s.arg1.toNat))) :=
  congrArg _ ((if_neg (by omega)).trans (if_neg (Nat.not_lt.2 hw)))

theorem exec_ldb_of_past (rd : Reg) (hin : s.bufsz < s.arg0.toNat + s.arg1.toNat) :
    exec (.ldb rd) s = .next (s.raise .bufRange) :=
  congrArg _ (if_pos (by omega))

theorem exec_ldb_of_wide (rd : Reg) (hin : s.arg0.toNat + s.arg1.toNat ≤ s.bufsz) (hw : s.width < 8 * s.arg1.toNat) :
    exec (.ldb rd) s = .next (s.raise .invalidInput) :=
  congrArg _ ((if_neg (by omega)).trans (if_pos hw))

theorem exec_stb_of_past (mode : Mode) (ha : s.isValid ra = true) (hin : s.bufsz < s.arg0.toNat + s.arg1.toNat) :
    exec (.stb ra mode) s = .next (s.raise .bufRange) :=
  congrArg _ ((State.withSource_of_valid ha _).trans (if_pos (by omega)))

theorem exec_stb_of_wide (mode : Mode) (ha : s.isValid ra = true) (hin : s.arg0.toNat + s.arg1.toNat ≤ s.bufsz)
    (hw : 2 ^ (8 * s.arg1.toNat) ≤ s.reg ra) : exec (.stb ra mode) s = .next (s.raise .encodeOverflow) := by
  refine congrArg _ ((State.withSource_of_valid ha _).trans ((if_neg (by omega)).trans ?_))
  rw [encodeBlock_of_le hw]

/-- What STB leaves when nothing stops it: the bytes of the encoded length from OUT_BUF[ARG0] on, and XLEN. -/
theorem exec_stb_of_fits (mode : Mode) (hreq : s.abortReq = false) (ha : s.isValid ra = true)
    (hin : s.arg0.toNat + s.arg1.toNat ≤ s.bufsz) (hw : s.reg ra < 2 ^ (8 * s.arg1.toNat)) :
    let len := encodedLength (s.reg ra) s.arg1.toNat mode
    exec (.stb ra mode) s =
      .next (((s.writeOut s.arg0.toNat (intToBe (s.reg ra) len)).setXLen len).complete none) := by
  refine congrArg _ ((State.withSource_of_valid ha _).trans ((if_neg (by omega)).trans ?_))
  rw [encodeBlock_of_lt hw]
  dsimp only
  rw [State.commit_of_not hreq, intToBe_length]

/-- The bytes of OUT_BUF after a value was written in big-endian order. -/
theorem outByte_writeOut_intToBe (s : State) (off v len a : Nat) :
    ((s.writeOut off (intToBe v len)).outByte a).toNat =
      if off ≤ a ∧ a < off + len then v / 256 ^ (len - 1 - (a - off)) % 256 else (s.outByte a).toNat := by
  rw [State.outByte_writeOut, intToBe_length]
  split
  · next h => exact intToBe_getD (by omega) _
  · rfl

end Converters

/-- Settles O54: the bytes read are the integer's digits to the base 256. -/
theorem ldbLoadsABigEndianInteger : Obligations.LdbLoadsABigEndianInteger := by
  refine ⟨fun s rd hreq hin hw => ⟨_, exec_ldb_of_fits rd hin hw, ?_⟩, fun s rd hin => ?_, fun s rd hin hw => ?_⟩
  · rw [← beToInt_readIn]
    exact wroteReg_writeBack hreq
  · exact ⟨_, exec_ldb_of_past rd hin, State.endedWith_complete s .bufRange⟩
  · exact ⟨_, exec_ldb_of_wide rd hin hw, State.endedWith_complete s .invalidInput⟩

/-- Settles O55: in both modes the bytes stored are the big-endian digits of the encoded length. -/
theorem stbStoresBigEndianBytes : Obligations.StbStoresBigEndianBytes := by
  refine ⟨fun s ra mode hreq ha hin hw => ?_, fun s ra mode ha hin => ?_, fun s ra mode _ ha hin hw => ?_⟩
  · have hexec := exec_stb_of_fits mode hreq ha hin hw
    obtain ⟨hregs, hins, hlen, hprog⟩ := execStb_frame hexec
    exact ⟨_, encodedLength (s.reg ra) s.arg1.toNat mode, hexec, by rintro rfl; rfl, by rintro rfl; rfl,
      outByte_writeOut_intToBe s _ _ _, rfl, hlen, hprog, hregs, hins, rfl, rfl, rfl, rfl, rfl⟩
  · exact ⟨_, exec_stb_of_past mode ha hin, State.endedWith_complete s .bufRange⟩
  · exact ⟨_, exec_stb_of_wide mode ha hin hw, State.endedWith_complete s .encodeOverflow⟩

/-! ### BENC and BDEC as jobs of the block loop (44_codec.md R185 to R187) -/

section Jobs

variable {s : State} {ra rc : Reg} {job : Nat → Nat → BlockJob}

/-- BENC's job for the key (e, n). -/
def encryptJob (mode : Mode) (e n : Nat) : BlockJob :=
  { chunk := plainLen n, width := cipherLen n, exponent := e, modulus := n, mode := mode }

/-- BDEC's job for the key (d, n). -/
def decryptJob (mode : Mode) (d n : Nat) : BlockJob :=
  { chunk := cipherLen n, width := plainLen n, exponent := d, modulus := n, mode := mode }

theorem exec_benc (s : State) (ra rc : Reg) (mode : Mode) :
    exec (.benc ra rc mode) s = .next (s.runBlocks ra rc (encryptJob mode)) := rfl

theorem exec_bdec (s : State) (ra rc : Reg) (mode : Mode) :
    exec (.bdec ra rc mode) s = .next (s.runBlocks ra rc (decryptJob mode)) := rfl

theorem exec_codec_eq_runBlocks {mode : Mode} {i : Instr} (hi : i ∈ [Instr.benc ra rc mode, .bdec ra rc mode])
    (s : State) : ∃ job, exec i s = .next (s.runBlocks ra rc job) := by
  simp only [List.mem_cons, List.not_mem_nil, or_false] at hi
  obtain rfl | rfl := hi
  · exact ⟨_, exec_benc s ra rc mode⟩
  · exact ⟨_, exec_bdec s ra rc mode⟩

theorem plainLen_pos {n : Nat} (hn : 2 ^ 7 ≤ n) : 0 < plainLen n :=
  Nat.div_pos ((two_pow_le_iff_lt_bitlen n 7).1 hn) (by decide)

theorem cipherLen_pos (n : Nat) : 0 < cipherLen n := Nat.succ_pos _

/-- A value reduced by the modulus fits L_ct bytes (44_codec.md R186). -/
theorem mod_lt_two_pow_cipherLen {n : Nat} (hn : 0 < n) (v : Nat) : v % n < 2 ^ (8 * cipherLen n) := by
  refine (Nat.mod_lt v hn).trans ((bitlen_le_iff n _).1 ?_)
  unfold cipherLen plainLen
  omega

theorem runBlocks_of_unwritten (h : s.isValid ra = false ∨ s.isValid rc = false) :
    s.runBlocks ra rc job = s.raise .unwritten :=
  State.withSources_refuses (h.imp_right .inl)

theorem runBlocks_of_long (ha : s.isValid ra = true) (hc : s.isValid rc = true) (hlen : s.bufsz < s.inLen.toNat) :
    s.runBlocks ra rc job = s.raise .bufRange :=
  (State.withSources_of_valid ha hc _).trans (if_pos hlen)

theorem runBlocks_of_short_modulus (ha : s.isValid ra = true) (hc : s.isValid rc = true)
    (hlen : s.inLen.toNat ≤ s.bufsz) (hn : s.reg rc < 2 ^ 7) : s.runBlocks ra rc job = s.raise .invalidInput :=
  (State.withSources_of_valid ha hc _).trans ((if_neg (Nat.not_lt.2 hlen)).trans
    (if_pos (Nat.lt_succ_of_le ((bitlen_le_iff _ 7).2 hn))))

/-- The four checks of R185 have passed. -/
structure ChecksPass (s : State) (ra rc : Reg) : Prop where
  exponent_valid : s.isValid ra = true
  modulus_valid : s.isValid rc = true
  inLen_le : s.inLen.toNat ≤ s.bufsz
  modulus_le : 2 ^ 7 ≤ s.reg rc

/-- A codec command that ends without an error has passed its checks. -/
theorem checksPass_of_errCode_none {t : State} (ht : s.runBlocks ra rc job = t) (hok : t.errCode = none) :
    ChecksPass s ra rc := by
  subst ht
  have hvalid : s.isValid ra = true ∧ s.isValid rc = true := by
    by_contra hn
    rw [not_and_or, Bool.not_eq_true, Bool.not_eq_true] at hn
    rw [runBlocks_of_unwritten hn] at hok
    cases hok
  obtain ⟨ha, hc⟩ := hvalid
  have hlen : s.inLen.toNat ≤ s.bufsz := by
    by_contra hn
    rw [runBlocks_of_long ha hc (Nat.lt_of_not_le hn)] at hok
    cases hok
  refine ⟨ha, hc, hlen, ?_⟩
  by_contra hn
  rw [runBlocks_of_short_modulus ha hc hlen (Nat.lt_of_not_le hn)] at hok
  cases hok

end Jobs

/-- Settles O56: each check that fails ends the command with its error, and completion writes STATUS alone. -/
theorem codecChecksComeFirst : Obligations.CodecChecksComeFirst := by
  intro s ra rc mode i hi
  obtain ⟨job, hexec⟩ := exec_codec_eq_runBlocks hi s
  refine ⟨fun h => ⟨_, hexec, ?_⟩, fun ha hc hlen => ⟨_, hexec, ?_⟩, fun ha hc hlen hn => ⟨_, hexec, ?_⟩⟩
  · rw [runBlocks_of_unwritten h]
    exact State.endedWith_complete s .unwritten
  · rw [runBlocks_of_long ha hc hlen]
    exact State.endedWith_complete s .bufRange
  · rw [runBlocks_of_short_modulus ha hc hlen hn]
    exact State.endedWith_complete s .invalidInput

/-! ### No input, and blocks that always fit -/

section Ends

variable {s : State} {ra rc : Reg} {job : Nat → Nat → BlockJob}

/-- With no input the block loop takes no step, and what is left is the abort point before completion. -/
theorem runBlocks_of_empty (ha : s.isValid ra = true) (hc : s.isValid rc = true) (hn : 2 ^ 7 ≤ s.reg rc)
    (hlen : s.inLen = 0) : s.runBlocks ra rc job = ((s.setOutLen 0).setProgress 0 0).commit id := by
  have h0 : s.inLen.toNat = 0 := congrArg BitVec.toNat hlen
  have h8 : ¬ bitlen (s.reg rc) < 8 := Nat.not_lt.2 ((two_pow_le_iff_lt_bitlen _ 7).1 hn)
  refine (State.withSources_of_valid ha hc _).trans ((if_neg (by omega)).trans ((if_neg h8).trans ?_))
  rw [h0]
  rfl

/-- When every value fits its width, the block loop never ends with ENCODE_OVERFLOW. -/
theorem blockLoop_ne_encodeOverflow {j : BlockJob} (hfit : ∀ v, v % j.modulus < 2 ^ (8 * j.width)) (fuel : Nat) :
    ∀ s, (blockLoop j fuel s).1 ≠ some .encodeOverflow := by
  induction fuel with
  | zero => exact fun s => nofun
  | succ fuel ih =>
    intro s
    unfold blockLoop
    split
    · split
      · nofun
      · dsimp only
        split
        · next hnone =>
          rw [BlockJob.value, powMod_eq, encodeBlock_of_lt (hfit _)] at hnone
          cases hnone
        · split
          · nofun
          · exact ih _
    · nofun

/-- BENC never ends with ENCODE_OVERFLOW: its values are below the modulus, which fits L_ct bytes. -/
theorem runBlocks_encryptJob_ne_encodeOverflow (s : State) (ra rc : Reg) (mode : Mode) :
    (s.runBlocks ra rc (encryptJob mode)).errCode ≠ some .encodeOverflow := by
  unfold State.runBlocks
  rcases State.withSources_cases s ra rc _ with h | h <;> rw [h]
  · nofun
  · split
    · nofun
    · split
      · nofun
      · next hn =>
        have hpos : 0 < s.reg rc :=
          lt_of_lt_of_le (by decide) ((two_pow_le_iff_lt_bitlen _ 7).2 (Nat.le_of_not_lt hn))
        have hne := blockLoop_ne_encodeOverflow (j := encryptJob mode (s.reg ra) (s.reg rc))
          (mod_lt_two_pow_cipherLen hpos) s.inLen.toNat ((s.setOutLen 0).setProgress 0 0)
        split
        · next c t hloop =>
          rw [hloop] at hne
          exact hne
        · next t hloop =>
          rcases State.commit_cases t id with ⟨_, h⟩ | h <;> rw [h] <;> nofun

end Ends

/-- Settles O59: with no input the command is its end alone, and a reduced value always fits L_ct bytes. -/
theorem emptyInputGivesEmptyOutput : Obligations.EmptyInputGivesEmptyOutput := by
  refine ⟨fun s ra rc mode ha hc hn hlen i hi => ?_, fun s t ra rc mode h => ?_⟩
  · obtain ⟨job, hexec⟩ := exec_codec_eq_runBlocks hi s
    rw [runBlocks_of_empty ha hc hn hlen] at hexec
    refine ⟨_, hexec, ?_⟩
    obtain ⟨k, hk⟩ := State.passAbort_eq ((s.setOutLen 0).setProgress 0 0)
    rcases State.commit_cases ((s.setOutLen 0).setProgress 0 0) id with ⟨hreq, h⟩ | h <;> rw [h, hk]
    · exact ⟨rfl, fun _ => rfl, fun hno => absurd (hno.symm.trans hreq) Bool.false_ne_true⟩
    · exact ⟨rfl, fun _ => rfl, fun _ => ⟨rfl, rfl, rfl, rfl, rfl⟩⟩
  · cases h
    exact runBlocks_encryptJob_ne_encodeOverflow s ra rc mode

/-! ### The loop's end, decided by the function on byte strings -/

section Bytes

variable {s : State} {ra rc : Reg} {job : Nat → Nat → BlockJob} {j : BlockJob}

/-- The bytes a job gives for a whole input. -/
def BlockJob.bytes (j : BlockJob) (input : List Byte) : Option (List Byte) :=
  codecBytes j.chunk j.width j.exponent j.modulus j.mode input.length input

theorem encrypted_eq_bytes (e n : Nat) (mode : Mode) : encrypted e n mode = (encryptJob mode e n).bytes := rfl

theorem decrypted_eq_bytes (d n : Nat) (mode : Mode) : decrypted d n mode = (decryptJob mode d n).bytes := rfl

/-- The block that a job makes of one chunk. -/
def BlockJob.block (j : BlockJob) (chunk : List Byte) : Option (List Byte) :=
  encodeBlock (beToInt chunk ^ j.exponent % j.modulus) j.width j.mode

/-- The first block and the rest of an input that is not empty. -/
theorem BlockJob.bytes_eq_some (hpos : 0 < j.chunk) {input out : List Byte} (hne : input ≠ [])
    (h : j.bytes input = some out) : ∃ first more, j.block (input.take j.chunk) = some first ∧
      j.bytes (input.drop j.chunk) = some more ∧ out = first ++ more := by
  obtain ⟨b, bs, rfl⟩ := List.exists_cons_of_ne_nil hne
  rw [BlockJob.bytes, List.length_cons] at h
  unfold codecBytes at h
  rw [BlockJob.block]
  split at h
  · cases h
  · next first hfirst =>
    rw [codecBytes_fuel hpos _ _ (by rw [List.length_drop, List.length_cons]; omega)] at h
    split at h
    · cases h
    · next more hmore => exact ⟨first, more, hfirst, hmore, (Option.some.inj h).symm⟩

/-- The bytes of whole chunks come first, and the rest of the input gives the rest of the bytes (44_codec.md R192). -/
theorem BlockJob.bytes_append (hpos : 0 < j.chunk) {rest out : List Byte} (k : Nat) :
    ∀ {front done : List Byte}, front.length = j.chunk * k → j.bytes front = some done →
      j.bytes (front ++ rest) = some out → ∃ more, j.bytes rest = some more ∧ out = done ++ more := by
  induction k generalizing out with
  | zero =>
    intro front done hlen hfront hall
    rw [List.eq_nil_of_length_eq_zero hlen] at hfront hall
    cases hfront
    exact ⟨out, hall, rfl⟩
  | succ k ih =>
    intro front done hlen hfront hall
    rw [Nat.mul_succ] at hlen
    have hne : front ≠ [] := List.ne_nil_of_length_pos (by omega)
    have hle : j.chunk ≤ front.length := by omega
    obtain ⟨first, more, hfirst, hmore, rfl⟩ := BlockJob.bytes_eq_some hpos hne hfront
    obtain ⟨first', more', hfirst', hmore', rfl⟩ :=
      BlockJob.bytes_eq_some hpos (List.append_ne_nil_of_left_ne_nil hne rest) hall
    rw [List.take_append_of_le_length hle, hfirst] at hfirst'
    rw [List.drop_append_of_le_length hle] at hmore'
    cases hfirst'
    obtain ⟨tail, htail, rfl⟩ := ih (by rw [List.length_drop]; omega) hmore hmore'
    exact ⟨tail, htail, (List.append_assoc ..).symm⟩

theorem State.take_readIn (s : State) (off n c : Nat) : (s.readIn off n).take c = s.readIn off (min c n) := by
  rw [State.readIn, ← List.map_take, List.take_range]
  rfl

/-- The block that a job makes of the next chunk, when its bytes for all of the input are known. -/
theorem BlockJob.exists_next_block {i : Nat} {done out : List Byte} (hpos : 0 < j.chunk) (hi : i % j.chunk = 0)
    (hlt : i < s.inLen.toNat) (hdone : j.bytes (s.readIn 0 i) = some done)
    (hall : j.bytes (s.readIn 0 s.inLen.toNat) = some out) : ∃ block,
      j.block (s.readIn i (min j.chunk (s.inLen.toNat - i))) = some block ∧
        done.length + block.length ≤ out.length := by
  obtain ⟨k, hk⟩ := Nat.dvd_of_mod_eq_zero hi
  have hsplit : s.readIn 0 s.inLen.toNat = s.readIn 0 i ++ s.readIn i (s.inLen.toNat - i) := by
    have h := State.readIn_add s 0 i (s.inLen.toNat - i)
    rwa [Nat.add_sub_cancel' hlt.le, Nat.zero_add] at h
  rw [hsplit] at hall
  obtain ⟨more, hmore, rfl⟩ := BlockJob.bytes_append hpos k ((State.readIn_length s 0 i).trans hk) hdone hall
  have hne : s.readIn i (s.inLen.toNat - i) ≠ [] :=
    List.ne_nil_of_length_pos (by rw [State.readIn_length]; omega)
  obtain ⟨block, tail, hblock, _, rfl⟩ := BlockJob.bytes_eq_some hpos hne hmore
  rw [State.take_readIn] at hblock
  refine ⟨block, hblock, ?_⟩
  simp only [List.length_append]
  omega

/-- When all of the input fits and all of its bytes fit OUT_BUF, an unrequested loop ends normally: each other end
contradicts the block that the function on byte strings gives for the next chunk. -/
theorem LoopEnded.eq_none {e : Option ErrorCode} {i : Nat} {done out : List Byte} (hpos : 0 < j.chunk)
    (hreq : s.abortReq = false) (hi : i % j.chunk = 0 ∨ i = s.inLen.toNat)
    (hdone : j.bytes (s.readIn 0 i) = some done) (hall : j.bytes (s.readIn 0 s.inLen.toNat) = some out)
    (hfit : out.length ≤ s.bufsz)
    (hend : LoopEnded s e i done.length j.chunk j.width j.exponent j.modulus j.mode) : e = none := by
  have hnext (hlt : i < s.inLen.toNat) :=
    BlockJob.exists_next_block hpos (hi.resolve_right hlt.ne) hlt hdone hall
  cases e with
  | none => rfl
  | some c =>
    cases c with
    | aborted => exact absurd (hreq.symm.trans hend) Bool.false_ne_true
    | encodeOverflow =>
      obtain ⟨hlt, hle⟩ := hend
      obtain ⟨block, hblock, _⟩ := hnext hlt
      rw [BlockJob.block, encodeBlock_of_le hle] at hblock
      cases hblock
    | bufRange =>
      obtain ⟨hlt, block, hblock, hgt⟩ := hend
      obtain ⟨block', hblock', hle⟩ := hnext hlt
      cases hblock.symm.trans hblock'
      omega
    | illegal | unwritten | zeroModulus | noInverse | underflow | overflow | invalidInput => exact hend.elim

/-! ### What the block commands leave -/

/-- BUFSZ is a number of 32 bits (00_scope.md R7). -/
theorem bufsz_lt_two_pow (hp : s.params.wf) : s.bufsz < 2 ^ 32 := by
  obtain ⟨_, ⟨_, _, hmax⟩, _⟩ := hp
  exact hmax.trans_lt (by decide)

/-- What putting a byte string from index 0 on and then completing leaves. -/
theorem putBlock_complete_spec {i k : Nat} {bs : List Byte} {e : Option ErrorCode} (hlen : bs.length < 2 ^ 32) :
    let t := ((s.putBlock i 0 bs).setChoices k).complete e
    OutWritten s t 0 bs ∧ t.outLen.toNat = bs.length ∧ t.progress.consumed = i ∧ CompletedWith t e := by
  refine ⟨fun a => ?_, ?_, rfl, rfl, rfl, rfl, rfl, rfl⟩
  · have h := State.outByte_writeOut s 0 bs a
    rw [if_pos (Nat.zero_le a)]
    split at h
    · exact h
    · next ha => exact h.trans (by rw [List.getD_eq_default _ _ (by omega)])
  · show (BitVec.ofNat 32 (0 + bs.length)).toNat = bs.length
    rw [Nat.zero_add, BitVec.toNat_ofNat, Nat.mod_eq_of_lt hlen]

section End

variable {t : State} (ht : s.runBlocks ra rc job = t) (hj : job (s.reg ra) (s.reg rc) = j) (hp : s.params.wf)
  (hpos : 0 < j.chunk)
include ht hj hp hpos

/-- However the command ends, its finished blocks stand in OUT_BUF and its end has a reason (44_codec.md R188). -/
theorem runBlocks_finished (hck : ChecksPass s ra rc) : ∃ out, t.progress.consumed ≤ s.inLen.toNat ∧
    (t.progress.consumed % j.chunk = 0 ∨ t.progress.consumed = s.inLen.toNat) ∧
    j.bytes (s.readIn 0 t.progress.consumed) = some out ∧ OutWritten s t 0 out ∧ t.outLen.toNat = out.length ∧
    out.length ≤ s.bufsz ∧
    LoopEnded s t.errCode t.progress.consumed out.length j.chunk j.width j.exponent j.modulus j.mode ∧
    CompletedWith t t.errCode := by
  have hsz := bufsz_lt_two_pow hp
  obtain ⟨d, out, k, e, hle, hd, hbytes, hlen, hrun, hend⟩ := runBlocks_spec s hj hck.exponent_valid
    hck.modulus_valid hck.inLen_le ((two_pow_le_iff_lt_bitlen _ 7).1 hck.modulus_le) hpos hsz
  obtain ⟨hout, houtLen, hcons, hcomp⟩ :=
    putBlock_complete_spec (s := s) (i := d) (k := k) (e := e) (hlen.trans_lt hsz)
  rw [← ht, hrun]
  refine ⟨out, hle, hd, ?_, hout, houtLen, hlen, hend, hcomp⟩
  rw [hcons, BlockJob.bytes, State.readIn_length]
  exact hbytes

/-- The loop refines the function on byte strings: when that gives bytes which fit OUT_BUF, the command writes them
and completes normally. -/
theorem runBlocks_writes_bytes (hck : ChecksPass s ra rc) (hreq : s.abortReq = false) {out : List Byte}
    (hall : j.bytes (s.readIn 0 s.inLen.toNat) = some out) (hfit : out.length ≤ s.bufsz) :
    OutWritten s t 0 out ∧ t.outLen.toNat = out.length ∧ t.xLen = s.xLen ∧ SameRegs s t ∧ SameInputs s t ∧
      CompletedWith t none := by
  obtain ⟨done, _, hwhole, hdone, hout, houtLen, _, hend, hcomp⟩ := runBlocks_finished ht hj hp hpos hck
  obtain ⟨hregs, hins, hx⟩ := ht ▸ runBlocks_frame s ra rc job
  have hnone := LoopEnded.eq_none hpos hreq hwhole hdone hall hfit hend
  rw [hnone] at hend hcomp
  replace hend : t.progress.consumed = s.inLen.toNat := hend
  rw [hend, hall] at hdone
  cases hdone
  exact ⟨hout, houtLen, hx, hregs, hins, hcomp⟩

/-- A command that ended without an error has written the bytes of all of its input. -/
theorem runBlocks_of_errCode_none (hok : t.errCode = none) : ∃ out,
    j.bytes (s.readIn 0 s.inLen.toNat) = some out ∧ OutWritten s t 0 out ∧ t.outLen.toNat = out.length ∧
      out.length ≤ s.bufsz := by
  obtain ⟨out, _, _, hbytes, hout, houtLen, hfit, hend, _⟩ :=
    runBlocks_finished ht hj hp hpos (checksPass_of_errCode_none ht hok)
  rw [hok] at hend
  replace hend : t.progress.consumed = s.inLen.toNat := hend
  exact ⟨out, hend ▸ hbytes, hout, houtLen, hfit⟩

end End

end Bytes

/-- Settles O57: both commands are jobs of the block loop, which refines the function on byte strings. -/
theorem codecWritesItsBlocks : Obligations.CodecWritesItsBlocks := by
  refine ⟨fun s ra rc mode out hp hreq ha hc hlen hn hall hfit => ⟨_, exec_benc s ra rc mode, ?_⟩,
    fun s ra rc mode out hp hreq ha hc hlen hn hall hfit => ⟨_, exec_bdec s ra rc mode, ?_⟩⟩
  · exact runBlocks_writes_bytes rfl rfl hp (plainLen_pos hn) ⟨ha, hc, hlen, hn⟩ hreq hall hfit
  · exact runBlocks_writes_bytes rfl rfl hp (cipherLen_pos _) ⟨ha, hc, hlen, hn⟩ hreq hall hfit

/-- Settles O58: both commands are jobs of the block loop, which leaves its finished blocks and a reason for its
end. -/
theorem finishedBlocksStayWritten : Obligations.FinishedBlocksStayWritten := by
  refine ⟨fun s ra rc mode hp ha hc hlen hn => ?_, fun s ra rc mode hp ha hc hlen hn => ?_⟩
  · obtain ⟨out, hle, hwhole, hbytes, hout, houtLen, _, hend, _⟩ :=
      runBlocks_finished (job := encryptJob mode) rfl rfl hp (plainLen_pos hn) ⟨ha, hc, hlen, hn⟩
    exact ⟨_, out, exec_benc s ra rc mode, hle, hwhole, hbytes, hout, houtLen, hend⟩
  · obtain ⟨out, hle, hwhole, hbytes, hout, houtLen, _, hend, _⟩ :=
      runBlocks_finished (job := decryptJob mode) rfl rfl hp (cipherLen_pos _) ⟨ha, hc, hlen, hn⟩
    exact ⟨_, out, exec_bdec s ra rc mode, hle, hwhole, hbytes, hout, houtLen, hend⟩

/-! ### The round trip (44_codec.md R194) -/

section RoundTrip

/-- Fermat: modulo a prime, an exponent that is 1 modulo p - 1 changes nothing, also for multiples of p. -/
theorem pow_modEq_self_of_prime {p k : Nat} (hp : p.Prime) (hk : p - 1 ∣ k) (m : Nat) : m ^ (k + 1) ≡ m [MOD p] := by
  obtain ⟨c, rfl⟩ := hk
  by_cases hm : p ∣ m
  · have h0 := Nat.modEq_zero_iff_dvd.2 hm
    exact (Nat.modEq_zero_iff_dvd.2 (dvd_pow hm (Nat.succ_ne_zero _))).trans h0.symm
  · have hone : m ^ (p - 1) ≡ 1 [MOD p] := by
      rw [← Nat.totient_prime hp]
      exact Nat.ModEq.pow_totient ((hp.coprime_iff_not_dvd.2 hm).symm)
    have h := (hone.pow c).mul_right m
    rwa [one_pow, one_mul, ← pow_mul, ← pow_succ] at h

/-- RSA with two distinct primes: the two exponents undo each other on every message below the modulus. -/
theorem rsa_inverse {p q e d m : Nat} (hp : p.Prime) (hq : q.Prime) (hpq : p ≠ q)
    (hed : e * d % ((p - 1) * (q - 1)) = 1) (hm : m < p * q) : (m ^ e % (p * q)) ^ d % (p * q) = m := by
  have hexp : e * d = (p - 1) * (q - 1) * (e * d / ((p - 1) * (q - 1))) + 1 := by
    have h := Nat.div_add_mod (e * d) ((p - 1) * (q - 1))
    rw [hed] at h
    exact h.symm
  have hmod : m ^ (e * d) ≡ m [MOD p * q] := by
    rw [hexp]
    refine (Nat.modEq_and_modEq_iff_modEq_mul ((Nat.coprime_primes hp hq).2 hpq)).1 ⟨?_, ?_⟩
    · exact pow_modEq_self_of_prime hp ((dvd_mul_right _ _).mul_right _) m
    · exact pow_modEq_self_of_prime hq ((dvd_mul_left _ _).mul_right _) m
  rw [← Nat.pow_mod, ← pow_mul]
  exact Eq.trans hmod (Nat.mod_eq_of_lt hm)

/-- When bitlen(n) is no multiple of 8, every number of L_pt bytes is below n (44_codec.md R189). -/
theorem two_pow_plainLen_le {n : Nat} (h : bitlen n % 8 ≠ 0) : 2 ^ (8 * plainLen n) ≤ n := by
  rw [two_pow_le_iff_lt_bitlen]
  unfold plainLen
  omega

/-- Whole chunks of the input, one after another. -/
theorem State.readIn_mul (s : State) (c k : Nat) :
    s.readIn 0 (c * k) = ((List.range k).map fun i => s.readIn (c * i) c).flatten := by
  induction k with
  | zero => rfl
  | succ k ih => simp [Nat.mul_succ, State.readIn_add, ih, List.range_succ]

/-- The input of a machine is the output of another when its bytes are. -/
theorem State.readIn_eq_of_outWritten {s s' t : State} {out : List Byte} (hout : OutWritten s t 0 out)
    (h : ∀ a, a < out.length → s'.inByte a = t.outByte a) : s'.readIn 0 out.length = out := by
  refine List.ext_getElem (State.readIn_length _ _ _) fun a ha hlt => ?_
  have hbyte := (h a hlt).trans (hout a)
  simpa [State.readIn, hlt] using hbyte

/-- BDEC's block of a chunk that BENC made gives the plaintext chunk back, in legacy mode when neither of them starts
with a zero byte. -/
theorem block_roundTrip {p q e d : Nat} {mode : Mode} (hp : p.Prime) (hq : q.Prime) (hpq : p ≠ q)
    (hed : e * d % ((p - 1) * (q - 1)) = 1) (hbits : bitlen (p * q) % 8 ≠ 0) {b : Byte} {bs : List Byte}
    (hlen : (b :: bs).length = plainLen (p * q)) (hlegacy : mode = .legacy → b ≠ 0 ∧
      2 ^ (8 * plainLen (p * q)) ≤ beToInt (b :: bs) ^ e % (p * q)) :
    ∃ y, y.length = cipherLen (p * q) ∧ (encryptJob mode e (p * q)).block (b :: bs) = some y ∧
      (decryptJob mode d (p * q)).block y = some (b :: bs) := by
  have hcipher := mod_lt_two_pow_cipherLen (Nat.mul_pos hp.pos hq.pos) (beToInt (b :: bs) ^ e)
  have hplain : beToInt (b :: bs) < 2 ^ (8 * plainLen (p * q)) := hlen ▸ beToInt_lt (b :: bs)
  refine ⟨_, intToBe_length _ _, encodeBlock_full hcipher fun hm => (hlegacy hm).2, ?_⟩
  show encodeBlock (beToInt (intToBe (beToInt (b :: bs) ^ e % (p * q)) (cipherLen (p * q))) ^ d % (p * q))
    (plainLen (p * q)) mode = _
  rw [beToInt_intToBe _ _ hcipher,
    rsa_inverse hp hq hpq hed (hplain.trans_le (two_pow_plainLen_le hbits)), ← hlen, List.length_cons,
    encodeBlock_full (beToInt_lt (b :: bs)) fun hm => two_pow_le_beToInt (hlegacy hm).1 bs]
  exact congrArg some (intToBe_beToInt (b :: bs))

/-- Two jobs that undo each other on every chunk undo each other on whole chunks. -/
theorem bytes_roundTrip {j j' : BlockJob} (hpos : 0 < j.chunk) (hpos' : 0 < j'.chunk) : ∀ {xs : List (List Byte)},
    (∀ x ∈ xs, x.length = j.chunk ∧ ∃ y, y.length = j'.chunk ∧ j.block x = some y ∧ j'.block y = some x) →
    ∃ out, j.bytes xs.flatten = some out ∧ j'.bytes out = some xs.flatten
  | [], _ => ⟨[], rfl, rfl⟩
  | x :: xs, h => by
    obtain ⟨hlen, y, hlen', hblock, hblock'⟩ := h x List.mem_cons_self
    obtain ⟨out, hout, hout'⟩ := bytes_roundTrip hpos hpos' fun z hz => h z (List.mem_cons_of_mem x hz)
    exact ⟨y ++ out, codecBytes_append hpos (List.ne_nil_of_length_pos (by omega)) (.inl hlen) hblock hout,
      codecBytes_append hpos' (List.ne_nil_of_length_pos (by omega)) (.inl hlen') hblock' hout'⟩

/-- BDEC's function gives back the input of BENC's, when that is whole chunks (44_codec.md R194). -/
theorem decrypted_of_encrypted {p q e d len : Nat} {mode : Mode} {s : State} {out : List Byte} (hp : p.Prime)
    (hq : q.Prime) (hpq : p ≠ q) (hed : e * d % ((p - 1) * (q - 1)) = 1) (hbits : bitlen (p * q) % 8 ≠ 0)
    (hpos : 0 < plainLen (p * q)) (hwhole : len % plainLen (p * q) = 0)
    (hlegacy : mode = .legacy → ∀ a, a < len → a % plainLen (p * q) = 0 → s.inByte a ≠ 0 ∧
      2 ^ (8 * plainLen (p * q)) ≤ beToInt (s.readIn a (plainLen (p * q))) ^ e % (p * q))
    (henc : encrypted e (p * q) mode (s.readIn 0 len) = some out) :
    decrypted d (p * q) mode out = some (s.readIn 0 len) := by
  obtain ⟨k, rfl⟩ := Nat.dvd_of_mod_eq_zero hwhole
  obtain ⟨l, hl⟩ := Nat.exists_eq_succ_of_ne_zero hpos.ne'
  rw [encrypted_eq_bytes, State.readIn_mul] at henc
  rw [decrypted_eq_bytes, State.readIn_mul]
  have hchunks : ∀ x ∈ (List.range k).map fun i => s.readIn (plainLen (p * q) * i) (plainLen (p * q)),
      x.length = plainLen (p * q) ∧ ∃ y, y.length = cipherLen (p * q) ∧
        (encryptJob mode e (p * q)).block x = some y ∧ (decryptJob mode d (p * q)).block y = some x := by
    intro x hx
    obtain ⟨i, hi, rfl⟩ := List.mem_map.1 hx
    have hfirst : s.readIn (plainLen (p * q) * i) (plainLen (p * q)) =
        s.inByte (plainLen (p * q) * i) :: s.readIn (plainLen (p * q) * i + 1) l := by
      rw [hl, Nat.succ_eq_one_add, State.readIn_add]
      rfl
    refine ⟨State.readIn_length _ _ _, ?_⟩
    rw [hfirst]
    refine block_roundTrip hp hq hpq hed hbits (by rw [← hfirst, State.readIn_length]) fun hm => ?_
    rw [← hfirst]
    exact hlegacy hm _ (Nat.mul_lt_mul_of_pos_left (List.mem_range.1 hi) hpos) (Nat.mul_mod_right _ _)
  obtain ⟨out', henc', hdec⟩ := bytes_roundTrip (j := encryptJob mode e (p * q)) (j' := decryptJob mode d (p * q))
    hpos (cipherLen_pos _) hchunks
  cases henc.symm.trans henc'
  exact hdec

end RoundTrip

/-- Settles O60: BENC wrote the bytes of all of its input, BDEC's function gives that input back, and BDEC writes what
its function gives. -/
theorem padModeRoundTrips : Obligations.PadModeRoundTrips := by
  intro p q s t s' ra rc ra' rc' mode hp hq hpq hn hed hbits hwhole hwf hparams hlegacy hexec hok hn' ha' hc' hreq'
    hlen' hbuf
  have ht : s.runBlocks ra rc (encryptJob mode) = t := by simpa [exec_benc] using hexec
  have hck := checksPass_of_errCode_none ht hok
  have hpos : 0 < plainLen (p * q) := hn ▸ plainLen_pos hck.modulus_le
  obtain ⟨out, henc, hout, houtLen, hfit⟩ := runBlocks_of_errCode_none
    (j := encryptJob mode (s.reg ra) (p * q)) ht (by rw [hn]) hwf hpos hok
  have hdec := decrypted_of_encrypted (d := s'.reg ra') hp hq hpq hed hbits hpos hwhole hlegacy henc
  have hinput : s'.readIn 0 s'.inLen.toNat = out := by
    rw [hlen', houtLen]
    exact State.readIn_eq_of_outWritten hout fun a ha => hbuf a (houtLen ▸ ha)
  have hsz : s'.bufsz = s.bufsz := congrArg Params.bufsz hparams
  have hck' : ChecksPass s' ra' rc' :=
    ⟨ha', hc', by rw [hlen', houtLen, hsz]; exact hfit, by rw [hn', ← hn]; exact hck.modulus_le⟩
  obtain ⟨hout', houtLen', _, _, _, hcomp'⟩ := runBlocks_writes_bytes (j := decryptJob mode (s'.reg ra') (p * q))
    rfl (by rw [hn']) (hparams ▸ hwf) (cipherLen_pos _) hck' hreq' (hinput ▸ hdec)
    (by rw [State.readIn_length, hsz]; exact hck.inLen_le)
  rw [State.readIn_length] at houtLen'
  refine ⟨_, exec_bdec s' ra' rc' mode, hcomp', BitVec.eq_of_toNat_eq houtLen', fun a ha => ?_⟩
  simpa [State.readIn, ha] using hout' a

end Sys2Proof.Machine

/-! Proofs of the statements about exceptions (60_exceptions.md): how every command ends, what an error and an abort
leave, the accesses that get ERROR, and the ways IRQ rises and falls. -/

namespace Sys2Proof.Machine

/-! ### How a command ends -/

section Ends

/-- How the command i that took s to t ended: it completed (R210), with ABORTED only on request (R218), and an error
wrote nothing but STATUS and the output of BENC and BDEC (R212). -/
structure CommandEnd (i : Instr) (s t : State) : Prop where
  completed : CompletedWith t t.errCode
  abort_requested : t.errCode = some .aborted → s.abortReq = true
  precise : ∀ c, t.errCode = some c →
    SameRegs s t ∧ SameInputs s t ∧ t.xLen = s.xLen ∧ (isCodec i = false → SameOutput s t)

variable {i : Instr} {s t : State} {c : ErrorCode}

theorem CompletedWith.errCode_eq {e : Option ErrorCode} (h : CompletedWith t e) : t.errCode = e := by
  obtain ⟨_, _, _, _, he⟩ := h
  exact he

theorem CommandEnd.of_normal (h : CompletedWith t none) : CommandEnd i s t where
  completed := h.errCode_eq.symm ▸ h
  abort_requested he := by cases h.errCode_eq.symm.trans he
  precise _ he := by cases h.errCode_eq.symm.trans he

theorem CommandEnd.of_error (h : EndedWith s t c) (ha : c = .aborted → s.abortReq = true) : CommandEnd i s t := by
  obtain ⟨hregs, ⟨hbytes, hlen, hx, hp⟩, hin, hcomp⟩ := h
  exact {
    completed := hcomp.errCode_eq.symm ▸ hcomp
    abort_requested := fun he => ha (Option.some.inj (hcomp.errCode_eq.symm.trans he))
    precise := fun _ _ => ⟨hregs, hin, hx, fun _ => ⟨hbytes, hlen, hx, hp⟩⟩ }

/-- A command that ends with ABORTED on request or with one of `errors` keeps R218 when ABORTED is none of these. -/
theorem CommandEnd.of_listed {errors : List ErrorCode} (h : EndedWith s t c)
    (hc : (c = .aborted ∧ s.abortReq = true) ∨ c ∈ errors) (hn : ErrorCode.aborted ∉ errors) :
    CommandEnd i s t := by
  refine .of_error h fun he => ?_
  rcases hc with ⟨_, ha⟩ | hmem
  · exact ha
  · exact absurd (he ▸ hmem) hn

theorem commandEnd_of_regOutcome {rd : Reg} {Q : Nat → Prop} {errors : List ErrorCode}
    (h : ∃ t, exec i s = .next t ∧ RegOutcome s rd Q errors t) (hn : ErrorCode.aborted ∉ errors := by decide) :
    ∃ t, exec i s = .next t ∧ CommandEnd i s t := by
  obtain ⟨t, he, _, hout⟩ := h
  rcases hout with ⟨v, _, _, _, _, _, _, hcomp⟩ | ⟨c, hend, hc⟩
  · exact ⟨t, he, .of_normal hcomp⟩
  · exact ⟨t, he, .of_listed hend hc hn⟩

theorem commandEnd_nop (s : State) : ∃ t, exec .nop s = .next t ∧ CommandEnd .nop s t := by
  obtain ⟨t, he, ⟨ha, hend⟩ | ⟨_, _, _, hcomp⟩⟩ := execNop_cases s
  · exact ⟨t, he, .of_error hend fun _ => ha⟩
  · exact ⟨t, he, .of_normal hcomp⟩

theorem commandEnd_stb (s : State) (ra : Reg) (mode : Mode) :
    ∃ t, exec (.stb ra mode) s = .next t ∧ CommandEnd (.stb ra mode) s t := by
  obtain ⟨t, he, ⟨bs, _, _, k, rfl⟩ | ⟨c, hend, hc⟩⟩ := execStb_cases s ra mode
  · exact ⟨_, he, .of_normal ⟨rfl, rfl, rfl, rfl, rfl⟩⟩
  · exact ⟨t, he, .of_listed hend hc (by decide)⟩

/-- BENC and BDEC: a check that fails leaves all but STATUS, and the block loop writes only its output. -/
theorem commandEnd_runBlocks (hi : isCodec i = true) (s : State) (ra rc : Reg) (job : Nat → Nat → BlockJob) :
    CommandEnd i s (s.runBlocks ra rc job) := by
  obtain ⟨hregs, hin, hx⟩ := runBlocks_frame s ra rc job
  rcases runBlocks_cases s ra rc job with ⟨c, hend, hc⟩ | ⟨m, n, p, k, e, he, hcause⟩
  · exact .of_listed hend (.inr hc) (by decide)
  · refine ⟨he ▸ ⟨rfl, rfl, rfl, rfl, rfl⟩, fun ha => ?_, fun c _ => ⟨hregs, hin, hx, fun hn => ?_⟩⟩
    · have hab : e = some .aborted := by rwa [he] at ha
      rcases hcause with h | ⟨_, hreq⟩ | h | h
      · cases hab.symm.trans h
      · exact hreq
      · cases hab.symm.trans h
      · cases hab.symm.trans h
    · exact absurd (hi.symm.trans hn) Bool.noConfusion

/-- Whatever the command and the state, it ends (60_exceptions.md R210, R215). -/
theorem exec_commandEnd (i : Instr) (s : State) : ∃ t, exec i s = .next t ∧ CommandEnd i s t := by
  cases i with
  | nop => exact commandEnd_nop s
  | ldi rd imm => exact commandEnd_of_regOutcome (execLdi_cases s rd imm)
  | mov rd ra => exact commandEnd_of_regOutcome (execMov_cases s rd ra)
  | add rd ra rb => exact commandEnd_of_regOutcome (execAdd_cases s rd ra rb)
  | addi rd ra imm => exact commandEnd_of_regOutcome (execAddi_cases s rd ra imm)
  | sub rd ra rb => exact commandEnd_of_regOutcome (execSub_cases s rd ra rb)
  | subi rd ra imm => exact commandEnd_of_regOutcome (execSubi_cases s rd ra imm)
  | cmp rd ra rb => exact commandEnd_of_regOutcome (execCmp_cases s rd ra rb)
  | bitlen rd ra => exact commandEnd_of_regOutcome (execBitlen_cases s rd ra)
  | mul rd ra rb => exact commandEnd_of_regOutcome (execMul_cases s rd ra rb)
  | mod rd ra rc => exact commandEnd_of_regOutcome (execMod_cases s rd ra rc)
  | modmul rd ra rb rc => exact commandEnd_of_regOutcome (execModmul_cases s rd ra rb rc)
  | gcd rd ra rb => exact commandEnd_of_regOutcome (execGcd_cases s rd ra rb)
  | modinv rd ra rc => exact commandEnd_of_regOutcome (execModinv_cases s rd ra rc)
  | modpow rd ra rb rc => exact commandEnd_of_regOutcome (execModpow_cases s rd ra rb rc)
  | randb rd n => exact commandEnd_of_regOutcome (execRandb_cases s rd n)
  | randc rd n => exact commandEnd_of_regOutcome (execRandc_cases s rd n)
  | trialdiv rd ra => exact commandEnd_of_regOutcome (execTrialdiv_cases s rd ra)
  | mrround rd ra rb => exact commandEnd_of_regOutcome (execMrround_cases s rd ra rb)
  | primetest rd ra => exact commandEnd_of_regOutcome (execPrimetest_cases s rd ra)
  | ldb rd => exact commandEnd_of_regOutcome (execLdb_cases s rd)
  | stb ra mode => exact commandEnd_stb s ra mode
  | benc ra rc mode => exact ⟨_, exec_benc s ra rc mode, commandEnd_runBlocks rfl s ra rc _⟩
  | bdec ra rc mode => exact ⟨_, exec_bdec s ra rc mode, commandEnd_runBlocks rfl s ra rc _⟩

theorem exec_next_commandEnd (h : exec i s = .next t) : CommandEnd i s t := by
  obtain ⟨u, hu, hend⟩ := exec_commandEnd i s
  cases h.symm.trans hu
  exact hend

/-- ABORTED comes after the VALID checks (60_exceptions.md R213): an unwritten source ends the command first. -/
theorem sources_valid_of_aborted (h : exec i s = .next t) (ha : t.errCode = some .aborted) :
    ∀ r ∈ sourcesOf i, s.isValid r = true := by
  intro r hr
  by_contra hn
  cases h.symm.trans (exec_of_unwritten ⟨r, hr, Bool.eq_false_of_not_eq_true hn⟩)
  cases ha

end Ends

/-- Settles O8: completion is part of how every command ends. -/
theorem everyCommandCompletes : Obligations.EveryCommandCompletes := by
  intro i s
  obtain ⟨t, h, hend⟩ := exec_commandEnd i s
  exact ⟨t, h, hend.completed⟩

/-- Settles O32: the frame of an error is part of how every command ends. -/
theorem errorsArePrecise : Obligations.ErrorsArePrecise :=
  fun _ _ _ c h hc => (exec_next_commandEnd h).precise c hc

/-- Settles O33: how the command ends, and that a request no abort point takes moves the index of abort choices
alone. -/
theorem abortOnlyWhenRequested : Obligations.AbortOnlyWhenRequested := by
  intro i s
  obtain ⟨t, u, ht, hu, hcase⟩ := exec_noAbort s i
  have hend := exec_next_commandEnd ht
  refine ⟨t, u, ht, hu, fun hno ha => ?_, fun ha => ?_, fun hna => ?_⟩
  · exact absurd (hno.symm.trans (hend.abort_requested ha)) Bool.false_ne_true
  · obtain ⟨hregs, hin, hx, hout⟩ := hend.precise _ ha
    exact ⟨hregs, hin, hx, sources_valid_of_aborted ht ha, fun hn => ⟨hregs, hout hn, hin, ha ▸ hend.completed⟩⟩
  · rcases hcase with ha | ⟨k, rfl⟩
    · exact absurd ha hna
    · rfl

/-! ### Accesses the bus refuses -/

section BadAccess

variable {s : State} {off addr : Nat} {z : AccessSize} {left : List Input}

/-- Below the buffers a narrow or misaligned access is refused, in a buffer a misaligned one (20_memory.md R63). -/
theorem accessOk_eq_false
    (h : (off < 0x8000 ∧ (z ≠ .word ∨ off % 4 ≠ 0)) ∨ (0x8000 ≤ off ∧ off % z.bytes ≠ 0)) :
    accessOk off z = false := by
  unfold accessOk
  rcases h with ⟨hlt, hbad⟩ | ⟨hge, hbad⟩
  · rw [if_pos hlt, decide_eq_false_iff_not, not_and_or]
    exact hbad
  · rw [if_neg (Nat.not_lt.2 hge), decide_eq_false_iff_not]
    exact hbad

theorem State.hostRead_of_not_accessOk (s : State) (h : accessOk off z = false) :
    s.hostRead off z = s.respond .error 0 := if_pos h

theorem State.hostWrite_of_not_accessOk (s : State) (v : Word) (h : accessOk off z = false) :
    s.hostWrite off z v = s.respond .error 0 := if_pos h

theorem State.offset_eq_none (h : addr < s.params.base ∨ s.params.base + 0x10000 ≤ addr) : s.offset addr = none :=
  if_neg (by omega)

/-- An access outside the window stops the model (log 11). -/
theorem access_eq_fault (hr : s.rst = false) (h : addr < s.params.base ∨ s.params.base + 0x10000 ≤ addr)
    (k : Nat → State) : s.access addr k = .fault .outsideWindow := by
  simp [State.access, hr, State.offset_eq_none h]

end BadAccess

/-- Settles O16: the bus answers ERROR before anything else is decided, and only an offset of the window has an
answer. -/
theorem badAccessGetsError : Obligations.BadAccessGetsError := by
  refine ⟨fun s off z v left hr ho hbad h => ?_, fun s addr z v left hr hout h => ?_⟩
  · have hok := accessOk_eq_false hbad
    refine ⟨(s.dequeue left).respond .error 0, ?_, rfl, rfl⟩
    rcases h with h | h
    · rw [step_read hr ho h, State.hostRead_of_not_accessOk _ hok]
    · rw [step_write hr ho h, State.hostWrite_of_not_accessOk _ v hok]
  · rcases h with h | h
    · exact (step_of_input h).trans (access_eq_fault (s := s.dequeue left) hr hout _)
    · exact (step_of_input h).trans (access_eq_fault (s := s.dequeue left) hr hout _)

/-! ### IRQ -/

section Irq

variable {s t : State} {v : Word}

theorem State.irq_complete (s : State) (e : Option ErrorCode) : (s.complete e).irq = s.ie :=
  Bool.and_true s.ie

theorem State.irq_accept (s : State) (v : Word) : (s.accept v).irq = false := Bool.and_false s.ie

theorem State.irq_resetAll (s : State) : s.resetAll.irq = false := rfl

theorem State.irq_writeStatus (s : State) (v : Word) :
    (s.writeStatus v).irq = (s.irq && !v.getLsbD 1) := (Bool.and_assoc ..).symm

theorem State.irq_writeCtrl (s : State) (v : Word) :
    (s.writeCtrl v).irq = (!v.getLsbD 2 && (v.getLsbD 0 && s.done)) := by
  cases h : v.getLsbD 2 with
  | true => rw [State.writeCtrl, if_pos h, State.irq_resetAll]; rfl
  | false => rw [writeCtrl_of_not_srst s h]; rfl

theorem exec_irq {i : Instr} (h : exec i s = .next t) : t.irq = s.ie := by
  obtain ⟨_, hdone, _⟩ := (exec_next_commandEnd h).completed
  obtain ⟨_, hie, _⟩ := noCommandWritesItsInputs i s t h
  rw [State.irq, hdone, hie, Bool.and_true]

/-- What an input does to IRQ: nothing, or it is a write to CTRL, STATUS or CMD, or a reset (60_exceptions.md R219,
R220). -/
inductive IrqEffect (s : State) : Input → Bool → Prop
  | kept (i : Input) : IrqEffect s i s.irq
  | ctrl (v : Word) : IrqEffect s (.write (s.params.base + 0x10) .word v) (s.writeCtrl v).irq
  | status (v : Word) : IrqEffect s (.write (s.params.base + 0x14) .word v) (s.writeStatus v).irq
  | accepted (v : Word) (hi : s.phase = .idle) : IrqEffect s (.write (s.params.base + 0x18) .word v) false
  | rst : IrqEffect s (.rst true) false

theorem InputEffect.irq_effect {i : Input} (h : InputEffect s i t) : IrqEffect s i t.irq := by
  cases h with
  | written off z v u _ _ hok hl hu =>
    cases hu with
    | ctrl h =>
      obtain ⟨rfl, rfl⟩ : off = 0x10 ∧ z = .word := ⟨h, eq_word_of_accessOk (by omega) hok⟩
      exact .ctrl v
    | status h =>
      obtain ⟨rfl, rfl⟩ : off = 0x14 ∧ z = .word := ⟨h, eq_word_of_accessOk (by omega) hok⟩
      exact .status v
    | cmd h =>
      obtain ⟨rfl, rfl⟩ : off = 0x18 ∧ z = .word := ⟨h, eq_word_of_accessOk (by omega) hok⟩
      have hb : s.isBusy = false := by simpa [State.isLocked] using hl
      have e : ((s.accept v).respond .okay 0).irq = false := s.irq_accept v
      exact e ▸ .accepted v ((State.isBusy_eq_false_iff s).1 hb)
    | _ => exact .kept _
  | rst level =>
    cases level with
    | true => exact .rst
    | false => exact .kept _
  | _ => exact .kept _

theorem IrqEffect.rises {i : Input} {b : Bool} (h : IrqEffect s i b) (h0 : s.irq = false) (h1 : b = true) :
    ∃ v, i = .write (s.params.base + 0x10) .word v ∧ v.getLsbD 0 = true ∧ v.getLsbD 2 = false ∧ s.done = true := by
  cases h with
  | kept => exact absurd (h0.symm.trans h1) Bool.false_ne_true
  | ctrl v =>
    rw [State.irq_writeCtrl, Bool.and_eq_true, Bool.and_eq_true, Bool.not_eq_true'] at h1
    obtain ⟨hsrst, hie, hdone⟩ := h1
    exact ⟨v, rfl, hie, hsrst, hdone⟩
  | status v => simp [State.irq_writeStatus, h0] at h1
  | accepted => cases h1
  | rst => cases h1

theorem IrqEffect.falls {i : Input} {b : Bool} (h : IrqEffect s i b) (h0 : s.irq = true) (h1 : b = false) :
    (∃ v, i = .write (s.params.base + 0x14) .word v ∧ v.getLsbD 1 = true) ∨
    (∃ v, i = .write (s.params.base + 0x10) .word v ∧ (v.getLsbD 0 = false ∨ v.getLsbD 2 = true)) ∨
    (∃ v, i = .write (s.params.base + 0x18) .word v ∧ s.phase = .idle) ∨
    i = .rst true := by
  cases h with
  | kept => exact absurd (h1.symm.trans h0) Bool.false_ne_true
  | ctrl v =>
    have hdone : s.done = true := (Bool.and_eq_true_iff.1 h0).2
    rw [State.irq_writeCtrl, hdone, Bool.and_true, Bool.and_eq_false_iff, Bool.not_eq_false'] at h1
    exact .inr (.inl ⟨v, rfl, h1.symm⟩)
  | status v =>
    rw [State.irq_writeStatus, h0, Bool.true_and, Bool.not_eq_false'] at h1
    exact .inl ⟨v, rfl, h1⟩
  | accepted v hi => exact .inr (.inr (.inl ⟨v, rfl, hi⟩))
  | rst => exact .inr (.inr (.inr rfl))

/-- A step is a completion, which makes IRQ equal to IE, an input with its effect on IRQ, or nothing. -/
theorem step_irq_cases (h : step s = .next t) :
    (s.nextMove = .engine ∧ t.irq = s.ie) ∨
    (∃ i left, s.nextMove = .input i left ∧ IrqEffect (s.dequeue left) i t.irq) ∨
    t.irq = s.irq := by
  rcases step_cases s h with ⟨hm, i, _, he⟩ | ⟨hm, _, rfl⟩ | ⟨i, left, hm, hserve⟩ | ⟨_, rfl⟩
  · exact .inl ⟨hm, exec_irq he⟩
  · exact .inl ⟨hm, State.irq_complete s _⟩
  · exact .inr (.inl ⟨i, left, hm, (serve_effect hserve).irq_effect⟩)
  · exact .inr (.inr rfl)

end Irq

/-- Settles O28: a step moves IRQ by a completion or an input alone. Where IRQ stands IE is 1, so no completion lowers
it. -/
theorem irqIsIeAndDone : Obligations.IrqIsIeAndDone := by
  refine ⟨fun _ => rfl, fun _ _ _ h => exec_irq h, fun s t h h0 h1 => ?_, fun s t h h0 h1 => ?_, State.irq_accept,
    fun s v hv => ?_, fun s v hv => ?_, State.irq_resetAll⟩
  · rcases step_irq_cases h with ⟨hm, hie⟩ | ⟨i, left, hm, heff⟩ | hkept
    · exact .inl ⟨hm, hie.symm.trans h1⟩
    · obtain ⟨v, rfl, hv⟩ := heff.rises h0 h1
      exact .inr ⟨v, left, hm, hv⟩
    · exact absurd (h0.symm.trans (hkept.symm.trans h1)) Bool.false_ne_true
  · rcases step_irq_cases h with ⟨_, hie⟩ | ⟨i, left, hm, heff⟩ | hkept
    · have hset : s.ie = true := (Bool.and_eq_true_iff.1 h0).1
      exact absurd (h1.symm.trans (hie.trans hset)) Bool.false_ne_true
    · rcases heff.falls h0 h1 with ⟨v, rfl, hv⟩ | ⟨v, rfl, hv⟩ | ⟨v, rfl, hi⟩ | rfl
      · exact .inl ⟨v, left, hm, hv⟩
      · exact .inr (.inl ⟨v, left, hm, hv⟩)
      · exact .inr (.inr (.inl ⟨v, left, hm, hi⟩))
      · exact .inr (.inr (.inr ⟨left, hm⟩))
    · exact absurd (h1.symm.trans (hkept.trans h0)) Bool.false_ne_true
  · rw [State.irq_writeStatus, hv, Bool.not_true, Bool.and_false]
  · rw [State.irq_writeCtrl, hv, Bool.false_and, Bool.and_false]

end Sys2Proof.Machine

/-! Proofs of the statements about reset and hazards (70_reset_and_hazards.md): the time a command takes, the state a
reset leaves, and the writes that are lost while busy. -/

namespace Sys2Proof.Machine

/-! ### Finite completion (R256) -/

section Completion

variable {s t : State}

/-- A write that a busy engine takes is none to CMD: it resets, or leaves the phase and the waiting as they are. -/
theorem WriteEffect.phase_wait {off : Nat} {z : AccessSize} {v : Word} (h : WriteEffect s off z v t)
    (hcmd : off ≠ 0x18) : t.phase = .idle ∨ (t.phase = s.phase ∧ t.wait = s.wait) := by
  cases h with
  | ctrl =>
    unfold State.writeCtrl
    split
    · exact .inl rfl
    · exact .inr ⟨rfl, rfl⟩
  | cmd h => exact absurd h hcmd
  | _ => exact .inr ⟨rfl, rfl⟩

theorem InputEffect.phase_wait_of_busy {i : Input} (h : InputEffect s i t) (hb : s.phase = .busy) :
    t.phase = .idle ∨ (t.phase = .busy ∧ t.wait = s.wait) := by
  cases h with
  | written off z v u _ _ _ hl hu =>
    have hcmd : off ≠ 0x18 := by
      rintro rfl
      simp [State.isLocked, (State.isBusy_iff s).2 hb] at hl
    exact (hu.phase_wait hcmd).imp_right fun ⟨hp, hw⟩ => ⟨hp.trans hb, hw⟩
  | rst level =>
    cases level with
    | true => exact .inl rfl
    | false => exact .inr ⟨hb, rfl⟩
  | _ => exact .inr ⟨hb, rfl⟩

theorem phase_of_nextMove_quiet (h : s.nextMove = .quiet) : s.phase = .idle := by
  unfold State.nextMove at h
  split at h
  · assumption
  · cases h
  · cases h
  · cases h
  · split at h <;> cases h

/-- A step of a busy engine completes the command, resets it away, or uses up one of the inputs to wait for. -/
theorem step_of_busy (hb : s.phase = .busy) (h : step s = .next t) :
    t.phase = .idle ∨ (t.phase = .busy ∧ t.wait + 1 = s.wait) := by
  rcases step_cases s h with ⟨_, i, _, he⟩ | ⟨_, _, rfl⟩ | ⟨i, left, hm, hserve⟩ | ⟨hm, _⟩
  · obtain ⟨hidle, _⟩ := (exec_next_commandEnd he).completed
    exact .inl hidle
  · exact .inl rfl
  · obtain ⟨hwait, _⟩ := (nextMove_input hm).2 hb
    refine ((serve_effect hserve).phase_wait_of_busy hb).imp_right fun ⟨hp, hw⟩ => ⟨hp, ?_⟩
    rw [hw, State.dequeue_wait, if_pos ((State.isBusy_iff s).2 hb)]
    omega
  · exact absurd (hb.symm.trans (phase_of_nextMove_quiet hm)) nofun

theorem run_succ_of_next {M : Host.Core} {s u : M.State} (h : M.step s = .next u) (k : Nat) :
    M.run (k + 1) s = M.run k u := by
  rw [Host.Core.run, h]

/-- A run of one move or more that does not stop begins with a step. -/
theorem exists_step_of_run {M : Host.Core} {s t : M.State} {k : Nat} (h : M.run (k + 1) s = .next t) :
    ∃ u, M.step s = .next u ∧ M.run k u = .next t := by
  unfold Host.Core.run at h
  split at h
  · next u hu => exact ⟨u, hu, h⟩
  · cases h
  · cases h

/-- By induction on the inputs the running command still waits for. -/
theorem run_reaches_idle : ∀ (n : Nat) {s t : State}, s.phase = .busy → s.wait = n →
    Host.Core.run Sys2Proof.core (n + 1) s = .next t →
    ∃ k u, k ≤ n + 1 ∧ Host.Core.run Sys2Proof.core k s = .next u ∧ u.phase = .idle
  | n, s, t, hb, hn, h => by
    obtain ⟨u, hu, hrest⟩ := exists_step_of_run h
    rcases step_of_busy hb hu with hidle | ⟨hbusy, hwait⟩
    · exact ⟨1, u, by omega, run_succ_of_next hu 0, hidle⟩
    · obtain ⟨m, rfl⟩ : ∃ m, n = m + 1 := ⟨u.wait, by omega⟩
      obtain ⟨k, r, hk, hrun, hr⟩ := run_reaches_idle m hbusy (by omega) hrest
      exact ⟨k + 1, r, by omega, (run_succ_of_next hu k).trans hrun, hr⟩

end Completion

/-- Settles O9: each move of a busy engine that leaves it busy lowers `wait`. -/
theorem busyEndsWithinItsWait : Obligations.BusyEndsWithinItsWait :=
  fun s _ hb h => run_reaches_idle s.wait hb rfl h

/-! ### Reset (R240 to R242) -/

/-- Settles O11: the values of R240 meet the invariant for all parameters R7 allows, the defaults among them. -/
theorem resetHasTheInvariant : Obligations.ResetHasTheInvariant :=
  ⟨State.initial_inv (by decide), fun _ hp => State.initial_inv hp⟩

theorem State.reg_initial (p : Params) (r : Reg) : (State.initial p).reg r = 0 := by
  simp [State.reg, State.initial]

theorem State.isValid_initial (p : Params) (r : Reg) : (State.initial p).isValid r = false :=
  BitVec.getLsbD_zero

theorem State.statusWord_initial (p : Params) : (State.initial p).statusWord = 0 := by
  simp [State.statusWord, State.errByte, State.isBusy, State.initial]

/-- Settles O12: `State.initial` holds each listed value, and the views of its fields evaluate to theirs. -/
theorem resetLeavesTheListedValues : Obligations.ResetLeavesTheListedValues :=
  ⟨fun p => ⟨fun r => ⟨State.reg_initial p r, State.isValid_initial p r⟩, rfl, State.statusWord_initial p, rfl, rfl,
    rfl, rfl, rfl, rfl, rfl, rfl, rfl, rfl, rfl, rfl, rfl, rfl, rfl, rfl, rfl⟩, rfl⟩

theorem State.architectural_resetAll (s : State) : s.resetAll.architectural =
    { (State.initial s.params).architectural with rst := s.rst, epoch := s.epoch + 1 } := rfl

theorem writeCtrl_of_srst (s : State) {v : Word} (h : v.getLsbD 2 = true) : s.writeCtrl v = s.resetAll := if_pos h

/-- Settles O13: CTRL is never locked, and its SRST bit comes before the others. -/
theorem softResetGivesTheResetState : Obligations.SoftResetGivesTheResetState := by
  intro s v left hr h hv
  have hw : (s.dequeue left).writeControl 0x10 v = (s.dequeue left).resetAll := writeCtrl_of_srst _ hv
  have hstep := step_write_control hr (by decide) rfl (by decide) h
  rw [hw] at hstep
  refine ⟨_, hstep, rfl, rfl, ?_⟩
  rw [State.architectural_respond, State.architectural_resetAll, State.dequeue_rst, hr]
  rfl

/-- No access has a move while `rst` is asserted (log 12). -/
theorem access_eq_refused {s : State} (hr : s.rst = true) (addr : Nat) (k : Nat → State) :
    s.access addr k = .refused .accessDuringReset := if_pos hr

/-- Settles O14: a level of `rst` is served at every time, and an access only while it is released. -/
theorem hardResetHoldsTheResetState : Obligations.HardResetHoldsTheResetState := by
  refine ⟨fun s left h => ⟨_, step_of_input h, rfl⟩, fun s addr z v left hr h => ?_,
    fun s left h => ⟨_, step_of_input h, rfl⟩⟩
  rcases h with h | h
  · exact (step_of_input h).trans (access_eq_refused (s := s.dequeue left) hr addr _)
  · exact (step_of_input h).trans (access_eq_refused (s := s.dequeue left) hr addr _)

/-! ### Lost writes and OVR (R250) -/

section Ovr

variable {s t : State} {b : Bool}

/-- The locked locations (20_memory.md R68): six control registers, the register windows, and the buffer bytes. -/
theorem State.isLocked_iff (s : State) (off : Nat) : s.isLocked off = true ↔
    off ∈ [0x18, 0x1C, 0x20, 0x24, 0x28, 0x34] ∨ (0x1000 ≤ off ∧ off < 0x5000) ∨
      (0x8000 ≤ off ∧ off < 0xC000 ∧ off - 0x8000 < s.bufsz) ∨ (0xC000 ≤ off ∧ off - 0xC000 < s.bufsz) := by
  rw [or_comm (a := _ ∈ _)]
  simp only [State.isLocked, State.isData, Bool.or_eq_true, decide_eq_true_iff, List.mem_cons, List.not_mem_nil,
    or_false, or_assoc]

/-- What an input does to OVR: nothing, or it is a lost write, a 1 written to OVR, or a reset (10_state.md R29). -/
inductive OvrEffect (s : State) : Input → Bool → Prop
  | kept (i : Input) : OvrEffect s i s.ovr
  | lost (off : Nat) (z : AccessSize) (v : Word) (hb : s.phase = .busy) (ho : off < 0x10000)
      (hok : accessOk off z = true) (hl : s.isLocked off = true) :
      OvrEffect s (.write (s.params.base + off) z v) true
  | cleared (v : Word) (hv : v.getLsbD 3 = true) : OvrEffect s (.write (s.params.base + 0x14) .word v) false
  | softReset (v : Word) (hv : v.getLsbD 2 = true) : OvrEffect s (.write (s.params.base + 0x10) .word v) false
  | rst : OvrEffect s (.rst true) false

theorem ovr_effect_writeCtrl (s : State) (v : Word) :
    OvrEffect s (.write (s.params.base + 0x10) .word v) (s.writeCtrl v).ovr := by
  cases hv : v.getLsbD 2 with
  | true => exact writeCtrl_of_srst s hv ▸ .softReset v hv
  | false => exact writeCtrl_of_not_srst s hv ▸ .kept _

theorem ovr_effect_writeStatus (s : State) (v : Word) :
    OvrEffect s (.write (s.params.base + 0x14) .word v) (s.writeStatus v).ovr := by
  rw [State.writeStatus_ovr]
  cases hv : v.getLsbD 3 with
  | true =>
    rw [Bool.not_true, Bool.and_false]
    exact .cleared v hv
  | false =>
    rw [Bool.not_false, Bool.and_true]
    exact .kept _

theorem InputEffect.ovr_effect {i : Input} (h : InputEffect s i t) : OvrEffect s i t.ovr := by
  cases h with
  | lost off z v ho hok hb hl => exact .lost off z v ((State.isBusy_iff s).1 hb) ho hok hl
  | written off z v u _ _ hok _ hu =>
    cases hu with
    | ctrl h =>
      obtain ⟨rfl, rfl⟩ : off = 0x10 ∧ z = .word := ⟨h, eq_word_of_accessOk (by omega) hok⟩
      exact ovr_effect_writeCtrl s v
    | status h =>
      obtain ⟨rfl, rfl⟩ : off = 0x14 ∧ z = .word := ⟨h, eq_word_of_accessOk (by omega) hok⟩
      exact ovr_effect_writeStatus s v
    | _ => exact .kept _
  | rst level =>
    cases level with
    | true => exact .rst
    | false => exact .kept _
  | _ => exact .kept _

theorem OvrEffect.falls {i : Input} (h : OvrEffect s i b) (h0 : s.ovr = true) (h1 : b = false) :
    (∃ v, i = .write (s.params.base + 0x14) .word v ∧ v.getLsbD 3 = true) ∨
    (∃ v, i = .write (s.params.base + 0x10) .word v ∧ v.getLsbD 2 = true) ∨
    i = .rst true := by
  cases h with
  | kept => exact absurd (h1.symm.trans h0) Bool.false_ne_true
  | lost => cases h1
  | cleared v hv => exact .inl ⟨v, rfl, hv⟩
  | softReset v hv => exact .inr (.inl ⟨v, rfl, hv⟩)
  | rst => exact .inr (.inr rfl)

theorem OvrEffect.rises {i : Input} (h : OvrEffect s i b) (h0 : s.ovr = false) (h1 : b = true) :
    s.phase = .busy ∧ ∃ off z v, i = .write (s.params.base + off) z v ∧ off < 0x10000 ∧
      accessOk off z = true ∧ s.isLocked off = true := by
  cases h with
  | kept => exact absurd (h0.symm.trans h1) Bool.false_ne_true
  | lost off z v hb ho hok hl => exact ⟨hb, off, z, v, rfl, ho, hok, hl⟩
  | cleared => cases h1
  | softReset => cases h1
  | rst => cases h1

/-- No command moves OVR, so a step that does is an input. -/
theorem step_ovr_cases (h : step s = .next t) :
    t.ovr = s.ovr ∨ ∃ i left, s.nextMove = .input i left ∧ OvrEffect (s.dequeue left) i t.ovr := by
  rcases step_cases s h with ⟨_, i, _, he⟩ | ⟨_, _, rfl⟩ | ⟨i, left, hm, hserve⟩ | ⟨_, rfl⟩
  · obtain ⟨_, _, hovr, _⟩ := noCommandWritesItsInputs i s t he
    exact .inl hovr
  · exact .inl rfl
  · exact .inr ⟨i, left, hm, (serve_effect hserve).ovr_effect⟩
  · exact .inl rfl

end Ovr

/-- Settles O17: a locked write does nothing but set OVR, and an input has no other effect on OVR than a 1 written to
it or a reset. -/
theorem lockedWritesAreLostWithOvr : Obligations.LockedWritesAreLostWithOvr := by
  refine ⟨fun s off z v left hr hb h ho hok hl => ?_, fun s t h h0 h1 => ?_, fun s t h h0 h1 => ?_⟩
  · exact step_write_locked hr ho hok hb ((State.isLocked_iff s off).2 hl) h
  · rcases step_ovr_cases h with hkept | ⟨i, left, hm, heff⟩
    · exact absurd (h1.symm.trans (hkept.trans h0)) Bool.false_ne_true
    · rcases heff.falls h0 h1 with ⟨v, rfl, hv⟩ | ⟨v, rfl, hv⟩ | rfl
      · exact .inl ⟨v, left, hm, hv⟩
      · exact .inr (.inl ⟨v, left, hm, hv⟩)
      · exact .inr (.inr ⟨left, hm⟩)
  · rcases step_ovr_cases h with hkept | ⟨i, left, hm, heff⟩
    · exact absurd (h0.symm.trans (hkept.symm.trans h1)) Bool.false_ne_true
    · obtain ⟨hb, off, z, v, rfl, ho, hok, hl⟩ := heff.rises h0 h1
      exact ⟨hb, off, z, v, left, hm, ho, hok, (State.isLocked_iff s off).1 hl⟩

end Sys2Proof.Machine
